-- ==== Sys2Proof/Word.lean ====
section
/-! DEFINITION. The byte and the three command-word widths (spec/30_encoding.md R101 to R103). -/

namespace Sys2Proof

/-- The element of every storage array and the one operand (spec/00_scope.md R6 `DATA_W`; R104). -/
abbrev Byte := BitVec 8

/-- A format W command word: `wrst_n`, `winc`, `wdata` (R101). -/
abbrev WriteWord := BitVec 10

/-- A format R command word: `rrst_n`, `rinc` (R102). -/
abbrev ReadWord := BitVec 2

/-- A format F command word: `rst_n`, `in_end`, `in_valid`, `in_data` (R103). -/
abbrev BeatWord := BitVec 11

/-- The three input ports, one command-word format each (R100). -/
inductive Port where
  /-- the write port of `async_fifo`, format W -/
  | write
  /-- the read port of `async_fifo`, format R -/
  | read
  /-- the input port of `frame_assembler`, format F -/
  | assembler
deriving DecidableEq, Repr

end Sys2Proof
end

