-- ==== Sys2Proof/Config.lean ====
section
/-! DEFINITION. The build parameters (spec/00_scope.md R6, R7) and the widths that follow from them. -/

namespace Sys2Proof

/-- The parameters `N`, `P`, `L` of R6. The constraints of R7 are proof fields, as R7 asks: a parameter
set that violates one has no configuration (`ParameterViolation`, spec/60_exceptions.md R217). -/
structure Config where
  /-- `N` (`ADDR_W`), the address width of the FIFO storage -/
  addrW : Nat
  /-- `P` (`PKT`), the packet size in bytes -/
  pkt : Nat
  /-- `L` (`LO_CAP`), the capacity of the leftover buffer in bytes -/
  loCap : Nat
  addrW_pos : 1 ≤ addrW
  pkt_pos : 1 ≤ pkt
  pkt_le_loCap : pkt ≤ loCap
deriving DecidableEq, Repr

/-- `C = 2^N` (R6). -/
def Config.capacity (c : Config) : Nat := 2 ^ c.addrW

/-- `PTR_W = N + 1` (R6). -/
def Config.ptrW (c : Config) : Nat := c.addrW + 1

/-- `2^(N+1)`, the modulus of pointer arithmetic (spec/40_ringbuffer_ops.md R136). -/
def Config.ptrMod (c : Config) : Nat := 2 ^ (c.addrW + 1)

/-- `W_W = max(1, ceil(log2 P))`, the width of `w` (R6). -/
def Config.cursorW (c : Config) : Nat := max 1 (Nat.clog 2 c.pkt)

/-- `LL_W = ceil(log2 (L + 1))`, the width of `lo_len` (R6). -/
def Config.loLenW (c : Config) : Nat := Nat.clog 2 (c.loCap + 1)

/-- Why a parameter set is not built: the constraints of R6, one name each. -/
inductive ParamError where
  /-- the capacity is not `2^N` (spec/93_implementation_defined.md U17). Safe: nothing is built. -/
  | capacityNotPowerOfTwo
  /-- `N = 0`. Safe: nothing is built. -/
  | addrWZero
  /-- `P = 0`. Safe: nothing is built. -/
  | packetEmpty
  /-- `L < P`, the document's capacity misconfiguration (spec/60_exceptions.md R215). Safe: nothing is built. -/
  | leftoverTooSmall
deriving DecidableEq, Repr

/-- The build-time check of R7 on a capacity `C`, a packet size `P` and a leftover capacity `L`. -/
def Config.build (capacity pkt loCap : Nat) : Except ParamError Config :=
  if 2 ^ Nat.log2 capacity = capacity then
    if hn : 1 ≤ Nat.log2 capacity then
      if hp : 1 ≤ pkt then
        if hl : pkt ≤ loCap then .ok ⟨Nat.log2 capacity, pkt, loCap, hn, hp, hl⟩
        else .error .leftoverTooSmall
      else .error .packetEmpty
    else .error .addrWZero
  else .error .capacityNotPowerOfTwo

/-- The parameters of the document's two concrete scenarios, `C = 4` and `PacketSize = 3`, with the smallest
leftover buffer (spec/95_test_vectors.md T1, F1, P3). DESIGN CHOICE, log 2: the spec leaves them open. -/
def Config.scenario : Config := ⟨2, 3, 3, by decide, by decide, by decide⟩

end Sys2Proof
end

