-- ==== Sys2Proof/Syntax.lean ====
section
/-! DEFINITION. The operations of the two blocks (spec/30_encoding.md R105), their command words and the lines
of a stimulus (R108). -/

namespace Sys2Proof

/-- One constructor per row of the operation map R105. The byte operand is bits 7:0 of the word (R104). -/
inductive Instr where
  /-- `WRST`, the write half of RESET (spec/40_ringbuffer_ops.md R131) -/
  | wrst
  /-- `WNOP`, a write clock edge without a request (R135) -/
  | wnop
  /-- `ENQ d` (R133, R134) -/
  | enq (d : Byte)
  /-- `RRST`, the read half of RESET (R131) -/
  | rrst
  /-- `RNOP`, a read clock edge without a request (R142) -/
  | rnop
  /-- `DEQ` (R140, R141) -/
  | deq
  /-- `FA_RESET` (spec/41_frame_assembler_ops.md R171) -/
  | faReset
  /-- `FA_NOP` (R180) -/
  | faNop
  /-- `FA_BYTE d` (R186) -/
  | faByte (d : Byte)
  /-- `FA_END` (R188) -/
  | faEnd
  /-- `FA_LAST d` (R187) -/
  | faLast (d : Byte)
deriving DecidableEq, Repr

/-- The mnemonic of R105. -/
def Instr.mnemonic : Instr → String
  | .wrst => "WRST"
  | .wnop => "WNOP"
  | .enq _ => "ENQ"
  | .rrst => "RRST"
  | .rnop => "RNOP"
  | .deq => "DEQ"
  | .faReset => "FA_RESET"
  | .faNop => "FA_NOP"
  | .faByte _ => "FA_BYTE"
  | .faEnd => "FA_END"
  | .faLast _ => "FA_LAST"

/-- The port that executes an operation (R105, column "format"). -/
def Instr.port : Instr → Port
  | .wrst => .write
  | .wnop => .write
  | .enq _ => .write
  | .rrst => .read
  | .rnop => .read
  | .deq => .read
  | .faReset => .assembler
  | .faNop => .assembler
  | .faByte _ => .assembler
  | .faEnd => .assembler
  | .faLast _ => .assembler

/-- A command word with the port whose pins it is (R100). -/
inductive CommandWord where
  | write (c : WriteWord)
  | read (c : ReadWord)
  | assembler (c : BeatWord)
deriving DecidableEq, Repr

/-- One line of a stimulus: the words sampled at one clock edge, or at one coincidence of the two FIFO
clocks (R108; spec/00_scope.md R11). A port has at most one word, hence one driver
(spec/60_exceptions.md R230). -/
inductive Line where
  /-- an edge of `wclk` alone -/
  | w (c : WriteWord)
  /-- an edge of `rclk` alone -/
  | r (c : ReadWord)
  /-- coinciding edges of `wclk` and `rclk`, or both reset pins low (`WRST || RRST`) -/
  | wr (cw : WriteWord) (cr : ReadWord)
  /-- an edge of the assembler's `clk`, or its reset pin low -/
  | f (c : BeatWord)
deriving DecidableEq, Repr

end Sys2Proof
end

