-- ==== Sys2Proof/Machine/State.lean ====
section
/-! DEFINITION. The state of the machine: one `async_fifo` and one `frame_assembler` with their build
parameters, and the model's own record of inputs and outputs. Registers: spec/10_state.md. -/

namespace Sys2Proof.Machine

/-- One storage array: (index, byte) pairs, indices strictly rising, no pair that holds 0x00. An index not
listed reads as 0x00, the reset value of every element (spec/10_state.md R63). -/
abbrev Memory := List Host.Cell

/-- The call-protocol state of the assembler (R56). The code `0b11` has no constructor
(spec/93_implementation_defined.md U6). -/
inductive Fsm where
  /-- `0b00`, between calls -/
  | idle
  /-- `0b01`, inside a call, no packet completed in it yet -/
  | fill
  /-- `0b10`, inside a call in which a packet was completed -/
  | spill
deriving DecidableEq, Repr

/-- The write clock domain of `async_fifo` (R22). A register of width `k` is a natural below `2^k`
(spec/00_scope.md R8; log 4). -/
structure WriteDomain where
  /-- R23: `C` bytes -/
  mem : Memory
  /-- R24: write pointer, binary, `N+1` bits -/
  wbin : Nat
  /-- R25: write pointer, grey, `N+1` bits -/
  wgray : Nat
  /-- R27: first synchroniser stage of the read pointer, `N+1` bits -/
  wq1Rptr : Nat
  /-- R28: second synchroniser stage of the read pointer, `N+1` bits -/
  wq2Rptr : Nat
deriving DecidableEq, Repr

/-- The read clock domain of `async_fifo` (R22). -/
structure ReadDomain where
  /-- R29: read pointer, binary, `N+1` bits -/
  rbin : Nat
  /-- R30: read pointer, grey, `N+1` bits -/
  rgray : Nat
  /-- R32: first synchroniser stage of the write pointer, `N+1` bits -/
  rq1Wptr : Nat
  /-- R33: second synchroniser stage of the write pointer, `N+1` bits -/
  rq2Wptr : Nat
deriving DecidableEq, Repr

/-- The nine items of R22. -/
structure Fifo where
  wd : WriteDomain
  rd : ReadDomain
deriving DecidableEq, Repr

/-- The ten items of R50. -/
structure Assembler where
  /-- R51: output accumulation buffer, `P` bytes -/
  buf : Memory
  /-- R52: cursor, `W_W` bits -/
  w : Nat
  /-- R53: leftover buffer, `L` bytes -/
  lo : Memory
  /-- R54: leftover length, `LL_W` bits -/
  loLen : Nat
  /-- R55: leftover-pending flag -/
  loPend : Bool
  /-- R56: call-protocol state -/
  fsm : Fsm
  /-- R57: the packet handed out, `P` bytes -/
  pkt : Memory
  /-- R58 -/
  resValid : Bool
  /-- R58: `Incomplete = 0`, `Complete = 1` -/
  resComplete : Bool
  /-- R59: sticky fault bit -/
  loOvf : Bool
deriving DecidableEq, Repr

/-- An event of an `async_fifo` instance: what a step was given and what it returned
(spec/20_memory.md R88; spec/00_scope.md R12). -/
inductive FifoEvent where
  /-- RESET -/
  | reset
  /-- a W step or the write half of a WR step: the request (`none` for `winc = 0`) and `wfull`, `wok`, `wfail` -/
  | write (request : Option Byte) (wfull wok wfail : Bool)
  /-- an R step or the read half of a WR step: `rinc` and `rempty`, `rdata`, `rok` -/
  | read (rinc : Bool) (rempty : Bool) (rdata : Byte) (rok : Bool)
deriving DecidableEq, Repr

/-- An event of a `frame_assembler` instance (R88). -/
inductive FaEvent where
  /-- FA_RESET -/
  | reset
  /-- a beat: `in_end`, the chunk byte (`none` for `in_valid = 0`), and after an `in_end` beat
  `(res_complete, pkt)` -/
  | beat (inEnd : Bool) (inData : Option Byte) (result : Option (Bool × List Byte))
deriving DecidableEq, Repr

/-- The machine. Parameters and the two blocks are the spec's (R6 of spec/00_scope.md, R22, R50); the other
fields are the model's own (INVENTORY.md, `State`). -/
structure State where
  cfg : Config
  fifo : Fifo
  fa : Assembler
  /-- a RESET has happened since power-up (spec/70_reset_and_hazards.md R241; log 8) -/
  fifoReset : Bool
  /-- an FA_RESET has happened since power-up (R241; log 8) -/
  faReset : Bool
  /-- the lines still to come, one step each (spec/30_encoding.md R108; log 1) -/
  stimulus : List Line
  /-- event history of the FIFO, newest first (R88; log 9) -/
  fifoLog : List FifoEvent
  /-- event history of the assembler, newest first (R88; log 9) -/
  faLog : List FaEvent
deriving DecidableEq, Repr

/-- The faults of the model. The spec has no trap (spec/60_exceptions.md R214); its one fault,
`LeftoverOverflow`, is the register `lo_ovf` and a step that sets it completes (R216). -/
inductive Fault where
  /-- Raised by a beat (`FA_BYTE`, `FA_END`, `FA_LAST`) in a state with `w >= P` or `lo_len > L`: the cursor
  names a storage element that does not exist (spec/20_memory.md R70). No state that a reset and steps
  produce is such a state (R62). Safe: the machine stops. Log 11. -/
  | cursorRange
deriving DecidableEq, Repr

/-- The refusals: situations to which the spec gives no meaning (spec/60_exceptions.md R217). -/
inductive Refusal where
  /-- Raised by `exec` for an instruction without a meaning. Safe: nothing runs. -/
  | notModelled (mnemonic : String)
  /-- `PartialReset`, raised by `WRST` without `RRST` and by `RRST` without `WRST`
  (spec/40_ringbuffer_ops.md R132). Safe: nothing runs. -/
  | partialReset
  /-- `NoReset`, raised by every other operation of a block that has not been reset since power-up
  (spec/70_reset_and_hazards.md R241). Safe: nothing runs. -/
  | noReset
deriving DecidableEq, Repr

/-- The result of a step or of a meaning. -/
abbrev Result := Host.Outcome State Fault Refusal

/-- The FIFO right after RESET: every register 0, every element of `mem` 0x00
(spec/40_ringbuffer_ops.md R131; spec/10_state.md R63). -/
def Fifo.zero : Fifo :=
  { wd := { mem := [], wbin := 0, wgray := 0, wq1Rptr := 0, wq2Rptr := 0 }
    rd := { rbin := 0, rgray := 0, rq1Wptr := 0, rq2Wptr := 0 } }

/-- The assembler right after FA_RESET: every register 0, every element of `buf`, `lo`, `pkt` 0x00
(spec/41_frame_assembler_ops.md R171; R63). -/
def Assembler.zero : Assembler :=
  { buf := [], w := 0, lo := [], loLen := 0, loPend := false, fsm := .idle, pkt := [],
    resValid := false, resComplete := false, loOvf := false }

/-- The machine built with parameters `c`, right after RESET and FA_RESET (R63;
spec/70_reset_and_hazards.md R240), no line of a stimulus given yet. -/
def State.resetWith (c : Config) : State :=
  { cfg := c, fifo := .zero, fa := .zero, fifoReset := true, faReset := true,
    stimulus := [], fifoLog := [], faLog := [] }

/-- The machine right after reset, built with the parameters of the document's scenarios (log 2). -/
def State.reset : State := .resetWith .scenario

end Sys2Proof.Machine
end

