-- ==== Sys2Proof/Machine/Ops.lean ====
section
/-! DEFINITION. The named operations over storage arrays and pointers. The spec has no exception entry or return
(spec/60_exceptions.md R214), so none stands here. -/

namespace Sys2Proof.Machine

/-! ### Storage arrays (spec/20_memory.md R70) -/

/-- What an index that is not listed reads as: the reset value of every element (spec/10_state.md R63). -/
def Memory.blank : Byte := 0x00

/-- `MemRead(i, 1)` (spec/00_scope.md R9). -/
def Memory.read : Memory → Nat → Byte
  | [], _ => Memory.blank
  | (x, v) :: m, i => if x = i then v else Memory.read m i

/-- `MemWrite(i, 1, b)` (R9), keeping the canonical form. -/
def Memory.write : Memory → Nat → Byte → Memory
  | [], i, b => if b = Memory.blank then [] else [(i, b)]
  | (x, v) :: m, i, b =>
    if i < x then
      if b = Memory.blank then (x, v) :: m else (i, b) :: (x, v) :: m
    else if i = x then
      if b = Memory.blank then m else (i, b) :: m
    else (x, v) :: Memory.write m i b

/-- `dst[at + i] <- src[i]` for `0 <= i < k` (the copy of spec/41_frame_assembler_ops.md R181). -/
def Memory.copyFrom (dst : Memory) (at_ : Nat) (src : Memory) : Nat → Memory
  | 0 => dst
  | k + 1 => Memory.write (Memory.copyFrom dst at_ src k) (at_ + k) (Memory.read src k)

/-- Element `i` becomes element `i + k`; the `k` vacated top elements become 0x00 (R181, R53 of
spec/10_state.md). -/
def Memory.shiftDown (k : Nat) : Memory → Memory
  | [] => []
  | (x, v) :: m => if x < k then Memory.shiftDown k m else (x - k, v) :: Memory.shiftDown k m

/-- The bytes of a list at consecutive indices from `at_` (the chunk copies of R190). -/
def Memory.writeList (m : Memory) (at_ : Nat) : List Byte → Memory
  | [] => m
  | b :: bs => Memory.writeList (Memory.write m at_ b) (at_ + 1) bs

/-- Elements `0 .. n-1` in index order. -/
def Memory.bytes (m : Memory) (n : Nat) : List Byte := (List.range n).map (Memory.read m)

/-- The canonical form from a first admissible index on: indices strictly rising, no blank byte. -/
def Memory.wfFrom : Nat → Memory → Bool
  | _, [] => true
  | n, (x, v) :: m => decide (n ≤ x) && (v != Memory.blank) && Memory.wfFrom (x + 1) m

/-- The canonical form of a storage array. -/
def Memory.wf (m : Memory) : Bool := Memory.wfFrom 0 m

/-- Every listed index is an element of an array of `n` elements. -/
def Memory.within (n : Nat) (m : Memory) : Bool := m.all fun cell => decide (cell.1 < n)

/-! ### Pointer arithmetic and grey code (spec/00_scope.md R8, R10; spec/40_ringbuffer_ops.md R136) -/

/-- `a +_k b`. -/
def addMod (k a b : Nat) : Nat := (a + b) % 2 ^ k

/-- `a -_k b`. -/
def subMod (k a b : Nat) : Nat := (a + (2 ^ k - b % 2 ^ k)) % 2 ^ k

/-- `p +_{N+1} 1`, the one pointer increment (R136). -/
def nextPtr (c : Config) (p : Nat) : Nat := addMod c.ptrW p 1

/-- `p[N-1:0]`, the storage index a pointer names (spec/10_state.md R26, R31). -/
def slot (c : Config) (p : Nat) : Nat := p % c.capacity

/-- `b2g(b) = b ^ (b >> 1)` (R10). -/
def b2g (b : Nat) : Nat := b ^^^ (b >>> 1)

/-- `g2b` of a `k`-bit value: bit `i` is the exclusive or of bits `k-1 .. i`, that is, the exclusive or of the
`k` right shifts of `g` (R10). -/
def g2b : Nat → Nat → Nat
  | 0, _ => 0
  | k + 1, g => (g >>> k) ^^^ g2b k g

/-! ### The assembler's state code -/

/-- The 2-bit code of `fsm` (spec/10_state.md R56). -/
def fsmCode : Fsm → BitVec 2
  | .idle => 0b00
  | .fill => 0b01
  | .spill => 0b10

/-! ### The record of a step -/

/-- The stimulus without the line just executed. -/
def State.consumeLine (s : State) : State := { s with stimulus := s.stimulus.tail }

end Sys2Proof.Machine
end

