-- ==== Sys2Proof/Machine/Flags.lean ====
section
/-! DEFINITION. The flags, outputs and derived quantities of both blocks (spec/10_state.md R26, R31, R36 to R43,
R60, R61), each a function of the state and, where the spec says so, of the port's inputs. -/

namespace Sys2Proof.Machine

/-- `head = rbin[N-1:0]` (R31). -/
def Fifo.head (c : Config) (f : Fifo) : Nat := slot c f.rd.rbin

/-- `tail = wbin[N-1:0]` (R26). -/
def Fifo.tail (c : Config) (f : Fifo) : Nat := slot c f.wd.wbin

/-- `count = wbin -_{N+1} rbin` (R36). -/
def Fifo.count (c : Config) (f : Fifo) : Nat := subMod c.ptrW f.wd.wbin f.rd.rbin

/-- `wcount = wbin -_{N+1} g2b(wq2_rptr)` (R37). -/
def Fifo.wcount (c : Config) (f : Fifo) : Nat := subMod c.ptrW f.wd.wbin (g2b c.ptrW f.wd.wq2Rptr)

/-- `rcount = g2b(rq2_wptr) -_{N+1} rbin` (R38). -/
def Fifo.rcount (c : Config) (f : Fifo) : Nat := subMod c.ptrW (g2b c.ptrW f.rd.rq2Wptr) f.rd.rbin

/-- `wfull = (wgray == (wq2_rptr ^ (0b11 << (N-1))))` (R40), the document's `isFull()` and the query `ISFULL`
(spec/40_ringbuffer_ops.md R138). -/
def Fifo.wfull (c : Config) (f : Fifo) : Bool := f.wd.wgray == f.wd.wq2Rptr ^^^ (0b11 <<< (c.addrW - 1))

/-- `rempty = (rgray == rq2_wptr)` (R41), the document's `isEmpty()` and the query `ISEMPTY` (R144). -/
def Fifo.rempty (f : Fifo) : Bool := f.rd.rgray == f.rd.rq2Wptr

/-- `rdata = rempty ? 0x00 : mem[head]` (R42). -/
def Fifo.rdata (c : Config) (f : Fifo) : Byte :=
  if f.rempty then 0x00 else Memory.read f.wd.mem (f.head c)

/-- `wok = winc && !wfull` (R42). -/
def Fifo.wok (c : Config) (f : Fifo) (winc : Bool) : Bool := winc && !f.wfull c

/-- `wfail = winc && wfull` (R42). -/
def Fifo.wfail (c : Config) (f : Fifo) (winc : Bool) : Bool := winc && f.wfull c

/-- `rok = rinc && !rempty` (R42). -/
def Fifo.rok (f : Fifo) (rinc : Bool) : Bool := rinc && !f.rempty

/-- A settled state: both synchronisers hold the other side's current pointer (R39). -/
def Fifo.settled (f : Fifo) : Bool := f.wd.wq2Rptr == f.rd.rgray && f.rd.rq2Wptr == f.wd.wgray

/-- `mem[(head + j) mod C]` for `0 <= j < count`: the valid data, oldest first (R39 (iv)). -/
def Fifo.stored (c : Config) (f : Fifo) : List Byte :=
  (List.range (f.count c)).map fun j => Memory.read f.wd.mem ((f.head c + j) % c.capacity)

/-- `more = (lo_len >= P)` (R60), the query `MORE` (spec/41_frame_assembler_ops.md R189). -/
def Assembler.more (c : Config) (a : Assembler) : Bool := decide (c.pkt ≤ a.loLen)

/-- `pkt[0..P-1]` in stream order (R57). -/
def Assembler.packet (c : Config) (a : Assembler) : List Byte := Memory.bytes a.pkt c.pkt

/-- A list of bytes as one number, element 0 in the lowest byte. -/
def busValue : List Byte → Nat
  | [] => 0
  | b :: bs => b.toNat + 256 * busValue bs

/-- `pkt_bus[8i+7:8i] = pkt[i]` (R57). -/
def Assembler.pktBus (c : Config) (a : Assembler) : Nat := busValue (a.packet c)

/-- The level outputs of `async_fifo` that need no request (R43). -/
structure FifoPins where
  wfull : Bool
  rempty : Bool
  rdata : Byte
deriving DecidableEq, Repr

/-- The outputs `async_fifo` presents in a state (R43). -/
def Fifo.pins (c : Config) (f : Fifo) : FifoPins := ⟨f.wfull c, f.rempty, f.rdata c⟩

/-- The outputs of `frame_assembler` (R61). -/
structure AssemblerPins where
  resValid : Bool
  resComplete : Bool
  pktBus : Nat
  more : Bool
  loOvf : Bool
  loPend : Bool
deriving DecidableEq, Repr

/-- The outputs `frame_assembler` presents in a state (R61). -/
def Assembler.pins (c : Config) (a : Assembler) : AssemblerPins :=
  ⟨a.resValid, a.resComplete, a.pktBus c, a.more c, a.loOvf, a.loPend⟩

/-- The event of a W step or write half, from the state before the step (spec/00_scope.md R12). -/
def Fifo.writeEvent (c : Config) (f : Fifo) (request : Option Byte) : FifoEvent :=
  .write request (f.wfull c) (f.wok c request.isSome) (f.wfail c request.isSome)

/-- The event of an R step or read half, from the state before the step (R12). -/
def Fifo.readEvent (c : Config) (f : Fifo) (rinc : Bool) : FifoEvent :=
  .read rinc f.rempty (f.rdata c) (f.rok rinc)

/-! ### Judgements over the event history (spec/20_memory.md R78, R88) -/

/-- `E`: the bytes of all ENQ steps with `wok == 1` since the last RESET, in step order (R78). -/
def acceptedBytes : List FifoEvent → List Byte
  | [] => []
  | .reset :: _ => []
  | .write (some d) _ true _ :: log => acceptedBytes log ++ [d]
  | .write (some _) _ false _ :: log => acceptedBytes log
  | .write none _ _ _ :: log => acceptedBytes log
  | .read _ _ _ _ :: log => acceptedBytes log

/-- `Q`: the bytes returned by all DEQ steps with `rok == 1` since the last RESET, in step order (R78). -/
def deliveredBytes : List FifoEvent → List Byte
  | [] => []
  | .reset :: _ => []
  | .read _ _ d true :: log => deliveredBytes log ++ [d]
  | .read _ _ _ false :: log => deliveredBytes log
  | .write _ _ _ _ :: log => deliveredBytes log

/-- The bytes of all beats since the last FA_RESET, in step order (spec/10_state.md R62). -/
def fedBytes : List FaEvent → List Byte
  | [] => []
  | .reset :: _ => []
  | .beat _ (some d) _ :: log => fedBytes log ++ [d]
  | .beat _ none _ :: log => fedBytes log

/-- The packets of all calls that returned `Complete` since the last FA_RESET, in order, joined. -/
def returnedBytes : List FaEvent → List Byte
  | [] => []
  | .reset :: _ => []
  | .beat _ _ (some (true, p)) :: log => returnedBytes log ++ p
  | .beat _ _ (some (false, _)) :: log => returnedBytes log
  | .beat _ _ none :: log => returnedBytes log

/-- The packets completed so far, joined: those returned, and the one completed in a call still open (R62). -/
def completedBytes (c : Config) (a : Assembler) (log : List FaEvent) : List Byte :=
  if a.fsm = .spill then returnedBytes log ++ a.packet c else returnedBytes log

end Sys2Proof.Machine
end

