-- ==== Sys2Proof/Machine/AssemblerPort.lean ====
section
/-! DEFINITION. The operations of `frame_assembler` (spec/41_frame_assembler_ops.md): the three phases of a beat
and the meanings of the five command words. -/

namespace Sys2Proof.Machine

/-- Phase A, call start (R181): drain the staged bytes into `buf`, in the first beat of a call only. -/
def Assembler.phaseA (c : Config) (a : Assembler) : Assembler :=
  if a.fsm = .idle then
    let k := min a.loLen (c.pkt - a.w)
    let drained : Assembler :=
      { a with
        buf := Memory.copyFrom a.buf a.w a.lo k
        lo := Memory.shiftDown k a.lo
        loLen := a.loLen - k
        w := a.w + k }
    if drained.w = c.pkt then { drained with pkt := drained.buf, w := 0, fsm := .spill }
    else { drained with fsm := .fill }
  else a

/-- Phase B when `fsm' == FILL` (R183): a byte into the packet. -/
def Assembler.fillByte (c : Config) (a : Assembler) (d : Byte) : Assembler :=
  let written : Assembler := { a with buf := Memory.write a.buf a.w d, w := a.w + 1 }
  if written.w = c.pkt then { written with pkt := written.buf, w := 0, fsm := .spill }
  else { written with fsm := .fill }

/-- Phase B when `fsm' == SPILL` (R184): a byte staged for the next packet, or discarded with the fault bit
set when the leftover buffer is full. -/
def Assembler.spillByte (c : Config) (a : Assembler) (d : Byte) : Assembler :=
  if a.loLen < c.loCap then { a with lo := Memory.write a.lo a.loLen d, loLen := a.loLen + 1 }
  else { a with loOvf := true }

/-- Phase B (R182): by the state phase A left. Phase A never leaves IDLE; that arm changes nothing. -/
def Assembler.phaseB (c : Config) (a : Assembler) (d : Byte) : Assembler :=
  match a.fsm with
  | .fill => a.fillByte c d
  | .spill => a.spillByte c d
  | .idle => a

/-- Phase C (R185): commit, and end of call. -/
def Assembler.phaseC (a : Assembler) (inEnd : Bool) : Assembler :=
  if inEnd then
    { a with
      loPend := a.loLen != 0
      resValid := true
      resComplete := a.fsm == .spill
      fsm := .idle }
  else { a with loPend := a.loLen != 0, resValid := false }

/-- A beat (R182): phase A, phase B if there is a byte, phase C. -/
def Assembler.beat (c : Config) (a : Assembler) (inEnd : Bool) (inData : Option Byte) : Assembler :=
  match inData with
  | some d => ((a.phaseA c).phaseB c d).phaseC inEnd
  | none => (a.phaseA c).phaseC inEnd

/-- The event of a beat, `a` being the assembler after it (spec/20_memory.md R88). -/
def Assembler.beatEvent (c : Config) (a : Assembler) (inEnd : Bool) (inData : Option Byte) : FaEvent :=
  .beat inEnd inData (if inEnd then some (a.resComplete, a.packet c) else none)

/-- The registers `w` and `lo_len` name storage that exists (spec/10_state.md R62). -/
def Assembler.cursorsInRange (c : Config) (a : Assembler) : Bool :=
  decide (a.w < c.pkt) && decide (a.loLen ≤ c.loCap)

/-- The state after a beat, recorded. -/
def State.afterBeat (s : State) (inEnd : Bool) (inData : Option Byte) : State :=
  { s with
    fa := s.fa.beat s.cfg inEnd inData
    faLog := (s.fa.beat s.cfg inEnd inData).beatEvent s.cfg inEnd inData :: s.faLog }

/-- A beat of the machine. Before the first FA_RESET it is `NoReset` (spec/70_reset_and_hazards.md R241). -/
def State.beatStep (s : State) (inEnd : Bool) (inData : Option Byte) : Result :=
  if s.faReset then
    if s.fa.cursorsInRange s.cfg then .next (s.afterBeat inEnd inData) else .fault .cursorRange
  else .refused .noReset

/-- `FA_RESET` (R171), defined in every state. -/
def execFaReset (s : State) : Result :=
  .next { s with fa := Assembler.zero, faReset := true, faLog := .reset :: s.faLog }

/-- `FA_NOP` (R180): not a beat; `res_valid` falls, nothing else changes. -/
def execFaNop (s : State) : Result :=
  if s.faReset then .next { s with fa := { s.fa with resValid := false } } else .refused .noReset

/-- `FA_BYTE d` (R186). -/
def execFaByte (d : Byte) (s : State) : Result := s.beatStep false (some d)

/-- `FA_END` (R188). -/
def execFaEnd (s : State) : Result := s.beatStep true none

/-- `FA_LAST d` (R187). -/
def execFaLast (d : Byte) (s : State) : Result := s.beatStep true (some d)

end Sys2Proof.Machine
end

