-- ==== Sys2Proof/WellFormed.lean ====
section
/-! DEFINITION. The well-formedness checks: of an operation, of a number offered as a command word, and of a
stimulus line. (The check of the build parameters is `Config.build`.) -/

namespace Sys2Proof

/-- The number of input pins of a port (spec/30_encoding.md R101 to R103). -/
def Port.wordBits : Port → Nat
  | .write => 10
  | .read => 2
  | .assembler => 11

/-- A number is a command word of a port iff its pins can carry it (R100). -/
def Port.carries (p : Port) (v : Nat) : Bool := v < 2 ^ p.wordBits

/-- Every operation is well-formed: its only operand is a byte (R104) and no command word is illegal or
reserved (R107). -/
def Instr.wellFormed : Instr → Bool
  | .wrst => true
  | .wnop => true
  | .enq d => d.toNat < 256
  | .rrst => true
  | .rnop => true
  | .deq => true
  | .faReset => true
  | .faNop => true
  | .faByte d => d.toNat < 256
  | .faEnd => true
  | .faLast d => d.toNat < 256

/-- A line is well-formed iff it does not reset one FIFO domain without the other: the combination across
ports that R107 and spec/40_ringbuffer_ops.md R132 refuse. Bit 9 of a W word is `wrst_n`, bit 1 of an R word
`rrst_n` (R101, R102). -/
def Line.wellFormed : Line → Bool
  | .w c => c.getLsbD 9
  | .r c => c.getLsbD 1
  | .wr cw cr => cw.getLsbD 9 == cr.getLsbD 1
  | .f _ => true

end Sys2Proof
end

