-- ==== Sys2Proof/Decode.lean ====
section
/-! DEFINITION. Decoding of command words, total on every word (spec/30_encoding.md R105, R107); numbers that no
port can carry are rejected by name; the encoder; the operation map as a table. -/

namespace Sys2Proof

/-- Bits 7:0 of a command word, unchanged (R104). -/
def operandByte {n : Nat} (c : BitVec n) : Byte := c.extractLsb' 0 8

/-- Format W (R101, R105): bit 9 is `wrst_n`, bit 8 `winc`. -/
def decodeWrite (c : WriteWord) : Instr :=
  if c.getLsbD 9 then
    if c.getLsbD 8 then .enq (operandByte c) else .wnop
  else .wrst

/-- Format R (R102, R105): bit 1 is `rrst_n`, bit 0 `rinc`. -/
def decodeRead (c : ReadWord) : Instr :=
  if c.getLsbD 1 then
    if c.getLsbD 0 then .deq else .rnop
  else .rrst

/-- Format F (R103, R105): bit 10 is `rst_n`, bit 9 `in_end`, bit 8 `in_valid`. -/
def decodeBeat (c : BeatWord) : Instr :=
  if c.getLsbD 10 then
    if c.getLsbD 9 then
      if c.getLsbD 8 then .faLast (operandByte c) else .faEnd
    else
      if c.getLsbD 8 then .faByte (operandByte c) else .faNop
  else .faReset

/-- The operation a command word selects (R100: from the word alone, never from state). -/
def decode : CommandWord → Instr
  | .write c => decodeWrite c
  | .read c => decodeRead c
  | .assembler c => decodeBeat c

/-- Why a number is not decoded. -/
inductive DecodeReject where
  /-- the number has a bit above the port's pins. Safe: nothing runs. -/
  | widerThanPort (p : Port)
deriving DecidableEq, Repr

/-- The word of a port with value `v`, bits above the port's width dropped. -/
def Port.word : Port → Nat → CommandWord
  | .write, v => .write (BitVec.ofNat 10 v)
  | .read, v => .read (BitVec.ofNat 2 v)
  | .assembler, v => .assembler (BitVec.ofNat 11 v)

/-- Decoding of any number offered to a port. -/
def decodeNumber (p : Port) (v : Nat) : Except DecodeReject Instr :=
  if p.carries v then .ok (decode (p.word v)) else .error (.widerThanPort p)

/-! ### The encoder -/

/-- The word of an operation, ignored bits 0 (the canonical words of spec/95_test_vectors.md section 4). -/
def encode : Instr → CommandWord
  | .wrst => .write 0b0000000000
  | .wnop => .write 0b1000000000
  | .enq d => .write (0b11#2 ++ d)
  | .rrst => .read 0b00
  | .rnop => .read 0b10
  | .deq => .read 0b11
  | .faReset => .assembler 0b00000000000
  | .faNop => .assembler 0b10000000000
  | .faByte d => .assembler (0b101#3 ++ d)
  | .faEnd => .assembler 0b11000000000
  | .faLast d => .assembler (0b111#3 ++ d)

/-- The port whose pins a word is. -/
def CommandWord.port : CommandWord → Port
  | .write _ => .write
  | .read _ => .read
  | .assembler _ => .assembler

/-- A word as an unsigned integer (R105). -/
def CommandWord.value : CommandWord → Nat
  | .write c => c.toNat
  | .read c => c.toNat
  | .assembler c => c.toNat

/-- The bits of an operation's pattern that are not ignored: fixed bits and byte operand (R105). -/
def Instr.careMask : Instr → Nat
  | .wrst => 0x200
  | .wnop => 0x300
  | .enq _ => 0x3FF
  | .rrst => 0x2
  | .rnop => 0x3
  | .deq => 0x3
  | .faReset => 0x400
  | .faNop => 0x700
  | .faByte _ => 0x7FF
  | .faEnd => 0x700
  | .faLast _ => 0x7FF

/-! ### The operation map as a table -/

/-- A row of R105: `c` selects the row iff `(c & mask) == value`. -/
structure OpRow where
  mnemonic : String
  port : Port
  mask : Nat
  value : Nat
deriving DecidableEq, Repr

/-- R105, in the order of the table. -/
def opRows : List OpRow :=
  [ ⟨"WRST", .write, 0x200, 0x000⟩,
    ⟨"WNOP", .write, 0x300, 0x200⟩,
    ⟨"ENQ", .write, 0x300, 0x300⟩,
    ⟨"RRST", .read, 0x2, 0x0⟩,
    ⟨"RNOP", .read, 0x3, 0x2⟩,
    ⟨"DEQ", .read, 0x3, 0x3⟩,
    ⟨"FA_RESET", .assembler, 0x400, 0x000⟩,
    ⟨"FA_NOP", .assembler, 0x700, 0x400⟩,
    ⟨"FA_BYTE", .assembler, 0x700, 0x500⟩,
    ⟨"FA_END", .assembler, 0x700, 0x600⟩,
    ⟨"FA_LAST", .assembler, 0x700, 0x700⟩ ]

/-- Whether a word selects a row of the map (R105). -/
def OpRow.selectedBy (r : OpRow) (c : CommandWord) : Bool :=
  r.port == c.port && c.value &&& r.mask == r.value

/-! ### Words numbered as the opcode table numbers them -/

/-- The port of a table row, from the bits the row has (10, 2, 11; in whole bytes 16, 8, 16) and the word.
DESIGN CHOICE, log 6: sixteen bits name two formats; a word of at most ten bits is read as format W. -/
def portOfTableRow (nbits w : Nat) : Option Port :=
  match nbits with
  | 10 => some .write
  | 2 => some .read
  | 8 => some .read
  | 11 => some .assembler
  | 16 => if w < 2 ^ 10 then some .write else some .assembler
  | _ => none

/-- The command word of a table row's bits, none where no port can carry them. -/
def wordOfTableRow (nbits w : Nat) : Option CommandWord :=
  match portOfTableRow nbits w with
  | some p => if p.carries w then some (p.word w) else none
  | none => none

/-- The operation decoded from a table row's bits. -/
def decodeTableWord (nbits w : Nat) : Option Instr :=
  match wordOfTableRow nbits w with
  | some c => some (decode c)
  | none => none

/-! ### Lines -/

/-- The line on which a port executes a word next. A word whose reset pin is low is joined with the other FIFO
port's reset word, since RESET is the two together (spec/40_ringbuffer_ops.md R131, R132; log 7). -/
def lineOfWord : CommandWord → Line
  | .write c => if c.getLsbD 9 then .w c else .wr c 0b00
  | .read c => if c.getLsbD 1 then .r c else .wr 0b0000000000 c
  | .assembler c => .f c

/-- The operation a line is executed by: the write half of a coincident line stands for the joint step
(spec/40_ringbuffer_ops.md R146). -/
def Line.instr : Line → Instr
  | .w c => decodeWrite c
  | .r c => decodeRead c
  | .wr cw _ => decodeWrite cw
  | .f c => decodeBeat c

end Sys2Proof
end

