-- ==== Sys2Proof/Machine/Operands.lean ====
section
/-! DEFINITION. The operand forms: what a FIFO port asks for in a step, and the operation that coincides with it
on the other FIFO port (spec/40_ringbuffer_ops.md R146). -/

namespace Sys2Proof.Machine

/-- What the write port does in one step. -/
inductive WriteOp where
  /-- `wrst_n = 0` -/
  | reset
  /-- a clock edge with `winc = 1` and a byte, or with `winc = 0` -/
  | edge (request : Option Byte)
deriving DecidableEq, Repr

/-- What the read port does in one step. -/
inductive ReadOp where
  /-- `rrst_n = 0` -/
  | reset
  /-- a clock edge with `rinc` as given -/
  | edge (rinc : Bool)
deriving DecidableEq, Repr

/-- The write-port operations of R105. -/
def writeOpOf : Instr → Option WriteOp
  | .wrst => some .reset
  | .wnop => some (.edge none)
  | .enq d => some (.edge (some d))
  | .rrst => none
  | .rnop => none
  | .deq => none
  | .faReset => none
  | .faNop => none
  | .faByte _ => none
  | .faEnd => none
  | .faLast _ => none

/-- The read-port operations of R105. -/
def readOpOf : Instr → Option ReadOp
  | .rrst => some .reset
  | .rnop => some (.edge false)
  | .deq => some (.edge true)
  | .wrst => none
  | .wnop => none
  | .enq _ => none
  | .faReset => none
  | .faNop => none
  | .faByte _ => none
  | .faEnd => none
  | .faLast _ => none

/-- The read-port operation that coincides with a write-port operation in this step (R146): the read half of
the line now executed, none when only `wclk` rises (log 5). -/
def State.coincidentRead (s : State) : Option ReadOp :=
  match s.stimulus with
  | .wr _ cr :: _ => readOpOf (decodeRead cr)
  | .w _ :: _ => none
  | .r _ :: _ => none
  | .f _ :: _ => none
  | [] => none

/-- The write-port operation that coincides with a read-port operation in this step (R146; log 5). -/
def State.coincidentWrite (s : State) : Option WriteOp :=
  match s.stimulus with
  | .wr cw _ :: _ => writeOpOf (decodeWrite cw)
  | .w _ :: _ => none
  | .r _ :: _ => none
  | .f _ :: _ => none
  | [] => none

end Sys2Proof.Machine
end

