-- ==== Sys2Proof/Machine/FifoPorts.lean ====
section
/-! DEFINITION. The operations of `async_fifo` (spec/40_ringbuffer_ops.md): the write half and the read half of a
step, their coincidence, RESET, and the meanings of the six command words. -/

namespace Sys2Proof.Machine

/-- `sync_w()` (R137): both stages take the values before the step. -/
def Fifo.syncW (f : Fifo) : WriteDomain :=
  { f.wd with wq2Rptr := f.wd.wq1Rptr, wq1Rptr := f.rd.rgray }

/-- `sync_r()` (R143): both stages take the values before the step. -/
def Fifo.syncR (f : Fifo) : ReadDomain :=
  { f.rd with rq2Wptr := f.rd.rq1Wptr, rq1Wptr := f.wd.wgray }

/-- The write domain after a W step or the write half of a WR step (R133 to R135), from the state before it. -/
def Fifo.writeHalf (c : Config) (f : Fifo) : Option Byte → WriteDomain
  | some d =>
    if f.wfull c then f.syncW
    else
      { f.syncW with
        mem := Memory.write f.wd.mem (f.tail c) d
        wbin := nextPtr c f.wd.wbin
        wgray := b2g (nextPtr c f.wd.wbin) }
  | none => f.syncW

/-- The read domain after an R step or the read half of a WR step (R140 to R142), from the state before it. -/
def Fifo.readHalf (c : Config) (f : Fifo) (rinc : Bool) : ReadDomain :=
  if f.rok rinc then
    { f.syncR with
      rbin := nextPtr c f.rd.rbin
      rgray := b2g (nextPtr c f.rd.rbin) }
  else f.syncR

/-- A W step: the write half, recorded. -/
def State.stepW (s : State) (request : Option Byte) : State :=
  { s with
    fifo := { s.fifo with wd := s.fifo.writeHalf s.cfg request }
    fifoLog := s.fifo.writeEvent s.cfg request :: s.fifoLog }

/-- An R step: the read half, recorded. -/
def State.stepR (s : State) (rinc : Bool) : State :=
  { s with
    fifo := { s.fifo with rd := s.fifo.readHalf s.cfg rinc }
    fifoLog := s.fifo.readEvent s.cfg rinc :: s.fifoLog }

/-- A WR step (R146): both halves from the state before the joint step, both recorded. -/
def State.stepWR (s : State) (request : Option Byte) (rinc : Bool) : State :=
  { s with
    fifo := { wd := s.fifo.writeHalf s.cfg request, rd := s.fifo.readHalf s.cfg rinc }
    fifoLog := s.fifo.readEvent s.cfg rinc :: s.fifo.writeEvent s.cfg request :: s.fifoLog }

/-- RESET (R131). It is defined in every state, the unreset one too (spec/70_reset_and_hazards.md R241). -/
def State.resetFifo (s : State) : State :=
  { s with fifo := Fifo.zero, fifoReset := true, fifoLog := .reset :: s.fifoLog }

/-- One step of the FIFO: what each port does at this edge, `none` for a port whose clock does not rise.
One reset pin without the other is `PartialReset` (R132); a clock edge before the first RESET is `NoReset`
(spec/70_reset_and_hazards.md R241). -/
def State.fifoStep (s : State) : Option WriteOp → Option ReadOp → Result
  | some .reset, some .reset => .next s.resetFifo
  | some .reset, some (.edge _) => .refused .partialReset
  | some .reset, none => .refused .partialReset
  | some (.edge _), some .reset => .refused .partialReset
  | none, some .reset => .refused .partialReset
  | some (.edge request), some (.edge rinc) =>
    if s.fifoReset then .next (s.stepWR request rinc) else .refused .noReset
  | some (.edge request), none => if s.fifoReset then .next (s.stepW request) else .refused .noReset
  | none, some (.edge rinc) => if s.fifoReset then .next (s.stepR rinc) else .refused .noReset
  | none, none => .next s

/-- `WRST` (R131, R132). -/
def execWrst (s : State) : Result := s.fifoStep (some .reset) s.coincidentRead

/-- `WNOP` (R135). -/
def execWnop (s : State) : Result := s.fifoStep (some (.edge none)) s.coincidentRead

/-- `ENQ d` (R133, R134). -/
def execEnq (d : Byte) (s : State) : Result := s.fifoStep (some (.edge (some d))) s.coincidentRead

/-- `RRST` (R131, R132). -/
def execRrst (s : State) : Result := s.fifoStep s.coincidentWrite (some .reset)

/-- `RNOP` (R142). -/
def execRnop (s : State) : Result := s.fifoStep s.coincidentWrite (some (.edge false))

/-- `DEQ` (R140, R141). -/
def execDeq (s : State) : Result := s.fifoStep s.coincidentWrite (some (.edge true))

end Sys2Proof.Machine
end

