-- ==== Sys2Proof/Machine/Dispatch.lean ====
section
/-! DEFINITION. The meaning of every operation, one arm each. -/

namespace Sys2Proof.Machine

def exec (i : Instr) (s : State) : Host.Outcome State Fault Refusal :=
  match i with
  | .wrst => Sys2Proof.Machine.execWrst s
  | .wnop => Sys2Proof.Machine.execWnop s
  | .enq d => Sys2Proof.Machine.execEnq d s
  | .rrst => Sys2Proof.Machine.execRrst s
  | .rnop => Sys2Proof.Machine.execRnop s
  | .deq => Sys2Proof.Machine.execDeq s
  | .faReset => Sys2Proof.Machine.execFaReset s
  | .faNop => Sys2Proof.Machine.execFaNop s
  | .faByte d => Sys2Proof.Machine.execFaByte d s
  | .faEnd => Sys2Proof.Machine.execFaEnd s
  | .faLast d => Sys2Proof.Machine.execFaLast d s

end Sys2Proof.Machine
end

