-- ==== Sys2Proof/Machine/Step.lean ====
section
/-! DEFINITION. One step: the operation of the next stimulus line is executed and the line is used up. -/

namespace Sys2Proof.Machine

/-- One step (spec/00_scope.md R11; spec/30_encoding.md R108). Without a line there is no clock edge and the
state is kept (spec/60_exceptions.md R234; log 1). -/
def step (s : State) : Host.Outcome State Fault Refusal :=
  match s.stimulus with
  | [] => .next s
  | line :: _ =>
    match exec line.instr s with
    | .next t => .next t.consumeLine
    | .fault r => .fault r
    | .refused r => .refused r

/-- `s` with the word of an opcode-table row as the next line of its stimulus (logs 6 and 7). -/
def State.withFetchWord (s : State) (nbits w : Nat) : State :=
  match wordOfTableRow nbits w with
  | some c => { s with stimulus := lineOfWord c :: s.stimulus }
  | none => s

end Sys2Proof.Machine
end

