-- ==== Sys2Proof/Machine/Calls.lean ====
section
/-! DEFINITION. Sequences of operations: the pseudo-operations FEED, DRAIN and ENQ_DROP_OLDEST
(spec/30_encoding.md R109), the whole call of the document (spec/41_frame_assembler_ops.md R190), and the
execution of a list of operations. -/

namespace Sys2Proof.Machine

/-- The operations of a list, each executed alone in order, up to the first that stops. -/
def execAll : List Instr → State → Result
  | [], s => .next s
  | i :: is, s =>
    match exec i s with
    | .next t => execAll is t
    | .fault r => .fault r
    | .refused r => .refused r

/-- `FEED [b0 ... b(n-1)]` ended by `FA_LAST`; `FEED []` is `FA_END` (R109). -/
def feedOps : List Byte → List Instr
  | [] => [.faEnd]
  | [d] => [.faLast d]
  | d :: e :: ds => .faByte d :: feedOps (e :: ds)

/-- The other ending of R109: every byte by `FA_BYTE`, then `FA_END`. -/
def feedOpsEnd (chunk : List Byte) : List Instr := chunk.map .faByte ++ [.faEnd]

/-- `ENQ_DROP_OLDEST d` (spec/40_ringbuffer_ops.md R148): the producer tries `ENQ d`; if `wfail` is 1, one `DEQ` of
the read port's owner follows, and then `ENQ d` again. DESIGN CHOICE, log 17: R148 leaves open what the ports do
before and after the `DEQ`, so these operations are the arguments `before` and `after`; the steps of the pattern do
not coincide. -/
def enqDropOldest (d : Byte) (before after : List Instr) (s : State) : Result :=
  match exec (.enq d) s with
  | .next t => if s.fifo.wfail s.cfg true then execAll (before ++ .deq :: after ++ [.enq d]) t else .next t
  | .fault r => .fault r
  | .refused r => .refused r

/-- Operations with which the two FIFO ports let clock edges pass: `WNOP` and `RNOP` (R135, R142). -/
def idlePorts (is : List Instr) : Bool := is.all fun i => i == .wnop || i == .rnop

/-- Step 1 of R190: the staged bytes into `buf`. -/
def Assembler.callDrain (c : Config) (a : Assembler) : Assembler :=
  let k := min a.loLen (c.pkt - a.w)
  { a with
    buf := Memory.copyFrom a.buf a.w a.lo k
    lo := Memory.shiftDown k a.lo
    loLen := a.loLen - k
    w := a.w + k }

/-- Steps 2 to 4 of R190 on the state step 1 left. -/
def Assembler.callChunk (c : Config) (a : Assembler) (chunk : List Byte) : Assembler :=
  let need := c.pkt - a.w
  if chunk.length < need then
    { a with buf := Memory.writeList a.buf a.w chunk, w := a.w + chunk.length, resComplete := false }
  else
    let buf := Memory.writeList a.buf a.w (chunk.take need)
    let surplus := chunk.drop need
    let fit := min surplus.length (c.loCap - a.loLen)
    { a with
      buf := buf
      pkt := buf
      lo := Memory.writeList a.lo a.loLen (surplus.take fit)
      loLen := a.loLen + fit
      loOvf := a.loOvf || decide (fit < surplus.length)
      w := 0
      resComplete := true }

/-- `FEED chunk` by the document's algorithm (R190), from a state with `fsm == IDLE`. -/
def Assembler.feedCall (c : Config) (a : Assembler) (chunk : List Byte) : Assembler :=
  let b := (a.callDrain c).callChunk c chunk
  { b with loPend := b.loLen != 0, fsm := .idle, resValid := true }

/-- The caller's re-loop `DRAIN`: `while MORE: FA_END` (spec/41_frame_assembler_ops.md R192), at most `fuel`
times. -/
def drainCalls : Nat → State → Result
  | 0, s => .next s
  | fuel + 1, s =>
    if s.fa.more s.cfg then
      match exec .faEnd s with
      | .next t => drainCalls fuel t
      | .fault r => .fault r
      | .refused r => .refused r
    else .next s

/-- The caller that feeds each chunk of a stream and drains after it (R192, R193). Each drain call takes at
least one staged byte, so `lo_len` calls are enough. -/
def feedDrained : List (List Byte) → State → Result
  | [], s => .next s
  | chunk :: chunks, s =>
    match execAll (feedOps chunk) s with
    | .next t =>
      match drainCalls t.fa.loLen t with
      | .next u => feedDrained chunks u
      | .fault r => .fault r
      | .refused r => .refused r
    | .fault r => .fault r
    | .refused r => .refused r

/-- The results of the calls since the last FA_RESET, oldest first: `none` is `Incomplete`, `some p` is
`Complete(p)` (R185). -/
def callResults : List FaEvent → List (Option (List Byte))
  | [] => []
  | .reset :: _ => []
  | .beat _ _ (some (true, p)) :: log => callResults log ++ [some p]
  | .beat _ _ (some (false, _)) :: log => callResults log ++ [none]
  | .beat _ _ none :: log => callResults log

end Sys2Proof.Machine
end

