-- ==== Sys2Proof/Safety.lean ====
section
/-! DEFINITION. What the claims are about: the invariants of the two blocks (spec/10_state.md R39, R62), FIFO
order (spec/20_memory.md R78), and states without the sticky fault (spec/60_exceptions.md R216). -/

namespace Sys2Proof.Machine

/-- The registers of `async_fifo` fit their widths and `mem` its size, in canonical form (R22, R23). -/
structure Fifo.Widths (c : Config) (f : Fifo) : Prop where
  mem_wf : Memory.wf f.wd.mem = true
  mem_within : Memory.within c.capacity f.wd.mem = true
  wbin_lt : f.wd.wbin < c.ptrMod
  wgray_lt : f.wd.wgray < c.ptrMod
  wq1_lt : f.wd.wq1Rptr < c.ptrMod
  wq2_lt : f.wd.wq2Rptr < c.ptrMod
  rbin_lt : f.rd.rbin < c.ptrMod
  rgray_lt : f.rd.rgray < c.ptrMod
  rq1_lt : f.rd.rq1Wptr < c.ptrMod
  rq2_lt : f.rd.rq2Wptr < c.ptrMod

/-- `q2`, `q1`, `p` are three successive-or-equal values of one pointer, oldest first, at most `C` apart
(R39 (iii)). -/
def trailsPtr (c : Config) (q2 q1 p : Nat) : Prop :=
  subMod c.ptrW q1 q2 + subMod c.ptrW p q1 = subMod c.ptrW p q2 ∧ subMod c.ptrW p q2 ≤ c.capacity

/-- The invariant of R39 (i) to (iii). -/
structure Fifo.Inv (c : Config) (f : Fifo) : Prop where
  widths : f.Widths c
  wgray_eq : f.wd.wgray = b2g f.wd.wbin
  rgray_eq : f.rd.rgray = b2g f.rd.rbin
  rcount_le : f.rcount c ≤ f.count c
  count_le : f.count c ≤ f.wcount c
  wcount_le : f.wcount c ≤ c.capacity
  rptr_trails : trailsPtr c (g2b c.ptrW f.wd.wq2Rptr) (g2b c.ptrW f.wd.wq1Rptr) f.rd.rbin
  wptr_trails : trailsPtr c (g2b c.ptrW f.rd.rq2Wptr) (g2b c.ptrW f.rd.rq1Wptr) f.wd.wbin

/-- R78 with R39 (iv): the bytes accepted since RESET are the bytes delivered followed by the bytes stored, and
the slots `[head, head+count)` hold the latter in order. -/
def Fifo.InOrder (c : Config) (f : Fifo) (log : List FifoEvent) : Prop :=
  acceptedBytes log = deliveredBytes log ++ f.stored c

/-- The registers of `frame_assembler` fit their ranges and arrays their sizes, in canonical form (R50 to R54). -/
structure Assembler.Widths (c : Config) (a : Assembler) : Prop where
  buf_wf : Memory.wf a.buf = true
  buf_within : Memory.within c.pkt a.buf = true
  lo_wf : Memory.wf a.lo = true
  pkt_wf : Memory.wf a.pkt = true
  pkt_within : Memory.within c.pkt a.pkt = true
  w_lt : a.w < c.pkt
  loLen_le : a.loLen ≤ c.loCap

/-- The invariants of R62 (`fsm != 0b11` holds by the type). `lo[i] == 0x00` for `i >= lo_len` is
`Memory.within`: no listed index is `lo_len` or above. -/
structure Assembler.Inv (c : Config) (a : Assembler) : Prop where
  widths : a.Widths c
  lo_blank : Memory.within a.loLen a.lo = true
  pend_iff : a.loPend = (a.loLen != 0)
  spill_w : a.fsm = .spill → a.w = 0
  fill_lo : a.fsm = .fill → a.loLen = 0
  one_empty : a.w = 0 ∨ a.loLen = 0

/-- The stream property of R62: packets completed, then `buf[0..w-1]`, then `lo[0..lo_len-1]`, are all the bytes
accepted since FA_RESET. -/
def Assembler.StreamKept (c : Config) (a : Assembler) (log : List FaEvent) : Prop :=
  completedBytes c a log ++ Memory.bytes a.buf a.w ++ Memory.bytes a.lo a.loLen = fedBytes log

/-- A state in which no byte was lost in the assembler; claims about packets take it as a premise
(spec/60_exceptions.md R216). -/
def State.unfaulted (s : State) : Prop := s.fa.loOvf = false

/-- `LeftoverOverflow`: the sticky fault bit is set (R216). -/
def State.faulted (s : State) : Prop := s.fa.loOvf = true

/-- The state with the fault bit set and nothing else changed. -/
def State.markFaulted (s : State) : State := { s with fa := { s.fa with loOvf := true } }

/-- A state in which a run may end: no line is left, and the state is not faulted, since a faulted state is never
final (R216; log 10). -/
def State.final (s : State) : Prop := s.stimulus = [] ∧ s.unfaulted

/-- Each block's invariant holds once the block has been reset (R39, R62). Before that its registers hold
anything (spec/70_reset_and_hazards.md R241). -/
structure State.Inv (s : State) : Prop where
  fifo : s.fifoReset = true → s.fifo.Inv s.cfg
  fa : s.faReset = true → s.fa.Inv s.cfg

/-- No edge of the other FIFO port coincides with the operation now executed. -/
def State.alone (s : State) : Prop := s.coincidentRead = none ∧ s.coincidentWrite = none

/-- `t` differs from `s` at most in the FIFO's registers and its event history. -/
structure State.SameButFifo (s t : State) : Prop where
  cfg : t.cfg = s.cfg
  fa : t.fa = s.fa
  fifoReset : t.fifoReset = s.fifoReset
  faReset : t.faReset = s.faReset
  stimulus : t.stimulus = s.stimulus
  faLog : t.faLog = s.faLog

/-- `t` differs from `s` at most in the assembler's registers and its event history. -/
structure State.SameButAssembler (s t : State) : Prop where
  cfg : t.cfg = s.cfg
  fifo : t.fifo = s.fifo
  fifoReset : t.fifoReset = s.fifoReset
  faReset : t.faReset = s.faReset
  stimulus : t.stimulus = s.stimulus
  fifoLog : t.fifoLog = s.fifoLog

end Sys2Proof.Machine
end

