-- ==== Sys2Proof/Certificates/Slice0/Obligations.lean ====
section
/-! DEFINITION. The statements for the provers, by the spec's numbered rules. -/

open Sys2Proof Sys2Proof.Machine

/-! ### Command words (spec/30_encoding.md) -/

/-- Decoding and encoding agree on every operation, and a word decodes to an operation exactly when the bits the
operation does not ignore are those of its encoding: no bit is dropped and none is misread (R101 to R105). -/
def Obligations.DecodeAgreesWithEncode : Prop :=
  ∀ i : Instr, i.wellFormed = true →
    decode (encode i) = i ∧
    ∀ c : CommandWord,
      decode c = i ↔ c.port = i.port ∧ c.value &&& i.careMask = (encode i).value

/-- Every word of every format selects exactly one row of the operation map, the row of the operation it decodes
to; no word is illegal (R105, R107). -/
def Obligations.EveryWordSelectsExactlyOneRow : Prop :=
  ∀ c : CommandWord,
    (opRows.filter fun r => r.selectedBy c).map OpRow.mnemonic = [(decode c).mnemonic] ∧
    decodeNumber c.port c.value = .ok (decode c)

/-- The encoding vectors of spec/95_test_vectors.md section 4, written out. -/
def Obligations.WrittenOutWordsDecode : Prop :=
  decode (.write 0x341) = .enq 0x41 ∧ decode (.write 0x25A) = .wnop ∧ decode (.write 0x141) = .wrst ∧
  decode (.read 0x3) = .deq ∧ decode (.read 0x2) = .rnop ∧ decode (.read 0x1) = .rrst ∧
  decode (.assembler 0x501) = .faByte 0x01 ∧ decode (.assembler 0x706) = .faLast 0x06 ∧
  decode (.assembler 0x699) = .faEnd ∧ decode (.assembler 0x400) = .faNop ∧
  decode (.assembler 0x3FF) = .faReset

/-! ### The step -/

/-- A step runs the operation its line decodes to, and uses the line up. Without a line the state is kept (log 1).
-/
def Obligations.StepRunsTheDecodedOperation : Prop :=
  (∀ s : State, s.stimulus = [] → step s = .next s) ∧
  ∀ (s : State) (line : Line) (rest : List Line), s.stimulus = line :: rest →
    (∀ t, exec line.instr s = .next t → step s = .next { t with stimulus := t.stimulus.tail }) ∧
    (∀ e, exec line.instr s = .fault e → step s = .fault e) ∧
    (∀ e, exec line.instr s = .refused e → step s = .refused e)

/-- In a coincident step the same joint step happens, whichever half it is read from (R146; that a line is read
from its write half is the model's choice, log 5). -/
def Obligations.CoincidentStepIsTheSameFromEitherHalf : Prop :=
  ∀ (s : State) (cw : WriteWord) (cr : ReadWord) (rest : List Line),
    s.stimulus = .wr cw cr :: rest → exec (decodeWrite cw) s = exec (decodeRead cr) s

/-- Once both blocks are reset and hold their invariants, every line but a partial reset is executed: no step
blocks (spec/00_scope.md R11), no word is refused (spec/30_encoding.md R107). A line that resets one FIFO domain
only is refused as `partialReset` (spec/40_ringbuffer_ops.md R132) in every state; that it is named so in a FIFO
that has not been reset either, where R241 would name `noReset`, is the model's choice (log 8). -/
def Obligations.ResetBlocksExecuteAllButAPartialReset : Prop :=
  ∀ (s : State) (line : Line) (rest : List Line), s.stimulus = line :: rest →
    (s.Inv → s.fifoReset = true → s.faReset = true → line.wellFormed = true →
      ∃ t, step s = .next t ∧ t.stimulus = rest) ∧
    (line.wellFormed = false → step s = .refused .partialReset)

/-- No state that meets the invariant raises the model's one fault, `cursorRange` (the model's own, log 11). -/
def Obligations.InvariantStatesNeverFault : Prop :=
  ∀ (s : State) (e : Fault), s.Inv → step s ≠ .fault e

/-! ### Reset -/

/-- The state after reset, for every parameter set: every register 0, every element 0x00, and the outputs that
follow (R63). -/
def Obligations.ResetStateIsAllZero : Prop :=
  ∀ c : Config,
    let s := State.resetWith c
    s.fifo.wd.wbin = 0 ∧ s.fifo.wd.wgray = 0 ∧ s.fifo.wd.wq1Rptr = 0 ∧ s.fifo.wd.wq2Rptr = 0 ∧
    s.fifo.rd.rbin = 0 ∧ s.fifo.rd.rgray = 0 ∧ s.fifo.rd.rq1Wptr = 0 ∧ s.fifo.rd.rq2Wptr = 0 ∧
    (∀ i, Memory.read s.fifo.wd.mem i = 0x00) ∧
    s.fifo.head c = 0 ∧ s.fifo.tail c = 0 ∧
    s.fifo.count c = 0 ∧ s.fifo.wcount c = 0 ∧ s.fifo.rcount c = 0 ∧
    s.fifo.wfull c = false ∧ s.fifo.rempty = true ∧ s.fifo.rdata c = 0x00 ∧
    s.fa.w = 0 ∧ s.fa.loLen = 0 ∧ s.fa.loPend = false ∧ s.fa.fsm = .idle ∧ fsmCode s.fa.fsm = 0b00 ∧
    s.fa.resValid = false ∧ s.fa.resComplete = false ∧ s.fa.loOvf = false ∧ s.fa.more c = false ∧
    (∀ i, Memory.read s.fa.buf i = 0x00) ∧ (∀ i, Memory.read s.fa.lo i = 0x00) ∧
    (∀ i, Memory.read s.fa.pkt i = 0x00)

/-- `WRST` and `RRST` together reset the FIFO from every state, the unreset one too, and touch nothing else; on a
reset FIFO that is the identity (R131). The event history is the model's record of R88 (log 9). -/
def Obligations.JointResetClearsTheFifo : Prop :=
  (∀ s : State, s.coincidentRead = some .reset →
    ∃ t, exec .wrst s = .next t ∧ t.fifo = Fifo.zero ∧ t.fifoReset = true ∧ t.fa = s.fa ∧ t.cfg = s.cfg ∧
      t.faReset = s.faReset ∧ t.stimulus = s.stimulus ∧ t.faLog = s.faLog ∧ t.fifoLog = .reset :: s.fifoLog) ∧
  (∀ s : State, s.coincidentWrite = some .reset →
    ∃ t, exec .rrst s = .next t ∧ t.fifo = Fifo.zero ∧ t.fifoReset = true ∧ t.fa = s.fa ∧ t.cfg = s.cfg ∧
      t.faReset = s.faReset ∧ t.stimulus = s.stimulus ∧ t.faLog = s.faLog ∧ t.fifoLog = .reset :: s.fifoLog) ∧
  (∀ i, Memory.read Fifo.zero.wd.mem i = 0x00) ∧
  Fifo.zero.wd.wbin = 0 ∧ Fifo.zero.wd.wgray = 0 ∧ Fifo.zero.wd.wq1Rptr = 0 ∧ Fifo.zero.wd.wq2Rptr = 0 ∧
  Fifo.zero.rd.rbin = 0 ∧ Fifo.zero.rd.rgray = 0 ∧ Fifo.zero.rd.rq1Wptr = 0 ∧ Fifo.zero.rd.rq2Wptr = 0 ∧
  ∀ c : Config, Fifo.zero.wfull c = false ∧ Fifo.zero.rempty = true ∧ Fifo.zero.rdata c = 0x00 ∧
    Fifo.zero.count c = 0 ∧ Fifo.zero.wcount c = 0 ∧ Fifo.zero.rcount c = 0 ∧
    Fifo.zero.head c = 0 ∧ Fifo.zero.tail c = 0

/-- One reset word without the other is `PartialReset`, in every state and with every other word (R132). That it
is named so in a FIFO that has not been reset either, where R241 would name `noReset`, is the model's choice (log
8). -/
def Obligations.PartialResetIsRefused : Prop :=
  (∀ s : State, s.coincidentRead ≠ some .reset → exec .wrst s = .refused .partialReset) ∧
  (∀ s : State, s.coincidentWrite ≠ some .reset → exec .rrst s = .refused .partialReset) ∧
  (∀ (d : Byte) (s : State), s.coincidentRead = some .reset →
    exec (.enq d) s = .refused .partialReset ∧ exec .wnop s = .refused .partialReset) ∧
  (∀ s : State, s.coincidentWrite = some .reset →
    exec .deq s = .refused .partialReset ∧ exec .rnop s = .refused .partialReset)

/-- Before its first reset a block executes nothing but its reset (R241). The two bits that say whether a block
has been reset, and `partialReset` standing before `noReset`, are the model's (log 8). -/
def Obligations.UnresetBlocksExecuteNothing : Prop :=
  (∀ (d : Byte) (s : State), s.fifoReset = false → s.coincidentRead ≠ some .reset →
    exec (.enq d) s = .refused .noReset ∧ exec .wnop s = .refused .noReset) ∧
  (∀ s : State, s.fifoReset = false → s.coincidentWrite ≠ some .reset →
    exec .deq s = .refused .noReset ∧ exec .rnop s = .refused .noReset) ∧
  (∀ (d : Byte) (s : State), s.faReset = false →
    exec .faNop s = .refused .noReset ∧ exec (.faByte d) s = .refused .noReset ∧
    exec .faEnd s = .refused .noReset ∧ exec (.faLast d) s = .refused .noReset)

/-- `FA_RESET` resets the assembler from every state and touches nothing else (R171). The event history is the
model's record of R88 (log 9). -/
def Obligations.FaResetClearsTheAssembler : Prop :=
  ∀ s : State, ∃ t, exec .faReset s = .next t ∧
    (∀ i, Memory.read t.fa.buf i = 0x00) ∧ (∀ i, Memory.read t.fa.pkt i = 0x00) ∧
    (∀ i, Memory.read t.fa.lo i = 0x00) ∧
    t.fa.w = 0 ∧ t.fa.loLen = 0 ∧ t.fa.loPend = false ∧ t.fa.fsm = .idle ∧
    t.fa.resValid = false ∧ t.fa.resComplete = false ∧ t.fa.loOvf = false ∧
    t.faReset = true ∧ t.cfg = s.cfg ∧ t.fifo = s.fifo ∧ t.fifoReset = s.fifoReset ∧
    t.stimulus = s.stimulus ∧ t.fifoLog = s.fifoLog ∧ t.faLog = .reset :: s.faLog

/-! ### The write port (spec/40_ringbuffer_ops.md) -/

/-- `ENQ d` with `wfull == 0`, alone or in a WR step: the byte is stored at `tail`, the write pointer advances,
the synchroniser moves, `wok` is returned; every other slot of `mem` reads as before (R133). The event history is
the model's record of R88 (logs 5 and 9). -/
def Obligations.EnqStoresTheByteWhenNotFull : Prop :=
  ∀ (d : Byte) (s : State), s.fifoReset = true → s.coincidentRead ≠ some .reset →
    Memory.wf s.fifo.wd.mem = true → s.fifo.wfull s.cfg = false →
    ∃ t, exec (.enq d) s = .next t ∧ s.SameButFifo t ∧
      (∀ i, Memory.read t.fifo.wd.mem i =
        if i = s.fifo.wd.wbin % 2 ^ s.cfg.addrW then d else Memory.read s.fifo.wd.mem i) ∧
      t.fifo.wd.wbin = (s.fifo.wd.wbin + 1) % 2 ^ (s.cfg.addrW + 1) ∧
      t.fifo.wd.wgray = b2g ((s.fifo.wd.wbin + 1) % 2 ^ (s.cfg.addrW + 1)) ∧
      t.fifo.wd.wq1Rptr = s.fifo.rd.rgray ∧ t.fifo.wd.wq2Rptr = s.fifo.wd.wq1Rptr ∧
      (s.coincidentRead = none → t.fifo.rd = s.fifo.rd ∧
        t.fifoLog = .write (some d) false true false :: s.fifoLog) ∧
      (∀ rinc, s.coincidentRead = some (.edge rinc) →
        t.fifoLog = s.fifo.readEvent s.cfg rinc :: .write (some d) false true false :: s.fifoLog)

/-- `ENQ d` with `wfull == 1`, alone or in a WR step: `mem`, `wbin`, `wgray` keep their values, the synchroniser
moves all the same, `wfail` is returned (R134). The event history is the model's record of R88 (logs 5 and 9). -/
def Obligations.EnqDropsTheByteWhenFull : Prop :=
  ∀ (d : Byte) (s : State), s.fifoReset = true → s.coincidentRead ≠ some .reset →
    s.fifo.wfull s.cfg = true →
    ∃ t, exec (.enq d) s = .next t ∧ s.SameButFifo t ∧
      t.fifo.wd.mem = s.fifo.wd.mem ∧ t.fifo.wd.wbin = s.fifo.wd.wbin ∧ t.fifo.wd.wgray = s.fifo.wd.wgray ∧
      t.fifo.wd.wq1Rptr = s.fifo.rd.rgray ∧ t.fifo.wd.wq2Rptr = s.fifo.wd.wq1Rptr ∧
      (s.coincidentRead = none → t.fifo.rd = s.fifo.rd ∧
        t.fifoLog = .write (some d) true false true :: s.fifoLog) ∧
      (∀ rinc, s.coincidentRead = some (.edge rinc) →
        t.fifoLog = s.fifo.readEvent s.cfg rinc :: .write (some d) true false true :: s.fifoLog)

/-- `WNOP`, whatever `wdata` carries, alone or in a WR step: the synchroniser moves and nothing else of the write
domain does (R135). The event history is the model's record of R88 (logs 5 and 9). -/
def Obligations.WnopOnlySynchronises : Prop :=
  (∀ d : Byte, decode (.write (0b10#2 ++ d)) = .wnop) ∧
  ∀ s : State, s.fifoReset = true → s.coincidentRead ≠ some .reset →
    ∃ t, exec .wnop s = .next t ∧ s.SameButFifo t ∧
      t.fifo.wd.mem = s.fifo.wd.mem ∧ t.fifo.wd.wbin = s.fifo.wd.wbin ∧ t.fifo.wd.wgray = s.fifo.wd.wgray ∧
      t.fifo.wd.wq1Rptr = s.fifo.rd.rgray ∧ t.fifo.wd.wq2Rptr = s.fifo.wd.wq1Rptr ∧
      (s.coincidentRead = none → t.fifo.rd = s.fifo.rd ∧
        t.fifoLog = .write none (s.fifo.wfull s.cfg) false false :: s.fifoLog) ∧
      (∀ rinc, s.coincidentRead = some (.edge rinc) →
        t.fifoLog = s.fifo.readEvent s.cfg rinc ::
          .write none (s.fifo.wfull s.cfg) false false :: s.fifoLog)

/-! ### The read port -/

/-- `DEQ` with `rempty == 0`, alone or in a WR step: the byte at `head` is returned with `rok`, the read pointer
advances, the synchroniser moves (R140). The event history is the model's record of R88 (logs 5 and 9). -/
def Obligations.DeqReturnsTheHeadWhenNotEmpty : Prop :=
  ∀ s : State, s.fifoReset = true → s.coincidentWrite ≠ some .reset → s.fifo.rempty = false →
    ∃ t, exec .deq s = .next t ∧ s.SameButFifo t ∧
      t.fifo.rd.rbin = (s.fifo.rd.rbin + 1) % 2 ^ (s.cfg.addrW + 1) ∧
      t.fifo.rd.rgray = b2g ((s.fifo.rd.rbin + 1) % 2 ^ (s.cfg.addrW + 1)) ∧
      t.fifo.rd.rq1Wptr = s.fifo.wd.wgray ∧ t.fifo.rd.rq2Wptr = s.fifo.rd.rq1Wptr ∧
      (s.coincidentWrite = none → t.fifo.wd = s.fifo.wd ∧
        t.fifoLog =
          .read true false (Memory.read s.fifo.wd.mem (s.fifo.rd.rbin % 2 ^ s.cfg.addrW)) true :: s.fifoLog) ∧
      (∀ request, s.coincidentWrite = some (.edge request) →
        t.fifoLog =
          .read true false (Memory.read s.fifo.wd.mem (s.fifo.rd.rbin % 2 ^ s.cfg.addrW)) true ::
            s.fifo.writeEvent s.cfg request :: s.fifoLog)

/-- `DEQ` with `rempty == 1`, alone or in a WR step: 0x00 is returned without `rok`, `rbin` and `rgray` keep their
values, the synchroniser moves all the same (R141). The event history is the model's record of R88 (logs 5 and 9).
-/
def Obligations.DeqReturnsZeroWhenEmpty : Prop :=
  ∀ s : State, s.fifoReset = true → s.coincidentWrite ≠ some .reset → s.fifo.rempty = true →
    ∃ t, exec .deq s = .next t ∧ s.SameButFifo t ∧
      t.fifo.rd.rbin = s.fifo.rd.rbin ∧ t.fifo.rd.rgray = s.fifo.rd.rgray ∧
      t.fifo.rd.rq1Wptr = s.fifo.wd.wgray ∧ t.fifo.rd.rq2Wptr = s.fifo.rd.rq1Wptr ∧
      (s.coincidentWrite = none → t.fifo.wd = s.fifo.wd ∧
        t.fifoLog = .read true true 0x00 false :: s.fifoLog) ∧
      (∀ request, s.coincidentWrite = some (.edge request) →
        t.fifoLog = .read true true 0x00 false :: s.fifo.writeEvent s.cfg request :: s.fifoLog)

/-- `RNOP`, alone or in a WR step: the synchroniser moves and nothing else of the read domain does; `rdata` shows
the head byte without consuming it (R142). The event history is the model's record of R88 (logs 5 and 9). -/
def Obligations.RnopOnlySynchronises : Prop :=
  decode (.read 0b10) = .rnop ∧
  ∀ s : State, s.fifoReset = true → s.coincidentWrite ≠ some .reset →
    ∃ t, exec .rnop s = .next t ∧ s.SameButFifo t ∧
      t.fifo.rd.rbin = s.fifo.rd.rbin ∧ t.fifo.rd.rgray = s.fifo.rd.rgray ∧
      t.fifo.rd.rq1Wptr = s.fifo.wd.wgray ∧ t.fifo.rd.rq2Wptr = s.fifo.rd.rq1Wptr ∧
      (s.coincidentWrite = none → t.fifo.wd = s.fifo.wd ∧
        t.fifoLog = .read false s.fifo.rempty (s.fifo.rdata s.cfg) false :: s.fifoLog) ∧
      (∀ request, s.coincidentWrite = some (.edge request) →
        t.fifoLog = .read false s.fifo.rempty (s.fifo.rdata s.cfg) false ::
          s.fifo.writeEvent s.cfg request :: s.fifoLog)

/-! ### Coinciding edges -/

/-- A WR step: the write domain and the outputs of the write port are those of the W step of the same word alone,
the read domain and the outputs of the read port those of the R step of the same word alone, both from the state
before; and it is neither "W then R" nor "R then W" (R146). The event history is the model's record of R88 (logs 5
and 9). -/
def Obligations.CoincidentHalvesSeeTheStateBefore : Prop :=
  (∀ (s : State) (cw : WriteWord) (cr : ReadWord) (rest : List Line),
    s.stimulus = .wr cw cr :: rest → s.fifoReset = true → cw.getLsbD 9 = true → cr.getLsbD 1 = true →
    ∃ t tw tr, step s = .next t ∧
      step { s with stimulus := .w cw :: rest } = .next tw ∧
      step { s with stimulus := .r cr :: rest } = .next tr ∧
      t.fifo.wd = tw.fifo.wd ∧ tw.fifo.rd = s.fifo.rd ∧
      t.fifo.rd = tr.fifo.rd ∧ tr.fifo.wd = s.fifo.wd ∧ s.SameButFifo { t with stimulus := s.stimulus } ∧
      ∃ we re, tw.fifoLog = we :: s.fifoLog ∧ tr.fifoLog = re :: s.fifoLog ∧
        t.fifoLog = re :: we :: s.fifoLog) ∧
  (∃ (s : State) (cw : WriteWord) (cr : ReadWord), s.Inv ∧ s.fifoReset = true ∧
    ∃ t twr trw,
      step { s with stimulus := [.wr cw cr] } = .next t ∧
      Host.Core.run core 2 { s with stimulus := [.w cw, .r cr] } = .next twr ∧
      Host.Core.run core 2 { s with stimulus := [.r cr, .w cw] } = .next trw ∧
      t.fifo ≠ twr.fifo ∧ t.fifo ≠ trw.fifo)

/-! ### Pointers, grey code and flags (spec/00_scope.md, spec/10_state.md) -/

/-- The grey code of R10: `b2g` and `g2b` bit by bit, mutually inverse on every width, one bit apart at every
increment and at the wrap, with the sequences of three and two bits. -/
def Obligations.GreyCodeIsInverseAndOneBitApart : Prop :=
  (∀ b, b2g b = b ^^^ (b >>> 1)) ∧
  (∀ k g i, g < 2 ^ k → i < k →
    (g2b k g).testBit i = (List.range (k - i)).foldl (fun acc j => acc ^^ g.testBit (i + j)) false) ∧
  (∀ k b, b < 2 ^ k → b2g b < 2 ^ k ∧ g2b k (b2g b) = b) ∧
  (∀ k g, g < 2 ^ k → g2b k g < 2 ^ k ∧ b2g (g2b k g) = g) ∧
  (∀ k b, 1 ≤ k → b < 2 ^ k → ∃ i < k, b2g b ^^^ b2g (addMod k b 1) = 2 ^ i) ∧
  (List.range 8).map b2g = [0b000, 0b001, 0b011, 0b010, 0b110, 0b111, 0b101, 0b100] ∧
  (List.range 4).map b2g = [0b00, 0b01, 0b11, 0b10]

/-- Pointer increments wrap `2^(N+1) - 1` to 0, and the storage index wraps `C - 1` to 0 with them (R136). -/
def Obligations.PointersWrapAndSlotsFollow : Prop :=
  ∀ (c : Config) (p : Nat), p < 2 ^ (c.addrW + 1) →
    nextPtr c p = (if p = 2 ^ (c.addrW + 1) - 1 then 0 else p + 1) ∧
    slot c p < 2 ^ c.addrW ∧
    slot c (nextPtr c p) = (if slot c p = 2 ^ c.addrW - 1 then 0 else slot c p + 1)

/-- `wfull` is `wcount == C` and `rempty` is `rcount == 0` (R40, R41). -/
def Obligations.FlagsAreTheDomainsCounts : Prop :=
  ∀ (c : Config) (f : Fifo), f.Inv c →
    (f.wfull c = true ↔ f.wcount c = 2 ^ c.addrW) ∧ (f.rempty = true ↔ f.rcount c = 0)

/-- An enqueue is never accepted at `count == C` and a dequeue never succeeds at `count == 0`; in a settled state
the three counts agree, so that there the flags are exact (R39, R134, R141). -/
def Obligations.FlagsAreSafeAndExactWhenSettled : Prop :=
  ∀ (c : Config) (f : Fifo), f.Inv c →
    (f.wfull c = false → f.count c < 2 ^ c.addrW) ∧ (f.rempty = false → 0 < f.count c) ∧
    (f.settled = true → f.wcount c = f.count c ∧ f.rcount c = f.count c)

/-- An accepted `ENQ` alone raises `count` by 1, a successful `DEQ` alone lowers it by 1, and a failed or idle
operation leaves it (R36, R133 to R142). -/
def Obligations.CountFollowsTheOperations : Prop :=
  ∀ (s t : State), s.Inv → s.fifoReset = true → s.alone →
    (∀ d, exec (.enq d) s = .next t →
      t.fifo.count t.cfg = s.fifo.count s.cfg + (if s.fifo.wfull s.cfg then 0 else 1)) ∧
    (exec .deq s = .next t →
      t.fifo.count t.cfg + (if s.fifo.rempty then 0 else 1) = s.fifo.count s.cfg) ∧
    (exec .wnop s = .next t → t.fifo.count t.cfg = s.fifo.count s.cfg) ∧
    (exec .rnop s = .next t → t.fifo.count t.cfg = s.fifo.count s.cfg)

/-- An accepted write and the read behind `rdata` never name the same element of `mem`: the write is accepted at a
slot outside `[head, head+count)`, the read is of one inside it (R81). -/
def Obligations.AcceptedWriteAndReadUseDifferentSlots : Prop :=
  ∀ (c : Config) (f : Fifo), f.Inv c →
    (f.wfull c = false → f.wcount c < c.capacity ∧ f.count c < c.capacity ∧
      ∀ j, j < f.count c → (f.head c + j) % c.capacity ≠ f.tail c) ∧
    (f.rempty = false → 0 < f.rcount c ∧ 0 < f.count c ∧
      ∃ j, j < f.count c ∧ f.head c = (f.head c + j) % c.capacity) ∧
    (f.wfull c = false → f.rempty = false → f.tail c ≠ f.head c)

/-- `wfull` rises only in a step that accepts an enqueue, and `rempty` only in a step that dequeues: a port's view
moves toward full or toward empty by its own operation alone (R82 (d)). Resets apart, which empty the FIFO. The
event history is the model's record of R88 (log 9). -/
def Obligations.OwnFlagRisesOnlyByOwnOperation : Prop :=
  ∀ s t : State, s.Inv → s.fifoReset = true → step s = .next t →
    (s.fifo.wfull s.cfg = false → t.fifo.wfull t.cfg = true →
      ∃ d, acceptedBytes t.fifoLog = acceptedBytes s.fifoLog ++ [d]) ∧
    (s.fifo.rempty = false → t.fifo.rempty = true → t.fifoLog ≠ .reset :: s.fifoLog →
      ∃ d, deliveredBytes t.fifoLog = deliveredBytes s.fifoLog ++ [d])

/-! ### Ordering between the domains (spec/20_memory.md) -/

/-- A byte enqueued into an empty FIFO is invisible after the first R step that follows and visible after the
second, whatever the read port asks for; the third R step dequeues it (R79). The event history is the model's
record of R88 (log 9). -/
def Obligations.EnqueueIsVisibleAfterTwoReadSteps : Prop :=
  ∀ (d : Byte) (s : State) (r₁ r₂ : Instr), s.Inv → s.fifoReset = true → s.alone →
    s.fifo.count s.cfg = 0 → s.fifo.wfull s.cfg = false →
    (r₁ = .rnop ∨ r₁ = .deq) → (r₂ = .rnop ∨ r₂ = .deq) →
    ∃ t u v x, exec (.enq d) s = .next t ∧ exec r₁ t = .next u ∧ exec r₂ u = .next v ∧ exec .deq v = .next x ∧
      t.fifo.rempty = true ∧ u.fifo.rempty = true ∧
      v.fifo.rempty = false ∧ v.fifo.rdata v.cfg = d ∧
      x.fifoLog = .read true false d true :: v.fifoLog

/-- A slot freed by a dequeue is writable after two W steps: always after two idle ones; and when the writer's
view was up to date and full, not before the second, whatever the write port asks for (R80). The event history is
the model's record of R88 (log 9). -/
def Obligations.DequeueIsVisibleAfterTwoWriteSteps : Prop :=
  ∀ s : State, s.Inv → s.fifoReset = true → s.alone → s.fifo.wfull s.cfg = true → s.fifo.rempty = false →
    (∃ t u v, exec .deq s = .next t ∧ exec .wnop t = .next u ∧ exec .wnop u = .next v ∧
      v.fifo.wfull v.cfg = false) ∧
    (s.fifo.wd.wq1Rptr = s.fifo.rd.rgray → s.fifo.wd.wq2Rptr = s.fifo.rd.rgray →
      ∀ (w₁ w₂ : Instr) (d e : Byte), (w₁ = .wnop ∨ w₁ = .enq d) → (w₂ = .wnop ∨ w₂ = .enq d) →
        ∃ t u v x, exec .deq s = .next t ∧ exec w₁ t = .next u ∧ exec w₂ u = .next v ∧ exec (.enq e) v = .next x ∧
          t.fifo.wfull t.cfg = true ∧ u.fifo.wfull u.cfg = true ∧
          v.fifo.wfull v.cfg = false ∧ v.fifo.wd.mem = s.fifo.wd.mem ∧
          x.fifoLog = .write (some e) false true false :: v.fifoLog)

/-- `ENQ_DROP_OLDEST d` (R148). On a FIFO that accepts the byte it is the `ENQ` alone. On one that refuses it, it
keeps the most recent bytes: the oldest one is delivered to the read port, `d` is stored behind the others. Any
number of idle operations of both ports may pass before and after the `DEQ`, in any order, with at least two W
steps after it, and with two R steps before it if the reader sees no byte yet. The form of the pattern is the
model's (log 17), the event history its record of R88 (log 9). -/
def Obligations.DropOldestKeepsTheMostRecentBytes : Prop :=
  ∀ (d : Byte) (before after : List Instr) (s : State), s.Inv → s.fifoReset = true → s.alone →
    (s.fifo.wfull s.cfg = false →
      ∃ t, enqDropOldest d before after s = .next t ∧ s.SameButFifo t ∧
        t.fifo.stored t.cfg = s.fifo.stored s.cfg ++ [d] ∧
        deliveredBytes t.fifoLog = deliveredBytes s.fifoLog ∧
        acceptedBytes t.fifoLog = acceptedBytes s.fifoLog ++ [d]) ∧
    (s.fifo.wfull s.cfg = true → idlePorts before = true → idlePorts after = true → 2 ≤ after.count .wnop →
      (s.fifo.rempty = false ∨ (0 < s.fifo.count s.cfg ∧ 2 ≤ before.count .rnop)) →
      ∃ t oldest rest, enqDropOldest d before after s = .next t ∧ s.SameButFifo t ∧
        s.fifo.stored s.cfg = oldest :: rest ∧ t.fifo.stored t.cfg = rest ++ [d] ∧
        deliveredBytes t.fifoLog = deliveredBytes s.fifoLog ++ [oldest] ∧
        acceptedBytes t.fifoLog = acceptedBytes s.fifoLog ++ [d])

/-- Nothing but `wgray` and `mem` crosses into the read domain, and nothing but `rgray` into the write domain: two
states that agree on these and on a domain's own registers agree on that domain after its step, and on what the
step returned (R76, R231). The event history is the model's record of R88 (log 9). -/
def Obligations.OnlyGreyPointersCrossTheDomains : Prop :=
  ∀ s s' t t' : State, s.cfg = s'.cfg → s.alone → s'.alone →
    (s.fifo.rd = s'.fifo.rd → s.fifo.wd.wgray = s'.fifo.wd.wgray → s.fifo.wd.mem = s'.fifo.wd.mem →
      ∀ i : Instr, (i = .rnop ∨ i = .deq) → exec i s = .next t → exec i s' = .next t' →
        t.fifo.rd = t'.fifo.rd ∧ t.fifoLog.head? = t'.fifoLog.head?) ∧
    (s.fifo.wd = s'.fifo.wd → s.fifo.rd.rgray = s'.fifo.rd.rgray →
      ∀ (i : Instr) (d : Byte), (i = .wnop ∨ i = .enq d) → exec i s = .next t → exec i s' = .next t' →
        t.fifo.wd = t'.fifo.wd ∧ t.fifoLog.head? = t'.fifoLog.head?)

/-! ### Invariants -/

/-- Every step keeps the invariants of both blocks (R39 (i) to (iii), R62), the canonical form of every storage
array among them, from every state that meets them. -/
def Obligations.EveryStepKeepsTheInvariants : Prop :=
  ∀ s t : State, s.Inv → step s = .next t → t.Inv

/-- Every step keeps FIFO order: the bytes accepted since RESET are, in order, the bytes delivered and then the
bytes in the slots `[head, head+count)` (R78, R39 (iv)). The event history is the model's record of R88 (log 9).
-/
def Obligations.EveryStepKeepsFifoOrder : Prop :=
  ∀ s t : State, s.Inv → (s.fifoReset = true → s.fifo.InOrder s.cfg s.fifoLog) → step s = .next t →
    (t.fifoReset = true → t.fifo.InOrder t.cfg t.fifoLog)

/-- Every step keeps the stream: no byte is dropped, duplicated or reordered by the assembler as long as its fault
bit stays clear (R62). The event history is the model's record of R88 (log 9). -/
def Obligations.EveryStepKeepsTheStream : Prop :=
  ∀ s t : State, s.Inv →
    (s.faReset = true → s.unfaulted → s.fa.StreamKept s.cfg s.faLog) → step s = .next t →
    (t.faReset = true → t.unfaulted → t.fa.StreamKept t.cfg t.faLog)

/-- After every step from a state in FIFO order, the delivered bytes are a prefix of the accepted ones, as many
fewer as `count` says (R78). The event history is the model's record of R88 (log 9). -/
def Obligations.DeliveredIsAPrefixOfAccepted : Prop :=
  ∀ s t : State, s.Inv → s.fifoReset = true → s.fifo.InOrder s.cfg s.fifoLog → step s = .next t →
    deliveredBytes t.fifoLog <+: acceptedBytes t.fifoLog ∧
    (acceptedBytes t.fifoLog).length = (deliveredBytes t.fifoLog).length + t.fifo.count t.cfg

/-- The reset state of every parameter set meets every invariant. The event history is the model's record of R88
(log 9). -/
def Obligations.ResetMeetsTheInvariants : Prop :=
  ∀ c : Config,
    let s := State.resetWith c
    s.Inv ∧ s.fifo.InOrder c s.fifoLog ∧ s.fa.StreamKept c s.faLog ∧ s.unfaulted ∧ s.fifo.settled = true

/-- The widths of R6 hold every value the cursor registers take (R52, R54). -/
def Obligations.CursorsFitTheirWidths : Prop :=
  ∀ (c : Config) (a : Assembler), a.Widths c → a.w < 2 ^ c.cursorW ∧ a.loLen < 2 ^ c.loLenW

/-! ### The assembler's operations (spec/41_frame_assembler_ops.md) -/

/-- `FA_NOP`, whatever its data pins carry: `res_valid` falls, every other register keeps its value (R180). That
it leaves no event in the history is the model's choice (log 9). The claim takes `lo_ovf == 0` as a premise
(R216). -/
def Obligations.FaNopOnlyClearsResValid : Prop :=
  (∀ d : Byte, decode (.assembler (0b100#3 ++ d)) = .faNop) ∧
  ∀ s : State, s.faReset = true → s.unfaulted →
    exec .faNop s = .next { s with fa := { s.fa with resValid := false } }

/-- Phase A: in IDLE the staged bytes, as many as fit, move behind the cursor, the others move down and the top is
filled with 0x00; if that completes the packet it is handed out, else the state is FILL. In another state nothing
happens (R181). The claim takes `lo_ovf == 0` as a premise (R216). -/
def Obligations.CallStartDrainsTheLeftoverBytes : Prop :=
  ∀ (c : Config) (a : Assembler), a.loOvf = false → a.Widths c → Memory.within a.loLen a.lo = true →
    (a.fsm ≠ .idle → a.phaseA c = a) ∧
    (a.fsm = .idle →
      let k := min a.loLen (c.pkt - a.w)
      let b := a.phaseA c
      (∀ i, Memory.read b.buf i =
        if a.w ≤ i ∧ i < a.w + k then Memory.read a.lo (i - a.w) else Memory.read a.buf i) ∧
      (∀ i, Memory.read b.lo i = if i + k < c.loCap then Memory.read a.lo (i + k) else 0x00) ∧
      b.loLen = a.loLen - k ∧ b.loOvf = false ∧
      (a.w + k = c.pkt → b.pkt = b.buf ∧ b.w = 0 ∧ b.fsm = .spill) ∧
      (a.w + k ≠ c.pkt → b.pkt = a.pkt ∧ b.w = a.w + k ∧ b.fsm = .fill ∧ b.loLen = 0))

/-- In the first beat of a call the drain comes before the byte and the end: the beat is the same as in the state
phase A leaves (R182). The claim takes `lo_ovf == 0` as a premise (R216). -/
def Obligations.DrainComesFirstInABeat : Prop :=
  ∀ (d : Byte) (s : State), s.faReset = true → s.unfaulted → s.fa.Widths s.cfg →
    let drained : State := { s with fa := s.fa.phaseA s.cfg }
    exec (.faByte d) s = exec (.faByte d) drained ∧ exec .faEnd s = exec .faEnd drained ∧
    exec (.faLast d) s = exec (.faLast d) drained ∧ (s.fa.phaseA s.cfg).fsm ≠ .idle ∧
    (s.fa.phaseA s.cfg).Widths s.cfg ∧ drained.unfaulted

/-- `FA_BYTE d` in FILL: the byte is written at the cursor; the `P`-th byte completes the packet, which is handed
out whole, and moves to SPILL. Every other byte of `buf`, all of `lo`, and `pkt` unless completed, keep their
values (R183). The event history is the model's record of R88 (log 9). The claim takes `lo_ovf == 0` as a premise
(R216). -/
def Obligations.FaByteFillsThePacket : Prop :=
  ∀ (d : Byte) (s : State), s.faReset = true → s.unfaulted → s.fa.Widths s.cfg → s.fa.fsm = .fill →
    ∃ t, exec (.faByte d) s = .next t ∧ s.SameButAssembler t ∧
      (∀ i, Memory.read t.fa.buf i = if i = s.fa.w then d else Memory.read s.fa.buf i) ∧
      t.fa.lo = s.fa.lo ∧ t.fa.loLen = s.fa.loLen ∧ t.unfaulted ∧
      t.fa.resComplete = s.fa.resComplete ∧ t.fa.resValid = false ∧ t.fa.loPend = (s.fa.loLen != 0) ∧
      (s.fa.w + 1 = s.cfg.pkt → t.fa.pkt = t.fa.buf ∧ t.fa.w = 0 ∧ t.fa.fsm = .spill) ∧
      (s.fa.w + 1 ≠ s.cfg.pkt → t.fa.pkt = s.fa.pkt ∧ t.fa.w = s.fa.w + 1 ∧ t.fa.fsm = .fill) ∧
      t.faLog = .beat false (some d) none :: s.faLog

/-- `FA_BYTE d` in SPILL: the byte is staged behind the others, or discarded with `lo_ovf` set when `lo` is full;
`buf`, `w`, `pkt` keep their values (R184). The event history is the model's record of R88 (log 9). The claim
takes `lo_ovf == 0` as a premise (R216). -/
def Obligations.FaByteStagesTheSurplus : Prop :=
  ∀ (d : Byte) (s : State), s.faReset = true → s.unfaulted → s.fa.Widths s.cfg → s.fa.fsm = .spill →
    ∃ t, exec (.faByte d) s = .next t ∧ s.SameButAssembler t ∧
      t.fa.buf = s.fa.buf ∧ t.fa.w = s.fa.w ∧ t.fa.pkt = s.fa.pkt ∧ t.fa.fsm = .spill ∧
      t.fa.resComplete = s.fa.resComplete ∧ t.fa.resValid = false ∧ t.fa.loPend = (t.fa.loLen != 0) ∧
      (s.fa.loLen < s.cfg.loCap →
        (∀ i, Memory.read t.fa.lo i = if i = s.fa.loLen then d else Memory.read s.fa.lo i) ∧
        t.fa.loLen = s.fa.loLen + 1 ∧ t.unfaulted) ∧
      (s.fa.loLen = s.cfg.loCap →
        t.fa.lo = s.fa.lo ∧ t.fa.loLen = s.fa.loLen ∧ t.faulted) ∧
      t.faLog = .beat false (some d) none :: s.faLog

/-- `FA_LAST d` is the beat of `FA_BYTE d` with the call ended in it: `res_valid` rises, `res_complete` says
whether the state reached is SPILL, the state is IDLE (R185, R187). The event history is the model's record of R88
(log 9). The claim takes `lo_ovf == 0` as a premise (R216). -/
def Obligations.FaLastIsTheByteAndTheEnd : Prop :=
  ∀ (d : Byte) (s : State), s.faReset = true → s.unfaulted → s.fa.Widths s.cfg →
    ∃ t u, exec (.faLast d) s = .next t ∧ exec (.faByte d) s = .next u ∧ s.SameButAssembler t ∧
      t.fa = { u.fa with resValid := true, resComplete := u.fa.fsm == .spill, fsm := .idle } ∧
      t.faLog = .beat true (some d) (some (t.fa.resComplete, Memory.bytes t.fa.pkt s.cfg.pkt)) :: s.faLog

/-- `FA_END` inside a call closes it: nothing moves; `res_complete` says whether a packet was completed (R185,
R188). The event history is the model's record of R88 (log 9). The claim takes `lo_ovf == 0` as a premise (R216).
-/
def Obligations.FaEndClosesAnOpenCall : Prop :=
  ∀ s : State, s.faReset = true → s.unfaulted → s.fa.Widths s.cfg → s.fa.fsm ≠ .idle →
    ∃ t, exec .faEnd s = .next t ∧ s.SameButAssembler t ∧ t.unfaulted ∧
      t.fa = { s.fa with
        loPend := s.fa.loLen != 0, resValid := true, resComplete := s.fa.fsm == .spill, fsm := .idle } ∧
      t.faLog = .beat true none (some (t.fa.resComplete, Memory.bytes t.fa.pkt s.cfg.pkt)) :: s.faLog

/-- `FA_END` as a call of its own, the empty chunk: `Complete` iff `w + lo_len >= P`; on `Complete` the packet is
the bytes of `buf` before the cursor and then the oldest staged bytes; on `Incomplete` the staged bytes have moved
into `buf` (R188). The claim takes `lo_ovf == 0` as a premise (R216). -/
def Obligations.EmptyCallCompletesIffAPacketIsStaged : Prop :=
  ∀ s : State, s.faReset = true → s.unfaulted → s.fa.Widths s.cfg → s.fa.fsm = .idle →
    ∃ t, exec .faEnd s = .next t ∧ s.SameButAssembler t ∧ t.fa.resValid = true ∧ t.fa.fsm = .idle ∧
      t.unfaulted ∧
      (t.fa.resComplete = true ↔ s.cfg.pkt ≤ s.fa.w + s.fa.loLen) ∧
      (s.cfg.pkt ≤ s.fa.w + s.fa.loLen →
        Memory.bytes t.fa.pkt s.cfg.pkt =
          Memory.bytes s.fa.buf s.fa.w ++ Memory.bytes s.fa.lo (s.cfg.pkt - s.fa.w) ∧
        t.fa.w = 0 ∧ t.fa.loLen = s.fa.w + s.fa.loLen - s.cfg.pkt) ∧
      (s.fa.w + s.fa.loLen < s.cfg.pkt →
        Memory.bytes t.fa.buf (s.fa.w + s.fa.loLen) =
          Memory.bytes s.fa.buf s.fa.w ++ Memory.bytes s.fa.lo s.fa.loLen ∧
        t.fa.pkt = s.fa.pkt ∧ t.fa.w = s.fa.w + s.fa.loLen ∧ t.fa.loLen = 0 ∧ t.fa.loPend = false)

/-- The complete transition table of `fsm` (R195): `completes` is `w` reaching `P` in phase A or in the FILL byte
of the beat. The claim takes `lo_ovf == 0` as a premise, but for FA_RESET (R216). -/
def Obligations.FsmFollowsTheTransitionTable : Prop :=
  (∀ s : State, ∃ t, exec .faReset s = .next t ∧ t.fa.fsm = .idle) ∧
  ∀ (d : Byte) (s : State), s.faReset = true → s.unfaulted → s.fa.Inv s.cfg →
    (∃ t, exec .faNop s = .next t ∧ t.fa.fsm = s.fa.fsm) ∧
    (∃ t, exec (.faByte d) s = .next t ∧
      (s.fa.fsm = .idle → t.fa.fsm = if s.cfg.pkt ≤ s.fa.w + s.fa.loLen + 1 then .spill else .fill) ∧
      (s.fa.fsm = .fill → t.fa.fsm = if s.cfg.pkt ≤ s.fa.w + 1 then .spill else .fill) ∧
      (s.fa.fsm = .spill → t.fa.fsm = .spill)) ∧
    (∃ t u, exec (.faLast d) s = .next t ∧ exec (.faByte d) s = .next u ∧ t.fa.fsm = .idle ∧
      (t.fa.resComplete = true ↔ u.fa.fsm = .spill)) ∧
    (∃ t, exec .faEnd s = .next t ∧ t.fa.fsm = .idle ∧
      (t.fa.resComplete = true ↔
        s.fa.fsm = .spill ∨ (s.fa.fsm = .idle ∧ s.cfg.pkt ≤ s.fa.w + s.fa.loLen)))

/-- After every beat the leftover-pending flag says whether bytes are staged; its reset value is 0 (R55). The
claim takes `lo_ovf == 0` as a premise, but for FA_RESET (R216). -/
def Obligations.PendingFlagMeansBytesAreStaged : Prop :=
  ∀ (d : Byte) (s t : State),
    (s.unfaulted → (exec (.faByte d) s = .next t ∨ exec .faEnd s = .next t ∨ exec (.faLast d) s = .next t) →
      t.fa.loPend = (t.fa.loLen != 0)) ∧
    (exec .faReset s = .next t → t.fa.loPend = false)

/-- `res_valid` is 1 after exactly the steps that end a call; `res_complete` changes in those steps and in
FA_RESET only (R58). The claim takes `lo_ovf == 0` as a premise, but for FA_RESET (R216). -/
def Obligations.ResultRegistersFollowTheCallEnd : Prop :=
  ∀ (i : Instr) (s t : State), i.port = .assembler → exec i s = .next t →
    (s.unfaulted →
      (t.fa.resValid = true ↔ i = .faEnd ∨ ∃ d, i = .faLast d) ∧
      (i = .faNop ∨ (∃ d, i = .faByte d) → t.fa.resComplete = s.fa.resComplete)) ∧
    (i = .faReset → t.fa.resValid = false ∧ t.fa.resComplete = false)

/-- `lo_ovf` rises exactly in a beat that must stage a byte while `lo_len == L`, whose byte is discarded, and
falls only in FA_RESET (R59, R216). -/
def Obligations.OverflowFlagIsStickyAndExact : Prop :=
  ∀ (i : Instr) (s t : State), i.port = .assembler → exec i s = .next t →
    (i = .faReset → t.fa.loOvf = false) ∧
    (i ≠ .faReset →
      (t.fa.loOvf = true ↔ s.fa.loOvf = true ∨
        ((∃ d, i = .faByte d ∨ i = .faLast d) ∧
          (s.fa.phaseA s.cfg).fsm = .spill ∧ s.cfg.loCap ≤ (s.fa.phaseA s.cfg).loLen))) ∧
    (s.fa.loOvf = false → t.fa.loOvf = true →
      t.fa.lo = (s.fa.phaseA s.cfg).lo ∧ t.fa.loLen = (s.fa.phaseA s.cfg).loLen)

/-- A faulted state is never final (R216): however many steps run, as long as none of them is an FA_RESET the
state stays faulted, so no run ends in it (`State.final`, log 10). FA_RESET is executed and clears the fault. -/
def Obligations.FaultedStatesAreNeverFinal : Prop :=
  (∀ (k : Nat) (s t : State), s.faulted → Host.Core.run core k s = .next t →
    (∀ line ∈ s.stimulus.take k, line.instr ≠ .faReset) → t.faulted ∧ ¬ t.final) ∧
  (∀ (s : State) (line : Line) (rest : List Line), s.stimulus = line :: rest → line.instr = .faReset →
    ∃ t, step s = .next t ∧ t.unfaulted ∧ (t.final ↔ rest = []))

/-- After an overflow the steps still run (R216): every operation but FA_RESET answers from a faulted state what
it answers from the same state without the fault, with the fault bit kept; FA_RESET answers the same from both. So
what the other statements say under the premise `lo_ovf == 0` is what the registers do in a faulted state too,
though no claim about a packet may rest on it (log 10). -/
def Obligations.FaultedStatesRunOnAlike : Prop :=
  (∀ (i : Instr) (s : State), i ≠ .faReset →
    (∀ t, exec i s = .next t → exec i s.markFaulted = .next t.markFaulted) ∧
    (∀ e, exec i s = .fault e → exec i s.markFaulted = .fault e) ∧
    (∀ e, exec i s = .refused e → exec i s.markFaulted = .refused e)) ∧
  ∀ s : State, exec .faReset s.markFaulted = exec .faReset s

/-- The packet on its output bus: bits `8i+7:8i` are `pkt[i]`, and `pkt[0]` is the byte that entered first (R57,
R74). The beat that completes a packet in FILL puts the bytes of `buf` there in index order and its own byte on
top. Both clauses take `lo_ovf == 0` as a premise (R216). -/
def Obligations.PacketBusCarriesTheFirstByteLowest : Prop :=
  (∀ (c : Config) (a : Assembler), a.loOvf = false → (a.pins c).pktBus < 2 ^ (8 * c.pkt) ∧
    ∀ i, i < c.pkt → (a.pins c).pktBus / 2 ^ (8 * i) % 2 ^ 8 = (Memory.read a.pkt i).toNat) ∧
  ∀ (d : Byte) (s : State), s.faReset = true → s.fa.Widths s.cfg → s.unfaulted → s.fa.fsm = .fill →
    s.fa.w + 1 = s.cfg.pkt →
    ∃ t, exec (.faByte d) s = .next t ∧ t.unfaulted ∧
      ∀ i, i < s.cfg.pkt → (t.fa.pins t.cfg).pktBus / 2 ^ (8 * i) % 2 ^ 8 =
        (if i = s.fa.w then d else Memory.read s.fa.buf i).toNat

/-- `pkt` changes only in FA_RESET and in a beat that completes a packet, and then it is the whole of `buf`; once
a call has completed a packet, no later beat of it changes `pkt` (R57, R185). The claim takes `lo_ovf == 0` as a
premise (R216). -/
def Obligations.PacketIsHeldUntilTheNextCompletion : Prop :=
  ∀ (i : Instr) (s t : State), s.unfaulted → s.fa.Inv s.cfg → i.port = .assembler → i ≠ .faReset →
    exec i s = .next t →
    (t.fa.pkt = s.fa.pkt ∨ (t.fa.pkt = t.fa.buf ∧ t.fa.w = 0)) ∧
    (s.fa.fsm = .spill → t.fa.pkt = s.fa.pkt)

/-! ### Calls -/

/-- The beats of a call and the document's algorithm agree on every chunk: either ending, with `FA_NOP` interposed
anywhere before the end, from every state between calls that meets the invariant (R191). The claim takes `lo_ovf
== 0` as a premise (R216). -/
def Obligations.BeatsAgreeWithTheWholeCall : Prop :=
  ∀ (chunk : List Byte) (ops : List Instr) (s : State),
    s.faReset = true → s.unfaulted → s.fa.Inv s.cfg → s.fa.fsm = .idle →
    (ops.filter (fun i => i != .faNop) = feedOps chunk ∨
      ops.filter (fun i => i != .faNop) = feedOpsEnd chunk) →
    ops.getLast? ≠ some .faNop →
    ∃ t, execAll ops s = .next t ∧ t.fa = s.fa.feedCall s.cfg chunk ∧ s.SameButAssembler t

/-- `more` is `lo_len >= P`; while it is 1 between calls, an empty call returns `Complete` and takes `P` bytes off
the leftover buffer (R60, R192). The claim takes `lo_ovf == 0` as a premise (R216). -/
def Obligations.MoreMeansAnEmptyCallCompletes : Prop :=
  ∀ s : State, s.unfaulted → (s.fa.more s.cfg = true ↔ s.cfg.pkt ≤ s.fa.loLen) ∧
    (s.faReset = true → s.fa.Inv s.cfg → s.fa.fsm = .idle → s.fa.more s.cfg = true →
      ∃ t, exec .faEnd s = .next t ∧ t.fa.resValid = true ∧ t.fa.resComplete = true ∧
        t.fa.loLen = s.fa.loLen - s.cfg.pkt ∧
        t.unfaulted ∧ Memory.bytes t.fa.pkt s.cfg.pkt = Memory.bytes s.fa.lo s.cfg.pkt)

/-- Feeding `P + m` bytes in one call at a packet boundary, `1 <= m < P`: one `Complete` with the first `P` bytes,
and exactly the other `m` bytes staged (R193, leftover correctness), while `lo_ovf == 0` (R216). The event history
is the model's record of R88 (log 9). -/
def Obligations.SurplusOfOneCallIsStaged : Prop :=
  ∀ (chunk : List Byte) (s : State), s.faReset = true → s.fa.Inv s.cfg → s.fa.fsm = .idle →
    s.unfaulted → s.fa.w = 0 → s.fa.loLen = 0 → s.cfg.pkt < chunk.length → chunk.length < 2 * s.cfg.pkt →
    ∃ t, execAll (feedOps chunk) s = .next t ∧ t.fa.resValid = true ∧ t.fa.resComplete = true ∧
      callResults t.faLog = callResults s.faLog ++ [some (chunk.take s.cfg.pkt)] ∧
      Memory.bytes t.fa.lo t.fa.loLen = chunk.drop s.cfg.pkt ∧ t.fa.w = 0 ∧ t.unfaulted

/-- A caller that drains before the call and whose chunk is at most `L` bytes does not overflow (R192). The claim
takes `lo_ovf == 0` as a premise (R216). -/
def Obligations.DrainedCallerNeverOverflows : Prop :=
  ∀ (chunk : List Byte) (s : State), s.faReset = true → s.unfaulted → s.fa.Inv s.cfg → s.fa.fsm = .idle →
    s.fa.more s.cfg = false → chunk.length ≤ s.cfg.loCap →
    ∃ t, execAll (feedOps chunk) s = .next t ∧ t.unfaulted

/-- Framing exactness (R193): a stream of `k * P` bytes, in chunks of any length, each call followed by DRAIN,
gives exactly `k` `Complete` results, the consecutive `P`-byte pieces of the stream, and leaves nothing behind,
provided `lo_ovf` stays 0; and it stays 0 if no chunk is longer than `L`. The event history is the model's record
of R88 (log 9). -/
def Obligations.DrainedStreamIsFramedExactly : Prop :=
  ∀ (chunks : List (List Byte)) (k : Nat) (s : State), s.faReset = true → s.fa = Assembler.zero →
    callResults s.faLog = [] → chunks.flatten.length = k * s.cfg.pkt →
    ∃ t packets, feedDrained chunks s = .next t ∧ (callResults t.faLog).filterMap id = packets ∧
      (t.fa.loOvf = false →
        packets.length = k ∧ (∀ p ∈ packets, p.length = s.cfg.pkt) ∧ packets.flatten = chunks.flatten ∧
        t.fa.w = 0 ∧ t.fa.loLen = 0) ∧
      ((∀ chunk ∈ chunks, chunk.length ≤ s.cfg.loCap) → t.fa.loOvf = false)

/-! ### What operations leave alone -/

/-- The two blocks share no state: an operation of the FIFO's ports leaves the assembler as it was, an operation
of the assembler leaves the FIFO as it was; the parameters never change and a block once reset stays so (R6,
R231). The event history is the model's record of R88 (log 9). -/
def Obligations.BlocksLeaveEachOtherAlone : Prop :=
  (∀ (i : Instr) (s t : State), i.port ≠ .assembler → exec i s = .next t →
    t.fa = s.fa ∧ t.faLog = s.faLog ∧ t.faReset = s.faReset ∧ t.cfg = s.cfg ∧ t.stimulus = s.stimulus) ∧
  (∀ (i : Instr) (s t : State), i.port = .assembler → exec i s = .next t →
    t.fifo = s.fifo ∧ t.fifoLog = s.fifoLog ∧ t.fifoReset = s.fifoReset ∧ t.cfg = s.cfg ∧
    t.stimulus = s.stimulus) ∧
  (∀ s t : State, step s = .next t →
    t.cfg = s.cfg ∧ (s.fifoReset = true → t.fifoReset = true) ∧ (s.faReset = true → t.faReset = true))

/-- What the assembler does depends on nothing of the FIFO: two machines whose assemblers agree agree on them
after the same step (spec/00_scope.md R6). The event history is the model's record of R88 (log 9). -/
def Obligations.AssemblerIsIndependentOfTheFifo : Prop :=
  ∀ s s' t t' : State, s.cfg = s'.cfg → s.fa = s'.fa → s.faReset = s'.faReset → s.faLog = s'.faLog →
    s.stimulus = s'.stimulus → step s = .next t → step s' = .next t' →
    t.fa = t'.fa ∧ t.faReset = t'.faReset ∧ t.faLog = t'.faLog

/-- Every byte of `mem` keeps its value in every step but RESET and an accepted `ENQ`, which changes the one at
`tail` to its byte. A dequeue does not clear the slot it vacates (R23, R134, R135, R140 to R142). The event
history is the model's record of R88 (log 9). -/
def Obligations.OnlyAcceptedEnqAndResetChangeMem : Prop :=
  ∀ s t : State, s.fifoReset = true → Memory.wf s.fifo.wd.mem = true → step s = .next t →
    t.fifoLog ≠ .reset :: s.fifoLog →
    (∀ i, i ≠ s.fifo.wd.wbin % 2 ^ s.cfg.addrW ∨ acceptedBytes t.fifoLog = acceptedBytes s.fifoLog →
      Memory.read t.fifo.wd.mem i = Memory.read s.fifo.wd.mem i) ∧
    (∀ d, acceptedBytes t.fifoLog = acceptedBytes s.fifoLog ++ [d] →
      Memory.read t.fifo.wd.mem (s.fifo.wd.wbin % 2 ^ s.cfg.addrW) = d)
end

