-- ==== Sys2Proof/Laws/Memory.lean ====
section
/-! SUPPORT. What the storage operations do, each said once: what is read after them, and that they keep the
canonical form and the size of an array. -/

namespace Sys2Proof.Machine

@[simp] theorem Memory.read_nil (i : Nat) : Memory.read [] i = Memory.blank := rfl

theorem Memory.read_cons_ne {x i : Nat} (h : x ≠ i) (v : Byte) (m : Memory) :
    Memory.read ((x, v) :: m) i = Memory.read m i := if_neg h

@[simp] theorem Memory.read_cons_self (x : Nat) (v : Byte) (m : Memory) :
    Memory.read ((x, v) :: m) x = v := if_pos rfl

@[simp] theorem Memory.wf_nil : Memory.wf [] = true := rfl

@[simp] theorem Memory.within_nil (n : Nat) : Memory.within n [] = true := rfl

theorem Memory.wfFrom_cons {n x : Nat} {v : Byte} {m : Memory} :
    Memory.wfFrom n ((x, v) :: m) = true ↔ n ≤ x ∧ v ≠ Memory.blank ∧ Memory.wfFrom (x + 1) m = true := by
  simp [Memory.wfFrom, and_assoc]

theorem Memory.wfFrom_mono {k n : Nat} (h : k ≤ n) : ∀ {m : Memory},
    Memory.wfFrom n m = true → Memory.wfFrom k m = true
  | [], _ => rfl
  | (_, _) :: _, hm => by
    obtain ⟨h1, h2, h3⟩ := Memory.wfFrom_cons.1 hm
    exact Memory.wfFrom_cons.2 ⟨h.trans h1, h2, h3⟩

/-- Below the first listed index an array is blank. -/
theorem Memory.read_of_lt_wfFrom {i : Nat} : ∀ {n : Nat} {m : Memory},
    Memory.wfFrom n m = true → i < n → Memory.read m i = Memory.blank
  | _, [], _, _ => rfl
  | n, (x, v) :: m, hm, hi => by
    obtain ⟨h1, _, h3⟩ := Memory.wfFrom_cons.1 hm
    rw [Memory.read_cons_ne (by omega)]
    exact Memory.read_of_lt_wfFrom h3 (by omega)

theorem Memory.read_write_wfFrom (i : Nat) (b : Byte) (j : Nat) : ∀ {n : Nat} {m : Memory},
    Memory.wfFrom n m = true →
    Memory.read (Memory.write m i b) j = if j = i then b else Memory.read m j
  | _, [], _ => by
    unfold Memory.write
    by_cases hb : b = Memory.blank <;> by_cases hj : j = i
    · simp [hb]
    · simp [hb]
    · simp [hb, hj]
    · simp [hb, hj, Memory.read_cons_ne (Ne.symm hj)]
  | _, (x, v) :: m, hm => by
    obtain ⟨_, _, h3⟩ := Memory.wfFrom_cons.1 hm
    unfold Memory.write
    by_cases hix : i < x
    · have hblank : Memory.read ((x, v) :: m) i = Memory.blank := by
        rw [Memory.read_cons_ne (by omega)]
        exact Memory.read_of_lt_wfFrom h3 (by omega)
      by_cases hb : b = Memory.blank <;> by_cases hj : j = i
      · subst hj; simp [hix, hb, hblank]
      · simp [hix, hb, hj]
      · subst hj; simp [hix, hb]
      · simp [hix, hb, hj, Memory.read_cons_ne (Ne.symm hj)]
    · by_cases hex : i = x
      · subst hex
        by_cases hb : b = Memory.blank <;> by_cases hj : j = i
        · subst hj
          simpa [hb] using Memory.read_of_lt_wfFrom h3 (Nat.lt_succ_self _)
        · simp [hb, hj, Memory.read_cons_ne (Ne.symm hj)]
        · subst hj; simp [hb]
        · simp [hb, hj, Memory.read_cons_ne (Ne.symm hj)]
      · rw [if_neg hix, if_neg hex]
        by_cases hxj : x = j
        · subst hxj
          simp [Ne.symm hex]
        · rw [Memory.read_cons_ne hxj, Memory.read_cons_ne hxj, Memory.read_write_wfFrom i b j h3]

/-- Read after write: the written byte at its index, every other byte as before. -/
theorem Memory.read_write {m : Memory} (h : Memory.wf m = true) (i : Nat) (b : Byte) (j : Nat) :
    Memory.read (Memory.write m i b) j = if j = i then b else Memory.read m j :=
  Memory.read_write_wfFrom i b j h

theorem Memory.wfFrom_write (i : Nat) (b : Byte) : ∀ {n : Nat} {m : Memory},
    Memory.wfFrom n m = true → n ≤ i → Memory.wfFrom n (Memory.write m i b) = true
  | n, [], _, hi => by
    unfold Memory.write
    by_cases hb : b = Memory.blank
    · simp [hb, Memory.wfFrom]
    · simpa [hb] using Memory.wfFrom_cons.2 ⟨hi, hb, rfl⟩
  | n, (x, v) :: m, hm, hi => by
    obtain ⟨h1, h2, h3⟩ := Memory.wfFrom_cons.1 hm
    unfold Memory.write
    by_cases hix : i < x
    · by_cases hb : b = Memory.blank
      · simpa [hix, hb] using hm
      · simpa [hix, hb] using
          Memory.wfFrom_cons.2 ⟨hi, hb, Memory.wfFrom_cons.2 ⟨hix, h2, h3⟩⟩
    · by_cases hex : i = x
      · subst hex
        by_cases hb : b = Memory.blank
        · simpa [hb] using Memory.wfFrom_mono (by omega : n ≤ i + 1) h3
        · simpa [hb] using Memory.wfFrom_cons.2 ⟨hi, hb, h3⟩
      · simpa [hix, hex] using
          Memory.wfFrom_cons.2 ⟨h1, h2, Memory.wfFrom_write i b h3 (by omega : x + 1 ≤ i)⟩

/-- A write keeps the canonical form. -/
theorem Memory.wf_write {m : Memory} (h : Memory.wf m = true) (i : Nat) (b : Byte) :
    Memory.wf (Memory.write m i b) = true :=
  Memory.wfFrom_write i b h (Nat.zero_le i)

theorem Memory.within_cons {n x : Nat} {v : Byte} {m : Memory} :
    Memory.within n ((x, v) :: m) = true ↔ x < n ∧ Memory.within n m = true := by
  simp [Memory.within]

/-- A write inside an array lists nothing outside it. -/
theorem Memory.within_write {n i : Nat} (b : Byte) (hi : i < n) : ∀ {m : Memory},
    Memory.within n m = true → Memory.within n (Memory.write m i b) = true
  | [], _ => by
    unfold Memory.write
    by_cases hb : b = Memory.blank <;> simp [hb, Memory.within, hi]
  | (x, v) :: m, hm => by
    obtain ⟨h1, h2⟩ := Memory.within_cons.1 hm
    unfold Memory.write
    by_cases hix : i < x
    · by_cases hb : b = Memory.blank
      · simpa [hix, hb] using hm
      · simpa [hix, hb] using Memory.within_cons.2 ⟨hi, hm⟩
    · by_cases hex : i = x
      · by_cases hb : b = Memory.blank
        · simpa [hix, hex, hb] using h2
        · simpa [hix, hex, hb] using Memory.within_cons.2 ⟨h1, h2⟩
      · simpa [hix, hex] using Memory.within_cons.2 ⟨h1, Memory.within_write b hi h2⟩

/-- Above its size an array is blank. -/
theorem Memory.read_of_within {n i : Nat} (hi : n ≤ i) : ∀ {m : Memory},
    Memory.within n m = true → Memory.read m i = Memory.blank
  | [], _ => rfl
  | (x, v) :: m, hm => by
    obtain ⟨h1, h2⟩ := Memory.within_cons.1 hm
    rw [Memory.read_cons_ne (by omega)]
    exact Memory.read_of_within hi h2

theorem Memory.within_mono {k n : Nat} (h : k ≤ n) : ∀ {m : Memory},
    Memory.within k m = true → Memory.within n m = true
  | [], _ => rfl
  | (_, _) :: _, hm => by
    obtain ⟨h1, h2⟩ := Memory.within_cons.1 hm
    exact Memory.within_cons.2 ⟨by omega, Memory.within_mono h h2⟩

/-! ### Shifting down -/

/-- After a shift down by `k`, element `i` reads as element `i + k` did. -/
theorem Memory.read_shiftDown (k i : Nat) : ∀ m : Memory,
    Memory.read (Memory.shiftDown k m) i = Memory.read m (i + k)
  | [] => rfl
  | (x, v) :: m => by
    have ih := Memory.read_shiftDown k i m
    by_cases hx : x < k
    · rw [Memory.shiftDown, if_pos hx, Memory.read_cons_ne (by omega), ih]
    · rw [Memory.shiftDown, if_neg hx]
      by_cases hi : x = i + k
      · subst hi; simp
      · rw [Memory.read_cons_ne hi, Memory.read_cons_ne (by omega), ih]

theorem Memory.wfFrom_shiftDown (k : Nat) : ∀ {n : Nat} {m : Memory},
    Memory.wfFrom n m = true → Memory.wfFrom (n - k) (Memory.shiftDown k m) = true
  | _, [], _ => rfl
  | n, (x, v) :: m, hm => by
    obtain ⟨h1, h2, h3⟩ := Memory.wfFrom_cons.1 hm
    have ih := Memory.wfFrom_shiftDown k h3
    by_cases hx : x < k
    · simpa [Memory.shiftDown, hx] using Memory.wfFrom_mono (by omega : n - k ≤ x + 1 - k) ih
    · have hs : x + 1 - k = x - k + 1 := by omega
      rw [hs] at ih
      simpa [Memory.shiftDown, hx] using Memory.wfFrom_cons.2 ⟨by omega, h2, ih⟩

/-- A shift down keeps the canonical form. -/
theorem Memory.wf_shiftDown {m : Memory} (h : Memory.wf m = true) (k : Nat) :
    Memory.wf (Memory.shiftDown k m) = true := by
  simpa [Memory.wf] using Memory.wfFrom_shiftDown k h

/-- The `k` vacated top elements are blank. -/
theorem Memory.within_shiftDown (k : Nat) {n : Nat} : ∀ {m : Memory},
    Memory.within n m = true → Memory.within (n - k) (Memory.shiftDown k m) = true
  | [], _ => rfl
  | (x, v) :: m, hm => by
    obtain ⟨h1, h2⟩ := Memory.within_cons.1 hm
    have ih := Memory.within_shiftDown k h2
    by_cases hx : x < k
    · simpa [Memory.shiftDown, hx] using ih
    · simpa [Memory.shiftDown, hx] using Memory.within_cons.2 ⟨by omega, ih⟩

@[simp] theorem Memory.shiftDown_zero : ∀ m : Memory, Memory.shiftDown 0 m = m
  | [] => rfl
  | (x, v) :: m => by simp [Memory.shiftDown, Memory.shiftDown_zero m]

/-! ### Copies -/

@[simp] theorem Memory.copyFrom_zero (dst : Memory) (at_ : Nat) (src : Memory) :
    Memory.copyFrom dst at_ src 0 = dst := rfl

/-- A copy keeps the canonical form. -/
theorem Memory.wf_copyFrom {dst : Memory} (h : Memory.wf dst = true) (at_ : Nat) (src : Memory) :
    ∀ k, Memory.wf (Memory.copyFrom dst at_ src k) = true
  | 0 => h
  | k + 1 => Memory.wf_write (Memory.wf_copyFrom h at_ src k) _ _

theorem Memory.within_copyFrom {n at_ : Nat} {dst : Memory} (h : Memory.within n dst = true) (src : Memory) :
    ∀ {k}, at_ + k ≤ n → Memory.within n (Memory.copyFrom dst at_ src k) = true
  | 0, _ => h
  | k + 1, hk =>
    Memory.within_write _ (by omega : at_ + k < n)
      (Memory.within_copyFrom h src (by omega : at_ + k ≤ n))

/-- After a copy of `k` elements to `at_`, these read as the source's first `k`, every other as before. -/
theorem Memory.read_copyFrom {dst : Memory} (h : Memory.wf dst = true) (at_ : Nat) (src : Memory) (j : Nat) :
    ∀ k, Memory.read (Memory.copyFrom dst at_ src k) j =
      if at_ ≤ j ∧ j < at_ + k then Memory.read src (j - at_) else Memory.read dst j
  | 0 => by simp
  | k + 1 => by
    rw [Memory.copyFrom, Memory.read_write (Memory.wf_copyFrom h at_ src k),
      Memory.read_copyFrom h at_ src j k]
    by_cases hj : j = at_ + k
    · subst hj; simp
    · by_cases hin : at_ ≤ j ∧ j < at_ + k
      · simp [hj, hin, (by omega : j < at_ + (k + 1))]
      · simp only [hj, if_false, hin]
        rw [if_neg (by omega)]

@[simp] theorem Memory.writeList_nil (m : Memory) (at_ : Nat) : Memory.writeList m at_ [] = m := rfl

@[simp] theorem Memory.writeList_cons (m : Memory) (at_ : Nat) (b : Byte) (bs : List Byte) :
    Memory.writeList m at_ (b :: bs) = Memory.writeList (Memory.write m at_ b) (at_ + 1) bs := rfl

theorem Memory.writeList_append (bs cs : List Byte) : ∀ (m : Memory) (at_ : Nat),
    Memory.writeList m at_ (bs ++ cs) =
      Memory.writeList (Memory.writeList m at_ bs) (at_ + bs.length) cs := by
  induction bs with
  | nil => intro m at_; simp
  | cons b bs ih => intro m at_; simp [ih, Nat.add_assoc, Nat.add_comm 1]

/-- A list write keeps the canonical form. -/
theorem Memory.wf_writeList (bs : List Byte) : ∀ {m : Memory} (at_ : Nat), Memory.wf m = true →
    Memory.wf (Memory.writeList m at_ bs) = true := by
  induction bs with
  | nil => intro m at_ h; exact h
  | cons b bs ih => intro m at_ h; exact ih _ (Memory.wf_write h _ _)

/-- After a list write from `at_`, the written indices read as the list, every other as before. -/
theorem Memory.read_writeList (bs : List Byte) : ∀ {m : Memory} (at_ : Nat), Memory.wf m = true → ∀ j,
    Memory.read (Memory.writeList m at_ bs) j =
      if at_ ≤ j ∧ j < at_ + bs.length then bs.getD (j - at_) Memory.blank else Memory.read m j := by
  induction bs with
  | nil => intro m at_ _ j; simp
  | cons b bs ih =>
    intro m at_ h j
    rw [Memory.writeList_cons, ih _ (Memory.wf_write h _ _), Memory.read_write h]
    by_cases hj : j = at_
    · subst hj; simp
    · by_cases hin : at_ + 1 ≤ j ∧ j < at_ + 1 + bs.length
      · have hs : j - at_ = (j - (at_ + 1)) + 1 := by omega
        rw [if_pos hin, if_pos (by simp only [List.length_cons]; omega), hs]; rfl
      · rw [if_neg hin, if_neg hj, if_neg (by simp only [List.length_cons]; omega)]

/-! ### Bytes of an array; equal arrays -/

@[simp] theorem Memory.length_bytes (m : Memory) (n : Nat) : (Memory.bytes m n).length = n := by
  simp [Memory.bytes]

theorem Memory.getElem_bytes (m : Memory) (n i : Nat) (h : i < (Memory.bytes m n).length) :
    (Memory.bytes m n)[i] = Memory.read m i := by
  simp [Memory.bytes]

@[simp] theorem Memory.bytes_zero (m : Memory) : Memory.bytes m 0 = [] := rfl

theorem Memory.bytes_succ (m : Memory) (n : Nat) :
    Memory.bytes m (n + 1) = Memory.bytes m n ++ [Memory.read m n] := by
  simp [Memory.bytes, List.range_succ]

theorem Memory.eq_of_read_eq_wfFrom : ∀ {n n' : Nat} {m m' : Memory},
    Memory.wfFrom n m = true → Memory.wfFrom n' m' = true →
    (∀ i, Memory.read m i = Memory.read m' i) → m = m'
  | _, _, [], [], _, _, _ => rfl
  | _, _, [], (x, v) :: m', _, h', hr => by
    obtain ⟨_, hv, _⟩ := Memory.wfFrom_cons.1 h'
    exact absurd (by simpa [Memory.read] using (hr x).symm) hv
  | _, _, (x, v) :: m, [], h, _, hr => by
    obtain ⟨_, hv, _⟩ := Memory.wfFrom_cons.1 h
    exact absurd (by simpa [Memory.read] using hr x) hv
  | _, _, (x, v) :: m, (y, u) :: m', h, h', hr => by
    obtain ⟨_, hv, h3⟩ := Memory.wfFrom_cons.1 h
    obtain ⟨_, hu, h3'⟩ := Memory.wfFrom_cons.1 h'
    have hxy : x = y := by
      rcases Nat.lt_trichotomy x y with hlt | heq | hgt
      · have := hr x
        rw [Memory.read_cons_self, Memory.read_cons_ne (by omega),
          Memory.read_of_lt_wfFrom h3' (by omega)] at this
        exact absurd this hv
      · exact heq
      · have := hr y
        rw [Memory.read_cons_self, Memory.read_cons_ne (by omega),
          Memory.read_of_lt_wfFrom h3 (by omega)] at this
        exact absurd this.symm hu
    subst hxy
    have hvu : v = u := by simpa [Memory.read] using hr x
    subst hvu
    have hm : m = m' := Memory.eq_of_read_eq_wfFrom h3 h3' fun i => by
      by_cases hi : x = i
      · subst hi
        rw [Memory.read_of_lt_wfFrom h3 (Nat.lt_succ_self _), Memory.read_of_lt_wfFrom h3' (Nat.lt_succ_self _)]
      · simpa [Memory.read_cons_ne hi] using hr i
    rw [hm]

/-- Arrays in canonical form that read the same are the same data. -/
theorem Memory.eq_of_read_eq {m m' : Memory} (h : Memory.wf m = true) (h' : Memory.wf m' = true)
    (hr : ∀ i, Memory.read m i = Memory.read m' i) : m = m' :=
  Memory.eq_of_read_eq_wfFrom h h' hr

end Sys2Proof.Machine
end

