-- ==== Sys2Proof/Laws/State.lean ====
section
/-! SUPPORT. One lemma per field per update of the state, so that no proof unfolds a record update. -/

namespace Sys2Proof.Machine

/-! ### consumeLine -/

@[simp] theorem State.consumeLine_cfg (s : State) :
    (s.consumeLine).cfg = s.cfg := rfl

@[simp] theorem State.consumeLine_fifo (s : State) :
    (s.consumeLine).fifo = s.fifo := rfl

@[simp] theorem State.consumeLine_fa (s : State) :
    (s.consumeLine).fa = s.fa := rfl

@[simp] theorem State.consumeLine_fifoReset (s : State) :
    (s.consumeLine).fifoReset = s.fifoReset := rfl

@[simp] theorem State.consumeLine_faReset (s : State) :
    (s.consumeLine).faReset = s.faReset := rfl

@[simp] theorem State.consumeLine_stimulus (s : State) :
    (s.consumeLine).stimulus = s.stimulus.tail := rfl

@[simp] theorem State.consumeLine_fifoLog (s : State) :
    (s.consumeLine).fifoLog = s.fifoLog := rfl

@[simp] theorem State.consumeLine_faLog (s : State) :
    (s.consumeLine).faLog = s.faLog := rfl

/-! ### stepW -/

@[simp] theorem State.stepW_cfg (s : State) (q : Option Byte) :
    (s.stepW q).cfg = s.cfg := rfl

@[simp] theorem State.stepW_fifo (s : State) (q : Option Byte) :
    (s.stepW q).fifo = { s.fifo with wd := s.fifo.writeHalf s.cfg q } := rfl

@[simp] theorem State.stepW_fa (s : State) (q : Option Byte) :
    (s.stepW q).fa = s.fa := rfl

@[simp] theorem State.stepW_fifoReset (s : State) (q : Option Byte) :
    (s.stepW q).fifoReset = s.fifoReset := rfl

@[simp] theorem State.stepW_faReset (s : State) (q : Option Byte) :
    (s.stepW q).faReset = s.faReset := rfl

@[simp] theorem State.stepW_stimulus (s : State) (q : Option Byte) :
    (s.stepW q).stimulus = s.stimulus := rfl

@[simp] theorem State.stepW_fifoLog (s : State) (q : Option Byte) :
    (s.stepW q).fifoLog = s.fifo.writeEvent s.cfg q :: s.fifoLog := rfl

@[simp] theorem State.stepW_faLog (s : State) (q : Option Byte) :
    (s.stepW q).faLog = s.faLog := rfl

/-! ### stepR -/

@[simp] theorem State.stepR_cfg (s : State) (r : Bool) :
    (s.stepR r).cfg = s.cfg := rfl

@[simp] theorem State.stepR_fifo (s : State) (r : Bool) :
    (s.stepR r).fifo = { s.fifo with rd := s.fifo.readHalf s.cfg r } := rfl

@[simp] theorem State.stepR_fa (s : State) (r : Bool) :
    (s.stepR r).fa = s.fa := rfl

@[simp] theorem State.stepR_fifoReset (s : State) (r : Bool) :
    (s.stepR r).fifoReset = s.fifoReset := rfl

@[simp] theorem State.stepR_faReset (s : State) (r : Bool) :
    (s.stepR r).faReset = s.faReset := rfl

@[simp] theorem State.stepR_stimulus (s : State) (r : Bool) :
    (s.stepR r).stimulus = s.stimulus := rfl

@[simp] theorem State.stepR_fifoLog (s : State) (r : Bool) :
    (s.stepR r).fifoLog = s.fifo.readEvent s.cfg r :: s.fifoLog := rfl

@[simp] theorem State.stepR_faLog (s : State) (r : Bool) :
    (s.stepR r).faLog = s.faLog := rfl

/-! ### stepWR -/

@[simp] theorem State.stepWR_cfg (s : State) (q : Option Byte) (r : Bool) :
    (s.stepWR q r).cfg = s.cfg := rfl

@[simp] theorem State.stepWR_fifo (s : State) (q : Option Byte) (r : Bool) :
    (s.stepWR q r).fifo = { wd := s.fifo.writeHalf s.cfg q, rd := s.fifo.readHalf s.cfg r } := rfl

@[simp] theorem State.stepWR_fa (s : State) (q : Option Byte) (r : Bool) :
    (s.stepWR q r).fa = s.fa := rfl

@[simp] theorem State.stepWR_fifoReset (s : State) (q : Option Byte) (r : Bool) :
    (s.stepWR q r).fifoReset = s.fifoReset := rfl

@[simp] theorem State.stepWR_faReset (s : State) (q : Option Byte) (r : Bool) :
    (s.stepWR q r).faReset = s.faReset := rfl

@[simp] theorem State.stepWR_stimulus (s : State) (q : Option Byte) (r : Bool) :
    (s.stepWR q r).stimulus = s.stimulus := rfl

@[simp] theorem State.stepWR_fifoLog (s : State) (q : Option Byte) (r : Bool) :
    (s.stepWR q r).fifoLog = s.fifo.readEvent s.cfg r :: s.fifo.writeEvent s.cfg q :: s.fifoLog := rfl

@[simp] theorem State.stepWR_faLog (s : State) (q : Option Byte) (r : Bool) :
    (s.stepWR q r).faLog = s.faLog := rfl

/-! ### resetFifo -/

@[simp] theorem State.resetFifo_cfg (s : State) :
    (s.resetFifo).cfg = s.cfg := rfl

@[simp] theorem State.resetFifo_fifo (s : State) :
    (s.resetFifo).fifo = Fifo.zero := rfl

@[simp] theorem State.resetFifo_fa (s : State) :
    (s.resetFifo).fa = s.fa := rfl

@[simp] theorem State.resetFifo_fifoReset (s : State) :
    (s.resetFifo).fifoReset = true := rfl

@[simp] theorem State.resetFifo_faReset (s : State) :
    (s.resetFifo).faReset = s.faReset := rfl

@[simp] theorem State.resetFifo_stimulus (s : State) :
    (s.resetFifo).stimulus = s.stimulus := rfl

@[simp] theorem State.resetFifo_fifoLog (s : State) :
    (s.resetFifo).fifoLog = .reset :: s.fifoLog := rfl

@[simp] theorem State.resetFifo_faLog (s : State) :
    (s.resetFifo).faLog = s.faLog := rfl

/-! ### afterBeat -/

@[simp] theorem State.afterBeat_cfg (s : State) (e : Bool) (d : Option Byte) :
    (s.afterBeat e d).cfg = s.cfg := rfl

@[simp] theorem State.afterBeat_fifo (s : State) (e : Bool) (d : Option Byte) :
    (s.afterBeat e d).fifo = s.fifo := rfl

@[simp] theorem State.afterBeat_fa (s : State) (e : Bool) (d : Option Byte) :
    (s.afterBeat e d).fa = s.fa.beat s.cfg e d := rfl

@[simp] theorem State.afterBeat_fifoReset (s : State) (e : Bool) (d : Option Byte) :
    (s.afterBeat e d).fifoReset = s.fifoReset := rfl

@[simp] theorem State.afterBeat_faReset (s : State) (e : Bool) (d : Option Byte) :
    (s.afterBeat e d).faReset = s.faReset := rfl

@[simp] theorem State.afterBeat_stimulus (s : State) (e : Bool) (d : Option Byte) :
    (s.afterBeat e d).stimulus = s.stimulus := rfl

@[simp] theorem State.afterBeat_fifoLog (s : State) (e : Bool) (d : Option Byte) :
    (s.afterBeat e d).fifoLog = s.fifoLog := rfl

@[simp] theorem State.afterBeat_faLog (s : State) (e : Bool) (d : Option Byte) :
    (s.afterBeat e d).faLog = (s.fa.beat s.cfg e d).beatEvent s.cfg e d :: s.faLog := rfl

/-! ### The reset state -/

@[simp] theorem State.resetWith_cfg (c : Config) : (State.resetWith c).cfg = c := rfl

@[simp] theorem State.resetWith_fifo (c : Config) : (State.resetWith c).fifo = Fifo.zero := rfl

@[simp] theorem State.resetWith_fa (c : Config) : (State.resetWith c).fa = Assembler.zero := rfl

@[simp] theorem State.resetWith_fifoReset (c : Config) : (State.resetWith c).fifoReset = true := rfl

@[simp] theorem State.resetWith_faReset (c : Config) : (State.resetWith c).faReset = true := rfl

@[simp] theorem State.resetWith_stimulus (c : Config) : (State.resetWith c).stimulus = [] := rfl

@[simp] theorem State.resetWith_fifoLog (c : Config) : (State.resetWith c).fifoLog = [] := rfl

@[simp] theorem State.resetWith_faLog (c : Config) : (State.resetWith c).faLog = [] := rfl

/-! ### Operations that coincide read the stimulus only -/

theorem State.coincidentRead_congr {s t : State} (h : t.stimulus = s.stimulus) :
    t.coincidentRead = s.coincidentRead := by simp only [State.coincidentRead, h]

theorem State.coincidentWrite_congr {s t : State} (h : t.stimulus = s.stimulus) :
    t.coincidentWrite = s.coincidentWrite := by simp only [State.coincidentWrite, h]

end Sys2Proof.Machine
end

