-- ==== Sys2Proof/Laws/Assembler.lean ====
section
/-! SUPPORT. What the phases of a beat and the assembler's operations can do, said once each. -/

namespace Sys2Proof.Machine

/-! ### Phases -/

theorem Assembler.phaseA_of_ne_idle {c : Config} {a : Assembler} (h : a.fsm ≠ .idle) : a.phaseA c = a :=
  if_neg h

/-- Phase A when the staged bytes complete a packet. -/
theorem Assembler.phaseA_completes {c : Config} {a : Assembler} (h : a.fsm = .idle)
    (hw : a.w + min a.loLen (c.pkt - a.w) = c.pkt) :
    a.phaseA c =
      { a with
        buf := Memory.copyFrom a.buf a.w a.lo (min a.loLen (c.pkt - a.w))
        pkt := Memory.copyFrom a.buf a.w a.lo (min a.loLen (c.pkt - a.w))
        lo := Memory.shiftDown (min a.loLen (c.pkt - a.w)) a.lo
        loLen := a.loLen - min a.loLen (c.pkt - a.w)
        w := 0
        fsm := .spill } := by
  simp [Assembler.phaseA, h, hw]

/-- Phase A when they do not. -/
theorem Assembler.phaseA_starts {c : Config} {a : Assembler} (h : a.fsm = .idle)
    (hw : a.w + min a.loLen (c.pkt - a.w) ≠ c.pkt) :
    a.phaseA c =
      { a with
        buf := Memory.copyFrom a.buf a.w a.lo (min a.loLen (c.pkt - a.w))
        lo := Memory.shiftDown (min a.loLen (c.pkt - a.w)) a.lo
        loLen := a.loLen - min a.loLen (c.pkt - a.w)
        w := a.w + min a.loLen (c.pkt - a.w)
        fsm := .fill } := by
  simp [Assembler.phaseA, h, hw]

/-- Phase A never leaves IDLE. -/
theorem Assembler.phaseA_ne_idle (c : Config) (a : Assembler) : (a.phaseA c).fsm ≠ .idle := by
  by_cases h : a.fsm = .idle
  · by_cases hw : a.w + min a.loLen (c.pkt - a.w) = c.pkt
    · rw [Assembler.phaseA_completes h hw]; simp
    · rw [Assembler.phaseA_starts h hw]; simp
  · rw [Assembler.phaseA_of_ne_idle h]; exact h

@[simp] theorem Assembler.phaseA_loOvf (c : Config) (a : Assembler) : (a.phaseA c).loOvf = a.loOvf := by
  by_cases h : a.fsm = .idle
  · by_cases hw : a.w + min a.loLen (c.pkt - a.w) = c.pkt
    · rw [Assembler.phaseA_completes h hw]
    · rw [Assembler.phaseA_starts h hw]
  · rw [Assembler.phaseA_of_ne_idle h]

@[simp] theorem Assembler.phaseA_resComplete (c : Config) (a : Assembler) :
    (a.phaseA c).resComplete = a.resComplete := by
  by_cases h : a.fsm = .idle
  · by_cases hw : a.w + min a.loLen (c.pkt - a.w) = c.pkt
    · rw [Assembler.phaseA_completes h hw]
    · rw [Assembler.phaseA_starts h hw]
  · rw [Assembler.phaseA_of_ne_idle h]

theorem Assembler.fillByte_completes {c : Config} {a : Assembler} (h : a.w + 1 = c.pkt) (d : Byte) :
    a.fillByte c d =
      { a with buf := Memory.write a.buf a.w d, pkt := Memory.write a.buf a.w d, w := 0, fsm := .spill } := by
  simp [Assembler.fillByte, h]

theorem Assembler.fillByte_continues {c : Config} {a : Assembler} (h : a.w + 1 ≠ c.pkt) (d : Byte) :
    a.fillByte c d = { a with buf := Memory.write a.buf a.w d, w := a.w + 1, fsm := .fill } := by
  simp [Assembler.fillByte, h]

theorem Assembler.spillByte_staged {c : Config} {a : Assembler} (h : a.loLen < c.loCap) (d : Byte) :
    a.spillByte c d = { a with lo := Memory.write a.lo a.loLen d, loLen := a.loLen + 1 } := if_pos h

theorem Assembler.spillByte_overflows {c : Config} {a : Assembler} (h : ¬ a.loLen < c.loCap) (d : Byte) :
    a.spillByte c d = { a with loOvf := true } := if_neg h

theorem Assembler.phaseB_fill {c : Config} {a : Assembler} (h : a.fsm = .fill) (d : Byte) :
    a.phaseB c d = a.fillByte c d := by simp [Assembler.phaseB, h]

theorem Assembler.phaseB_spill {c : Config} {a : Assembler} (h : a.fsm = .spill) (d : Byte) :
    a.phaseB c d = a.spillByte c d := by simp [Assembler.phaseB, h]

theorem Assembler.phaseC_end (a : Assembler) :
    a.phaseC true =
      { a with loPend := a.loLen != 0, resValid := true, resComplete := a.fsm == .spill, fsm := .idle } := rfl

theorem Assembler.phaseC_continue (a : Assembler) :
    a.phaseC false = { a with loPend := a.loLen != 0, resValid := false } := rfl

@[simp] theorem Assembler.phaseC_buf (a : Assembler) (e : Bool) : (a.phaseC e).buf = a.buf := by
  cases e <;> rfl

@[simp] theorem Assembler.phaseC_w (a : Assembler) (e : Bool) : (a.phaseC e).w = a.w := by cases e <;> rfl

@[simp] theorem Assembler.phaseC_lo (a : Assembler) (e : Bool) : (a.phaseC e).lo = a.lo := by
  cases e <;> rfl

@[simp] theorem Assembler.phaseC_loLen (a : Assembler) (e : Bool) : (a.phaseC e).loLen = a.loLen := by
  cases e <;> rfl

@[simp] theorem Assembler.phaseC_pkt (a : Assembler) (e : Bool) : (a.phaseC e).pkt = a.pkt := by
  cases e <;> rfl

@[simp] theorem Assembler.phaseC_loOvf (a : Assembler) (e : Bool) : (a.phaseC e).loOvf = a.loOvf := by
  cases e <;> rfl

@[simp] theorem Assembler.phaseC_loPend (a : Assembler) (e : Bool) :
    (a.phaseC e).loPend = (a.loLen != 0) := by cases e <;> rfl

@[simp] theorem Assembler.phaseC_resValid (a : Assembler) (e : Bool) : (a.phaseC e).resValid = e := by
  cases e <;> rfl

/-! ### Beats -/

theorem Assembler.beat_some (c : Config) (a : Assembler) (e : Bool) (d : Byte) :
    a.beat c e (some d) = ((a.phaseA c).phaseB c d).phaseC e := rfl

theorem Assembler.beat_none (c : Config) (a : Assembler) (e : Bool) :
    a.beat c e none = (a.phaseA c).phaseC e := rfl

/-- If a beat answers a next state, the assembler was reset, its cursors were in range, and the state is the one
after the beat. -/
theorem State.beatStep_next {s t : State} {e : Bool} {d : Option Byte} (h : s.beatStep e d = .next t) :
    s.faReset = true ∧ s.fa.cursorsInRange s.cfg = true ∧ t = s.afterBeat e d := by
  unfold State.beatStep at h
  split at h
  · rename_i hr
    split at h
    · rename_i hc
      exact ⟨hr, hc, by simpa using h.symm⟩
    · cases h
  · cases h

/-- A beat of a reset assembler whose cursors are in range answers the state after it. -/
theorem State.beatStep_eq {s : State} (hr : s.faReset = true) (hc : s.fa.cursorsInRange s.cfg = true)
    (e : Bool) (d : Option Byte) : s.beatStep e d = .next (s.afterBeat e d) := by
  simp [State.beatStep, hr, hc]

theorem Assembler.cursorsInRange_iff {c : Config} {a : Assembler} :
    a.cursorsInRange c = true ↔ a.w < c.pkt ∧ a.loLen ≤ c.loCap := by
  simp [Assembler.cursorsInRange]

/-- The meaning of `FA_NOP` in a reset assembler. -/
theorem execFaNop_eq {s : State} (hr : s.faReset = true) :
    execFaNop s = .next { s with fa := { s.fa with resValid := false } } := if_pos hr

end Sys2Proof.Machine
end

