-- ==== Sys2Proof/Laws/Pointers.lean ====
section
/-! SUPPORT. Pointer arithmetic and grey code: ranges and linearity. -/

namespace Sys2Proof.Machine

theorem addMod_lt (k a b : Nat) : addMod k a b < 2 ^ k := Nat.mod_lt _ (Nat.two_pow_pos k)

theorem subMod_lt (k a b : Nat) : subMod k a b < 2 ^ k := Nat.mod_lt _ (Nat.two_pow_pos k)

theorem nextPtr_lt (c : Config) (p : Nat) : nextPtr c p < c.ptrMod := addMod_lt _ _ _

theorem capacity_pos (c : Config) : 0 < c.capacity := Nat.two_pow_pos _

theorem ptrMod_eq (c : Config) : c.ptrMod = 2 * c.capacity := by
  simp [Config.ptrMod, Config.capacity, Nat.pow_succ, Nat.mul_comm]

theorem slot_lt (c : Config) (p : Nat) : slot c p < c.capacity := Nat.mod_lt _ (capacity_pos c)

/-- Modular subtraction of values in range, without the modulus. -/
theorem subMod_eq {k a b : Nat} (ha : a < 2 ^ k) (hb : b < 2 ^ k) :
    subMod k a b = if b ≤ a then a - b else a + 2 ^ k - b := by
  unfold subMod
  rw [Nat.mod_eq_of_lt hb]
  split
  · rw [(by omega : a + (2 ^ k - b) = a - b + 2 ^ k), Nat.add_mod_right, Nat.mod_eq_of_lt (by omega)]
  · rw [Nat.mod_eq_of_lt (by omega)]; omega

/-- The pointer increment in range, without the modulus. -/
theorem addMod_one_eq {k a : Nat} (ha : a < 2 ^ k) :
    addMod k a 1 = if a + 1 = 2 ^ k then 0 else a + 1 := by
  unfold addMod
  split
  · simp [*]
  · exact Nat.mod_eq_of_lt (by omega)

@[simp] theorem subMod_self (k a : Nat) : subMod k a a = 0 := by
  have h : a % 2 ^ k < 2 ^ k := Nat.mod_lt _ (Nat.two_pow_pos k)
  unfold subMod
  rw [Nat.add_mod, Nat.mod_eq_of_lt (b := 2 ^ k) (a := a % 2 ^ k) h |>.symm]
  by_cases h0 : a % 2 ^ k = 0
  · simp [h0]
  · rw [Nat.mod_mod, Nat.mod_eq_of_lt (by omega : 2 ^ k - a % 2 ^ k < 2 ^ k),
      (by omega : a % 2 ^ k + (2 ^ k - a % 2 ^ k) = 2 ^ k), Nat.mod_self]

@[simp] theorem b2g_zero : b2g 0 = 0 := rfl

@[simp] theorem g2b_zero_right (k : Nat) : g2b k 0 = 0 := by
  induction k with
  | zero => rfl
  | succ k ih => simp [g2b, ih]

/-- Bit `i` of the grey code is the exclusive or of bits `i` and `i + 1`. -/
theorem testBit_b2g (b i : Nat) : (b2g b).testBit i = (b.testBit i ^^ b.testBit (i + 1)) := by
  simp [b2g, Nat.testBit_xor, Nat.testBit_shiftRight, Nat.add_comm]

theorem b2g_lt {k b : Nat} (h : b < 2 ^ k) : b2g b < 2 ^ k :=
  Nat.xor_lt_two_pow h (lt_of_le_of_lt (by simpa [Nat.shiftRight_eq_div_pow] using Nat.div_le_self b 2) h)

/-- The grey code is linear over exclusive or. -/
theorem b2g_xor (a b : Nat) : b2g (a ^^^ b) = b2g a ^^^ b2g b := by
  apply Nat.eq_of_testBit_eq
  intro i
  simp only [testBit_b2g, Nat.testBit_xor]
  cases a.testBit i <;> cases b.testBit i <;> cases a.testBit (i + 1) <;> cases b.testBit (i + 1) <;> rfl

end Sys2Proof.Machine
end

