-- ==== Sys2Proof/Laws/Fifo.lean ====
section
/-! SUPPORT. What a step of the FIFO can do, said once per operation. -/

namespace Sys2Proof.Machine

/-! ### The halves -/

theorem Fifo.writeHalf_none (c : Config) (f : Fifo) : f.writeHalf c none = f.syncW := rfl

theorem Fifo.writeHalf_full {c : Config} {f : Fifo} (h : f.wfull c = true) (d : Byte) :
    f.writeHalf c (some d) = f.syncW := if_pos h

theorem Fifo.writeHalf_accepted {c : Config} {f : Fifo} (h : f.wfull c = false) (d : Byte) :
    f.writeHalf c (some d) =
      { mem := Memory.write f.wd.mem (f.tail c) d
        wbin := nextPtr c f.wd.wbin
        wgray := b2g (nextPtr c f.wd.wbin)
        wq1Rptr := f.rd.rgray
        wq2Rptr := f.wd.wq1Rptr } := by
  simp [Fifo.writeHalf, h, Fifo.syncW]

/-- Every write half moves the synchroniser. -/
@[simp] theorem Fifo.writeHalf_wq1Rptr (c : Config) (f : Fifo) (q : Option Byte) :
    (f.writeHalf c q).wq1Rptr = f.rd.rgray := by
  cases q with
  | none => rfl
  | some d => by_cases h : f.wfull c <;> simp [Fifo.writeHalf, h, Fifo.syncW]

@[simp] theorem Fifo.writeHalf_wq2Rptr (c : Config) (f : Fifo) (q : Option Byte) :
    (f.writeHalf c q).wq2Rptr = f.wd.wq1Rptr := by
  cases q with
  | none => rfl
  | some d => by_cases h : f.wfull c <;> simp [Fifo.writeHalf, h, Fifo.syncW]

/-- A write half either leaves `mem`, `wbin`, `wgray` or accepts a byte. -/
theorem Fifo.writeHalf_cases (c : Config) (f : Fifo) (q : Option Byte) :
    (f.writeHalf c q = f.syncW ∧ f.wok c q.isSome = false) ∨
    ∃ d, q = some d ∧ f.wfull c = false ∧ f.wok c q.isSome = true ∧
      f.writeHalf c q =
        { mem := Memory.write f.wd.mem (f.tail c) d
          wbin := nextPtr c f.wd.wbin
          wgray := b2g (nextPtr c f.wd.wbin)
          wq1Rptr := f.rd.rgray
          wq2Rptr := f.wd.wq1Rptr } := by
  cases q with
  | none => exact .inl ⟨rfl, rfl⟩
  | some d =>
    by_cases h : f.wfull c = true
    · exact .inl ⟨Fifo.writeHalf_full h d, by simp [Fifo.wok, h]⟩
    · have h' : f.wfull c = false := by simpa using h
      exact .inr ⟨d, rfl, h', by simp [Fifo.wok, h'], Fifo.writeHalf_accepted h' d⟩

theorem Fifo.readHalf_idle {c : Config} {f : Fifo} {r : Bool} (h : f.rok r = false) :
    f.readHalf c r = f.syncR := by simp [Fifo.readHalf, h]

theorem Fifo.readHalf_taken {c : Config} {f : Fifo} {r : Bool} (h : f.rok r = true) :
    f.readHalf c r =
      { rbin := nextPtr c f.rd.rbin
        rgray := b2g (nextPtr c f.rd.rbin)
        rq1Wptr := f.wd.wgray
        rq2Wptr := f.rd.rq1Wptr } := by
  simp [Fifo.readHalf, h, Fifo.syncR]

/-- Every read half moves the synchroniser. -/
@[simp] theorem Fifo.readHalf_rq1Wptr (c : Config) (f : Fifo) (r : Bool) :
    (f.readHalf c r).rq1Wptr = f.wd.wgray := by
  by_cases h : f.rok r <;> simp [Fifo.readHalf, h, Fifo.syncR]

@[simp] theorem Fifo.readHalf_rq2Wptr (c : Config) (f : Fifo) (r : Bool) :
    (f.readHalf c r).rq2Wptr = f.rd.rq1Wptr := by
  by_cases h : f.rok r <;> simp [Fifo.readHalf, h, Fifo.syncR]

theorem Fifo.rok_iff {f : Fifo} {r : Bool} : f.rok r = true ↔ r = true ∧ f.rempty = false := by
  simp [Fifo.rok]

theorem Fifo.rdata_of_rempty {c : Config} {f : Fifo} (h : f.rempty = true) : f.rdata c = 0x00 := if_pos h

theorem Fifo.rdata_of_not_rempty {c : Config} {f : Fifo} (h : f.rempty = false) :
    f.rdata c = Memory.read f.wd.mem (f.head c) := by simp [Fifo.rdata, h]

/-- A write half keeps `mem` in canonical form and inside its size. -/
theorem Fifo.mem_writeHalf {c : Config} {f : Fifo} (q : Option Byte)
    (h : Memory.wf f.wd.mem = true) (hw : Memory.within c.capacity f.wd.mem = true) :
    Memory.wf (f.writeHalf c q).mem = true ∧ Memory.within c.capacity (f.writeHalf c q).mem = true := by
  rcases f.writeHalf_cases c q with ⟨hs, _⟩ | ⟨d, _, _, _, hs⟩
  · rw [hs]; exact ⟨h, hw⟩
  · rw [hs]; exact ⟨Memory.wf_write h _ _, Memory.within_write d (slot_lt c _) hw⟩

/-! ### The step of the FIFO -/

/-- If a step of the FIFO answers a next state, it is RESET, a W step, an R step, a WR step, or no step. -/
theorem State.fifoStep_next {s t : State} {w : Option WriteOp} {r : Option ReadOp}
    (h : s.fifoStep w r = .next t) :
    (w = some .reset ∧ r = some .reset ∧ t = s.resetFifo) ∨
    (∃ q, w = some (.edge q) ∧ r = none ∧ s.fifoReset = true ∧ t = s.stepW q) ∨
    (∃ b, w = none ∧ r = some (.edge b) ∧ s.fifoReset = true ∧ t = s.stepR b) ∨
    (∃ q b, w = some (.edge q) ∧ r = some (.edge b) ∧ s.fifoReset = true ∧ t = s.stepWR q b) ∨
    (w = none ∧ r = none ∧ t = s) := by
  have guard : ∀ {u : State}, (if s.fifoReset = true then Host.Outcome.next u else .refused .noReset) =
      (.next t : Result) → s.fifoReset = true ∧ t = u := by
    intro u hu
    split at hu
    · exact ⟨‹_›, by simpa using hu.symm⟩
    · cases hu
  rcases w with _ | _ | q <;> rcases r with _ | _ | b <;> simp only [State.fifoStep] at h <;>
    first
    | cases h
    | skip
  · simp
  · simpa using guard h
  · simp
  · simpa using guard h
  · simpa using guard h

/-- A step of the FIFO never faults. -/
theorem State.fifoStep_ne_fault (s : State) (w : Option WriteOp) (r : Option ReadOp) (e : Fault) :
    s.fifoStep w r ≠ .fault e := by
  rcases w with _ | _ | q <;> rcases r with _ | _ | b <;> simp [State.fifoStep] <;> split <;> simp

/-- The meaning of a write-port operation is the step of the FIFO with what coincides on the read port. -/
theorem exec_of_writeOp {i : Instr} {w : WriteOp} (h : writeOpOf i = some w) (s : State) :
    exec i s = s.fifoStep (some w) s.coincidentRead := by
  cases i <;> simp [writeOpOf] at h <;> subst h <;> rfl

/-- The meaning of a read-port operation is the step of the FIFO with what coincides on the write port. -/
theorem exec_of_readOp {i : Instr} {r : ReadOp} (h : readOpOf i = some r) (s : State) :
    exec i s = s.fifoStep s.coincidentWrite (some r) := by
  cases i <;> simp [readOpOf] at h <;> subst h <;> rfl

end Sys2Proof.Machine
end

