-- ==== Sys2Proof/Laws/Step.lean ====
section
/-! SUPPORT. What one step of the machine can do. -/

namespace Sys2Proof.Machine

/-- If a step answers a next state, there was no line and nothing happened, or the line's operation was executed
and the line used up. -/
theorem step_next {s t : State} (h : step s = .next t) :
    (s.stimulus = [] ∧ t = s) ∨
    ∃ line rest u, s.stimulus = line :: rest ∧ exec line.instr s = .next u ∧ t = u.consumeLine := by
  unfold step at h
  split at h
  · rename_i hs
    exact .inl ⟨hs, by simpa using h.symm⟩
  · rename_i line rest hs
    split at h
    · rename_i u hu
      exact .inr ⟨line, rest, u, hs, hu, by simpa using h.symm⟩
    · cases h
    · cases h

/-- A step with a line is the line's operation, the line used up on a next state. -/
theorem step_of_line {s u : State} {line : Line} {rest : List Line} (hs : s.stimulus = line :: rest)
    (hu : exec line.instr s = .next u) : step s = .next u.consumeLine := by
  simp [step, hs, hu]

/-- If an operation of the machine answers a next state, the step was one of these. -/
theorem exec_next {i : Instr} {s t : State} (h : exec i s = .next t) :
    (i.port ≠ .assembler ∧
      (t = s.resetFifo ∨ (s.fifoReset = true ∧
        ((∃ q, t = s.stepW q) ∨ (∃ b, t = s.stepR b) ∨ (∃ q b, t = s.stepWR q b))))) ∨
    (i = .faReset ∧ t = { s with fa := Assembler.zero, faReset := true, faLog := .reset :: s.faLog }) ∨
    (i = .faNop ∧ s.faReset = true ∧ t = { s with fa := { s.fa with resValid := false } }) ∨
    (∃ e d, ((∃ x, i = .faByte x ∧ e = false ∧ d = some x) ∨ (i = .faEnd ∧ e = true ∧ d = none) ∨
        (∃ x, i = .faLast x ∧ e = true ∧ d = some x)) ∧
      s.faReset = true ∧ s.fa.cursorsInRange s.cfg = true ∧ t = s.afterBeat e d) := by
  have fifo : ∀ {w r}, (w ≠ none ∨ r ≠ none) → s.fifoStep w r = .next t →
      t = s.resetFifo ∨ (s.fifoReset = true ∧
        ((∃ q, t = s.stepW q) ∨ (∃ b, t = s.stepR b) ∨ (∃ q b, t = s.stepWR q b))) := by
    intro w r hwr hs
    rcases State.fifoStep_next hs with ⟨-, -, rfl⟩ | ⟨q, -, -, hr, rfl⟩ | ⟨b, -, -, hr, rfl⟩ |
      ⟨q, b, -, -, hr, rfl⟩ | ⟨rfl, rfl, rfl⟩
    · exact .inl rfl
    · exact .inr ⟨hr, .inl ⟨q, rfl⟩⟩
    · exact .inr ⟨hr, .inr (.inl ⟨b, rfl⟩)⟩
    · exact .inr ⟨hr, .inr (.inr ⟨q, b, rfl⟩)⟩
    · simp at hwr
  cases i with
  | wrst => exact .inl ⟨by simp [Instr.port], fifo (.inl (by simp)) h⟩
  | wnop => exact .inl ⟨by simp [Instr.port], fifo (.inl (by simp)) h⟩
  | enq d => exact .inl ⟨by simp [Instr.port], fifo (.inl (by simp)) h⟩
  | rrst => exact .inl ⟨by simp [Instr.port], fifo (.inr (by simp)) h⟩
  | rnop => exact .inl ⟨by simp [Instr.port], fifo (.inr (by simp)) h⟩
  | deq => exact .inl ⟨by simp [Instr.port], fifo (.inr (by simp)) h⟩
  | faReset => exact .inr (.inl ⟨rfl, by simpa [exec, execFaReset] using h.symm⟩)
  | faNop =>
    by_cases hr : s.faReset = true
    · exact .inr (.inr (.inl ⟨rfl, hr, by simpa [exec, execFaNop, hr] using h.symm⟩))
    · simp [exec, execFaNop, hr] at h
  | faByte d =>
    exact .inr (.inr (.inr ⟨false, some d, .inl ⟨d, rfl, rfl, rfl⟩, State.beatStep_next h⟩))
  | faEnd =>
    exact .inr (.inr (.inr ⟨true, none, .inr (.inl ⟨rfl, rfl, rfl⟩), State.beatStep_next h⟩))
  | faLast d =>
    exact .inr (.inr (.inr ⟨true, some d, .inr (.inr ⟨d, rfl, rfl, rfl⟩), State.beatStep_next h⟩))

end Sys2Proof.Machine
end

