-- ==== Sys2Proof/Laws/Calls.lean ====
section
/-! SUPPORT. What sequences of operations can do, and the small lemmas of the packet bus and of faulted states. -/

namespace Sys2Proof.Machine

/-! ### Sequences -/

@[simp] theorem execAll_nil (s : State) : execAll [] s = .next s := rfl

/-- A sequence goes on from the next state of its first operation. -/
theorem execAll_cons {i : Instr} {s t : State} (h : exec i s = .next t) (is : List Instr) :
    execAll (i :: is) s = execAll is t := by simp [execAll, h]

/-- If a sequence answers a next state, so did its first operation, and the others from there. -/
theorem execAll_cons_next {i : Instr} {is : List Instr} {s u : State} (h : execAll (i :: is) s = .next u) :
    ∃ t, exec i s = .next t ∧ execAll is t = .next u := by
  unfold execAll at h
  split at h
  · exact ⟨_, ‹_›, h⟩
  · cases h
  · cases h

/-- A sequence goes on from the next state of its first part. -/
theorem execAll_append {is : List Instr} {s t : State} (h : execAll is s = .next t) (js : List Instr) :
    execAll (is ++ js) s = execAll js t := by
  induction is generalizing s with
  | nil => cases h; rfl
  | cons i is ih =>
    obtain ⟨u, hu, ht⟩ := execAll_cons_next h
    rw [List.cons_append, execAll_cons hu, ih ht]

/-- The drop-oldest pattern is the `ENQ` alone where the byte is accepted (spec/40_ringbuffer_ops.md R148). -/
theorem enqDropOldest_accepted {d : Byte} {s t : State} (h : exec (.enq d) s = .next t)
    (hf : s.fifo.wfull s.cfg = false) (before after : List Instr) :
    enqDropOldest d before after s = .next t := by
  simp [enqDropOldest, h, Fifo.wfail, hf]

/-- Where the byte is refused, the idle operations, the `DEQ` and the second `ENQ` follow (R148). -/
theorem enqDropOldest_refused {d : Byte} {s t : State} (h : exec (.enq d) s = .next t)
    (hf : s.fifo.wfull s.cfg = true) (before after : List Instr) :
    enqDropOldest d before after s = execAll (before ++ .deq :: after ++ [.enq d]) t := by
  simp [enqDropOldest, h, Fifo.wfail, hf]

@[simp] theorem idlePorts_nil : idlePorts [] = true := rfl

@[simp] theorem idlePorts_cons (i : Instr) (is : List Instr) :
    idlePorts (i :: is) = true ↔ (i = .wnop ∨ i = .rnop) ∧ idlePorts is = true := by
  simp [idlePorts]

/-! ### The packet bus -/

@[simp] theorem busValue_nil : busValue [] = 0 := rfl

@[simp] theorem busValue_cons (b : Byte) (bs : List Byte) : busValue (b :: bs) = b.toNat + 256 * busValue bs := rfl

@[simp] theorem Assembler.pins_pktBus (c : Config) (a : Assembler) :
    (a.pins c).pktBus = busValue (Memory.bytes a.pkt c.pkt) := rfl

/-! ### Faulted states -/

theorem State.unfaulted_iff_not_faulted (s : State) : s.unfaulted ↔ ¬ s.faulted := by
  simp [State.unfaulted, State.faulted]

@[simp] theorem State.markFaulted_cfg (s : State) : s.markFaulted.cfg = s.cfg := rfl

@[simp] theorem State.markFaulted_fifo (s : State) : s.markFaulted.fifo = s.fifo := rfl

@[simp] theorem State.markFaulted_fifoReset (s : State) : s.markFaulted.fifoReset = s.fifoReset := rfl

@[simp] theorem State.markFaulted_faReset (s : State) : s.markFaulted.faReset = s.faReset := rfl

@[simp] theorem State.markFaulted_stimulus (s : State) : s.markFaulted.stimulus = s.stimulus := rfl

@[simp] theorem State.markFaulted_fifoLog (s : State) : s.markFaulted.fifoLog = s.fifoLog := rfl

@[simp] theorem State.markFaulted_faLog (s : State) : s.markFaulted.faLog = s.faLog := rfl

@[simp] theorem State.markFaulted_fa (s : State) : s.markFaulted.fa = { s.fa with loOvf := true } := rfl

theorem State.faulted_markFaulted (s : State) : s.markFaulted.faulted := rfl

theorem State.markFaulted_of_faulted {s : State} (h : s.faulted) : s.markFaulted = s := by
  obtain ⟨c, f, ⟨⟩, _⟩ := s
  cases h
  rfl

theorem State.not_final_of_faulted {s : State} (h : s.faulted) : ¬ s.final :=
  fun hf => (s.unfaulted_iff_not_faulted.mp hf.2) h

end Sys2Proof.Machine
end

