-- ==== Sys2Proof/Laws/PerInstr.lean ====
section
/-! SUPPORT. Statements made per instruction: the encoding of an operation selects the row of its own mnemonic in
the operation map (spec/30_encoding.md R105). -/

namespace Sys2Proof.Laws

/-- The rows an operation's encoding selects are exactly the one of its mnemonic, whose format is its port's. -/
def EncodedRow.Statement (i : Instr) : Prop :=
  (opRows.filter fun r => r.selectedBy (encode i)).map OpRow.mnemonic = [i.mnemonic] ∧
    (encode i).port = i.port

theorem EncodedRow.wrst : EncodedRow.Statement .wrst := by unfold EncodedRow.Statement; decide

theorem EncodedRow.wnop : EncodedRow.Statement .wnop := by unfold EncodedRow.Statement; decide

theorem EncodedRow.enq (d : Byte) : EncodedRow.Statement (.enq d) := by
  unfold EncodedRow.Statement; revert d; decide

theorem EncodedRow.rrst : EncodedRow.Statement .rrst := by unfold EncodedRow.Statement; decide

theorem EncodedRow.rnop : EncodedRow.Statement .rnop := by unfold EncodedRow.Statement; decide

theorem EncodedRow.deq : EncodedRow.Statement .deq := by unfold EncodedRow.Statement; decide

theorem EncodedRow.faReset : EncodedRow.Statement .faReset := by unfold EncodedRow.Statement; decide

theorem EncodedRow.faNop : EncodedRow.Statement .faNop := by unfold EncodedRow.Statement; decide

theorem EncodedRow.faByte (d : Byte) : EncodedRow.Statement (.faByte d) := by
  unfold EncodedRow.Statement; revert d; decide

theorem EncodedRow.faEnd : EncodedRow.Statement .faEnd := by unfold EncodedRow.Statement; decide

theorem EncodedRow.faLast (d : Byte) : EncodedRow.Statement (.faLast d) := by
  unfold EncodedRow.Statement; revert d; decide

end Sys2Proof.Laws
end

