-- ==== Sys2Proof/Tests/Slice0.lean ====
section
/-! SUPPORT. Tests: decoding of written-out words, the well-formedness checks, one step per operation with the
results of spec/95_test_vectors.md, and a witness for the hypotheses of each statement. -/

namespace Sys2Proof.Tests

open Sys2Proof.Machine

/-! ### Decoding: the words of spec/95_test_vectors.md section 4, bit by bit from R101 to R105 -/

theorem test_decode_enq : decode (.write 0b1101000001) = .enq 0x41 := by decide

theorem test_decode_enq_ff : decode (.write 0b1111111111) = .enq 0xFF := by decide

theorem test_decode_wnop : decode (.write 0b1001011010) = .wnop := by decide

theorem test_decode_wrst_wins_over_winc : decode (.write 0b0101000001) = .wrst := by decide

theorem test_decode_deq : decode (.read 0b11) = .deq := by decide

theorem test_decode_rnop : decode (.read 0b10) = .rnop := by decide

theorem test_decode_rrst : decode (.read 0b01) = .rrst := by decide

theorem test_decode_fa_byte : decode (.assembler 0b10100000001) = .faByte 0x01 := by decide

theorem test_decode_fa_last : decode (.assembler 0b11100000110) = .faLast 0x06 := by decide

theorem test_decode_fa_end : decode (.assembler 0b11010011001) = .faEnd := by decide

theorem test_decode_fa_nop : decode (.assembler 0b10000000000) = .faNop := by decide

theorem test_decode_fa_reset_wins : decode (.assembler 0b01111111111) = .faReset := by decide

theorem test_encode_enq : encode (.enq 0x41) = .write 0x341 := by decide

theorem test_encode_fa_last : encode (.faLast 0x06) = .assembler 0x706 := by decide

theorem test_table_words :
    decodeTableWord 16 0x341 = some (.enq 0x41) ∧ decodeTableWord 8 0x3 = some .deq ∧
    decodeTableWord 16 0x501 = some (.faByte 0x01) ∧ decodeTableWord 11 0x000 = some .faReset ∧
    decodeTableWord 16 0x800 = none := by decide

/-! ### The well-formedness checks refuse ill-formed terms -/

theorem smoke_capacity_not_power_of_two : Config.build 6 3 3 = .error .capacityNotPowerOfTwo := by decide

theorem smoke_addrW_zero : Config.build 1 3 3 = .error .addrWZero := by decide

theorem smoke_packet_empty : Config.build 4 0 3 = .error .packetEmpty := by decide

theorem smoke_leftover_too_small : Config.build 4 3 2 = .error .leftoverTooSmall := by decide

theorem smoke_scenario_builds : Config.build 4 3 3 = .ok .scenario := by decide

theorem smoke_word_too_wide : decodeNumber .write 0x400 = .error (.widerThanPort .write) := by decide

theorem smoke_line_resets_write_domain_only : (Line.w 0x000).wellFormed = false := by decide

theorem smoke_line_resets_read_domain_only : (Line.wr 0x200 0b00).wellFormed = false := by decide

theorem smoke_line_joint_reset : (Line.wr 0x000 0b01).wellFormed = true := by decide

/-! ### Small states -/

/-- The reset state with the lines `ls` to come. -/
def withLines (s : State) (ls : List Line) : State := { s with stimulus := ls }

/-- The FIFO of T1 row 4 (`N = 2`): full, the reader has not seen a byte. -/
def fullUnseen : Fifo :=
  { wd := { mem := [(0, 0x41), (1, 0x42), (2, 0x43), (3, 0x44)], wbin := 4, wgray := 6, wq1Rptr := 0, wq2Rptr := 0 }
    rd := { rbin := 0, rgray := 0, rq1Wptr := 0, rq2Wptr := 0 } }

/-- The FIFO of T1 row 7: full, the reader has seen all bytes. -/
def fullSeen : Fifo := { fullUnseen with rd := { fullUnseen.rd with rq1Wptr := 6, rq2Wptr := 6 } }

/-- The FIFO of T1 row 10: three bytes, both sides settled; `tail` is 0. -/
def threeSettled : Fifo :=
  { wd := { fullUnseen.wd with wq1Rptr := 1, wq2Rptr := 1 }
    rd := { rbin := 1, rgray := 1, rq1Wptr := 6, rq2Wptr := 6 } }

/-- The reset machine with another FIFO. -/
def withFifo (f : Fifo) : State := { State.reset with fifo := f }

/-- The reset machine with another assembler. -/
def withFa (a : Assembler) : State := { State.reset with fa := a }

/-- `P = 3`, in FILL, the bytes 01 02 received. -/
def fillTwo : Assembler := { Assembler.zero with buf := [(0, 0x01), (1, 0x02)], w := 2, fsm := .fill }

/-- F1 row 4: in SPILL, one byte staged. -/
def spillOne : Assembler :=
  { Assembler.zero with
    buf := [(0, 0x01), (1, 0x02), (2, 0x03)], pkt := [(0, 0x01), (1, 0x02), (2, 0x03)],
    lo := [(0, 0x04)], loLen := 1, loPend := true, fsm := .spill }

/-- F1 row 6: between calls, three bytes staged. -/
def idleThree : Assembler :=
  { spillOne with lo := [(0, 0x04), (1, 0x05), (2, 0x06)], loLen := 3, fsm := .idle,
                  resValid := true, resComplete := true }

/-- In SPILL with the leftover buffer full (F3 row 9). -/
def spillFull : Assembler := { idleThree with fsm := .spill, resValid := false }

/-- Between calls, one byte staged, `w = 0`. -/
def idleOne : Assembler := { spillOne with fsm := .idle }

/-- A view of the next state. -/
def onNext {α : Type} (r : Result) (view : State → α) : Option α :=
  match r with
  | .next t => some (view t)
  | .fault _ => none
  | .refused _ => none

/-! ### One step per operation (the rows of spec/95_test_vectors.md named) -/

/-- T1 row 4: the byte goes to slot 3 and the FIFO is full. -/
theorem test_enq_last_slot :
    onNext (step (withLines (withFifo { fullUnseen with
        wd := { fullUnseen.wd with mem := [(0, 0x41), (1, 0x42), (2, 0x43)], wbin := 3, wgray := 2 } }) [.w 0x344]))
      (fun t => (t.fifo, t.fifo.wfull t.cfg, t.fifoLog)) =
      some (fullUnseen, true, [.write (some 0x44) false true false]) := by decide

/-- T1 row 11: `tail` has wrapped, slot 0 is rewritten. -/
theorem test_enq_wraps :
    onNext (exec (.enq 0x45) (withFifo threeSettled)) (fun t => (t.fifo.wd.mem, t.fifo.wd.wbin, t.fifo.wd.wgray)) =
      some ([(0, 0x45), (1, 0x42), (2, 0x43), (3, 0x44)], 5, 7) := by decide

/-- T1 row 9: a failed `ENQ` still moves the synchroniser. -/
theorem test_enq_full_moves_synchroniser :
    onNext (exec (.enq 0x45) (withFifo { fullSeen with rd := { fullSeen.rd with rbin := 1, rgray := 1 } }))
      (fun t => (t.fifo.wd, t.fifoLog)) =
      some ({ fullUnseen.wd with wq1Rptr := 1 }, [.write (some 0x45) true false true]) := by decide

/-- T1 row 10. -/
theorem test_wnop :
    onNext (exec .wnop (withFifo { threeSettled with wd := { threeSettled.wd with wq2Rptr := 0 } }))
      (fun t => (t.fifo, t.fifoLog)) = some (threeSettled, [.write none true false false]) := by decide

/-- T1 row 8: `DEQ` returns 41 and does not clear the slot. -/
theorem test_deq :
    onNext (exec .deq (withFifo fullSeen)) (fun t => (t.fifo.rd.rbin, t.fifo.rd.rgray, t.fifo.wd.mem, t.fifoLog)) =
      some (1, 1, fullSeen.wd.mem, [.read true false 0x41 true]) := by decide

/-- T1 row 19 and T4 row 10: `DEQ` on empty returns the sentinel. -/
theorem test_deq_empty :
    onNext (exec .deq State.reset) (fun t => (t.fifo, t.fifoLog)) =
      some (Fifo.zero, [.read true true 0x00 false]) := by decide

/-- T1 row 6. -/
theorem test_rnop :
    onNext (exec .rnop (withFifo fullUnseen)) (fun t => (t.fifo.rd.rq1Wptr, t.fifo.rd.rq2Wptr, t.fifoLog)) =
      some (6, 0, [.read false true 0x00 false]) := by decide

/-- T3 row 1: in a WR step the read half samples `wgray` before the write half's increment. -/
theorem test_wr_reads_before :
    onNext (step (withLines State.reset [.wr 0x3A0 0b11]))
      (fun t => (t.fifo.wd.wgray, t.fifo.rd.rq1Wptr, t.fifoLog)) =
      some (1, 0, [.read true true 0x00 false, .write (some 0xA0) false true false]) := by decide

/-- T4 row 7: RESET discards silently. -/
theorem test_reset :
    onNext (step (withLines (withFifo fullSeen) [.wr 0x000 0b00])) (fun t => t.fifo) = some Fifo.zero := by decide

theorem test_rrst_same_step :
    onNext (exec .rrst (withLines (withFifo fullSeen) [.wr 0x000 0b00])) (fun t => t.fifo) =
      some Fifo.zero := by decide

theorem test_wrst_alone_is_refused :
    (step (withLines State.reset [.w 0x141]) matches .refused .partialReset) = true := by decide

/-- F1 row 0. -/
theorem test_fa_reset : onNext (exec .faReset (withFa spillFull)) (fun t => t.fa) = some Assembler.zero := by decide

/-- F1 row 7. -/
theorem test_fa_nop :
    onNext (exec .faNop (withFa idleThree)) (fun t => t.fa) = some { idleThree with resValid := false } := by decide

/-- F1 row 3: the third byte completes the packet. -/
theorem test_fa_byte_completes :
    onNext (exec (.faByte 0x03) (withFa fillTwo)) (fun t => (t.fa.w, t.fa.fsm, t.fa.packet t.cfg)) =
      some (0, .spill, [0x01, 0x02, 0x03]) := by decide

/-- F3 row 10 as a `FA_BYTE`: the byte is discarded and `lo_ovf` set. -/
theorem test_fa_byte_overflows :
    onNext (exec (.faByte 0x29) (withFa spillFull)) (fun t => (t.fa.lo, t.fa.loLen, t.fa.loOvf)) =
      some (spillFull.lo, 3, true) := by decide

/-- F1 row 2. -/
theorem test_fa_last_incomplete :
    onNext (exec (.faLast 0x02) (withFa { fillTwo with buf := [(0, 0x01)], w := 1 }))
      (fun t => (t.fa.buf, t.fa.w, t.fa.fsm, t.fa.resValid, t.fa.resComplete)) =
      some ([(0, 0x01), (1, 0x02)], 2, .idle, true, false) := by decide

/-- F2 row 10: the drain and the byte complete a packet in one beat. -/
theorem test_fa_last_drains_first :
    onNext (exec (.faLast 0x18) (withFa { idleOne with lo := [(0, 0x16), (1, 0x17)], loLen := 2 }))
      (fun t => (t.fa.packet t.cfg, t.fa.loLen, t.fa.loPend, t.fa.resComplete)) =
      some ([0x16, 0x17, 0x18], 0, false, true) := by decide

/-- F1 row 8. -/
theorem test_fa_end_completes :
    onNext (exec .faEnd (withFa idleThree)) (fun t => (t.fa.packet t.cfg, t.fa.lo, t.fa.loLen, t.fa.resComplete)) =
      some ([0x04, 0x05, 0x06], [], 0, true) := by decide

/-- F2 row 11: an empty call with nothing staged is `Incomplete`. -/
theorem test_fa_end_incomplete :
    onNext (exec .faEnd State.reset) (fun t => (t.fa.resValid, t.fa.resComplete, t.fa.fsm)) =
      some (true, false, .idle) := by decide

/-- Section 2.5: the grey code of three bits and its inverse. -/
theorem test_grey_three_bits :
    (List.range 8).map b2g = [0, 1, 3, 2, 6, 7, 5, 4] ∧
    (List.range 8).map (fun b => g2b 3 (b2g b)) = List.range 8 := by decide

/-! ### The invariant on small states -/

theorem fullSeen_inv : fullSeen.Inv Config.scenario := by
  refine ⟨⟨?_, ?_, ?_, ?_, ?_, ?_, ?_, ?_, ?_, ?_⟩, ?_, ?_, ?_, ?_, ?_, ⟨?_, ?_⟩, ⟨?_, ?_⟩⟩ <;> decide

theorem fullUnseen_inv : fullUnseen.Inv Config.scenario := by
  refine ⟨⟨?_, ?_, ?_, ?_, ?_, ?_, ?_, ?_, ?_, ?_⟩, ?_, ?_, ?_, ?_, ?_, ⟨?_, ?_⟩, ⟨?_, ?_⟩⟩ <;> decide

theorem threeSettled_inv : threeSettled.Inv Config.scenario := by
  refine ⟨⟨?_, ?_, ?_, ?_, ?_, ?_, ?_, ?_, ?_, ?_⟩, ?_, ?_, ?_, ?_, ?_, ⟨?_, ?_⟩, ⟨?_, ?_⟩⟩ <;> decide

theorem zero_inv : Fifo.zero.Inv Config.scenario := by
  refine ⟨⟨?_, ?_, ?_, ?_, ?_, ?_, ?_, ?_, ?_, ?_⟩, ?_, ?_, ?_, ?_, ?_, ⟨?_, ?_⟩, ⟨?_, ?_⟩⟩ <;> decide

theorem faZero_inv : Assembler.zero.Inv Config.scenario := by
  refine ⟨⟨?_, ?_, ?_, ?_, ?_, ?_, ?_⟩, ?_, ?_, ?_, ?_, ?_⟩ <;> decide

theorem fillTwo_inv : fillTwo.Inv Config.scenario := by
  refine ⟨⟨?_, ?_, ?_, ?_, ?_, ?_, ?_⟩, ?_, ?_, ?_, ?_, ?_⟩ <;> decide

theorem spillOne_inv : spillOne.Inv Config.scenario := by
  refine ⟨⟨?_, ?_, ?_, ?_, ?_, ?_, ?_⟩, ?_, ?_, ?_, ?_, ?_⟩ <;> decide

theorem spillFull_inv : spillFull.Inv Config.scenario := by
  refine ⟨⟨?_, ?_, ?_, ?_, ?_, ?_, ?_⟩, ?_, ?_, ?_, ?_, ?_⟩ <;> decide

theorem idleThree_inv : idleThree.Inv Config.scenario := by
  refine ⟨⟨?_, ?_, ?_, ?_, ?_, ?_, ?_⟩, ?_, ?_, ?_, ?_, ?_⟩ <;> decide

theorem idleOne_inv : idleOne.Inv Config.scenario := by
  refine ⟨⟨?_, ?_, ?_, ?_, ?_, ?_, ?_⟩, ?_, ?_, ?_, ?_, ?_⟩ <;> decide

theorem inv_withFifo {f : Fifo} (h : f.Inv Config.scenario) : (withFifo f).Inv := ⟨fun _ => h, fun _ => faZero_inv⟩

theorem inv_withFa {a : Assembler} (h : a.Inv Config.scenario) : (withFa a).Inv := ⟨fun _ => zero_inv, fun _ => h⟩

theorem inv_withLines {s : State} (h : s.Inv) (ls : List Line) : (withLines s ls).Inv := ⟨h.fifo, h.fa⟩

theorem reset_inv : State.reset.Inv := ⟨fun _ => zero_inv, fun _ => faZero_inv⟩

theorem alone_of_empty (s : State) : (withLines s []).alone := ⟨rfl, rfl⟩

/-! ### Witnesses: states and operands that meet the hypotheses of each statement

The theorem `witness_X` (or one for each clause, `witness_X_<clause>`) belongs to `Obligations.X`. -/

theorem witness_DecodeAgreesWithEncode : (Instr.enq 0xFF).wellFormed = true ∧ (Instr.faLast 0x00).wellFormed = true := by
  decide

theorem witness_StepRunsTheDecodedOperation_next :
    (withLines State.reset [.w 0x341]).stimulus = [.w 0x341] ∧
    (exec (Line.w 0x341).instr (withLines State.reset [.w 0x341]) matches .next _) = true := by decide

theorem witness_StepRunsTheDecodedOperation_fault :
    (exec (Line.f 0x600).instr (withLines (withFa { fillTwo with w := 3 }) [.f 0x600]) matches .fault _) = true := by
  decide

theorem witness_StepRunsTheDecodedOperation_refused :
    (exec (Line.r 0b00).instr (withLines State.reset [.r 0b00]) matches .refused _) = true := by decide

theorem witness_StepRunsTheDecodedOperation_empty : State.reset.stimulus = [] := rfl

theorem witness_CoincidentStepIsTheSameFromEitherHalf :
    (withLines State.reset [.wr 0x3A0 0b11]).stimulus = [.wr 0x3A0 0b11] := rfl

theorem witness_ResetBlocksExecuteAllButAPartialReset :
    (withLines State.reset [.wr 0x3A0 0b11]).Inv ∧ State.reset.fifoReset = true ∧ State.reset.faReset = true ∧
    (Line.wr 0x3A0 0b11).wellFormed = true ∧ (Line.wr 0x1FF 0b01).wellFormed = true :=
  ⟨inv_withLines reset_inv _, rfl, rfl, by decide, by decide⟩

theorem witness_ResetBlocksExecuteAllButAPartialReset_refused :
    (Line.wr 0x1FF 0b11).wellFormed = false ∧ (Line.wr 0x200 0b01).wellFormed = false ∧
    (Line.w 0x1FF).wellFormed = false ∧ (Line.r 0b01).wellFormed = false := by decide

theorem witness_InvariantStatesNeverFault : (withFa spillFull).Inv := inv_withFa spillFull_inv

theorem witness_JointResetClearsTheFifo :
    (withLines (withFifo fullSeen) [.wr 0x000 0b00]).coincidentRead = some .reset ∧
    (withLines (withFifo fullSeen) [.wr 0x000 0b00]).coincidentWrite = some .reset := by decide

theorem witness_PartialResetIsRefused_alone :
    State.reset.coincidentRead ≠ some .reset ∧ State.reset.coincidentWrite ≠ some .reset := by decide

theorem witness_PartialResetIsRefused_coincident :
    (withLines State.reset [.wr 0x341 0b00]).coincidentRead = some .reset ∧
    (withLines State.reset [.wr 0x000 0b11]).coincidentWrite = some .reset := by decide

theorem witness_UnresetBlocksExecuteNothing :
    let s := { State.reset with fifoReset := false, faReset := false }
    s.fifoReset = false ∧ s.faReset = false ∧ s.coincidentRead ≠ some .reset ∧ s.coincidentWrite ≠ some .reset := by
  decide

theorem witness_EnqStoresTheByteWhenNotFull_alone :
    (withFifo threeSettled).fifoReset = true ∧ (withFifo threeSettled).coincidentRead = none ∧
    Memory.wf (withFifo threeSettled).fifo.wd.mem = true ∧
    (withFifo threeSettled).fifo.wfull (withFifo threeSettled).cfg = false := by decide

theorem witness_EnqStoresTheByteWhenNotFull_coincident :
    let s := withLines (withFifo threeSettled) [.wr 0x345 0b11]
    s.fifoReset = true ∧ s.coincidentRead = some (.edge true) ∧ Memory.wf s.fifo.wd.mem = true ∧
    s.fifo.wfull s.cfg = false := by decide

theorem witness_EnqDropsTheByteWhenFull_alone :
    (withFifo fullSeen).fifoReset = true ∧ (withFifo fullSeen).coincidentRead = none ∧
    (withFifo fullSeen).fifo.wfull (withFifo fullSeen).cfg = true := by decide

theorem witness_EnqDropsTheByteWhenFull_coincident :
    let s := withLines (withFifo fullSeen) [.wr 0x345 0b10]
    s.fifoReset = true ∧ s.coincidentRead = some (.edge false) ∧ s.fifo.wfull s.cfg = true := by decide

theorem witness_WnopOnlySynchronises :
    State.reset.fifoReset = true ∧ State.reset.coincidentRead = none ∧
    (withLines State.reset [.wr 0x200 0b10]).coincidentRead = some (.edge false) := by decide

theorem witness_DeqReturnsTheHeadWhenNotEmpty_alone :
    (withFifo fullSeen).fifoReset = true ∧ (withFifo fullSeen).coincidentWrite = none ∧
    (withFifo fullSeen).fifo.rempty = false := by decide

theorem witness_DeqReturnsTheHeadWhenNotEmpty_coincident :
    let s := withLines (withFifo fullSeen) [.wr 0x345 0b11]
    s.fifoReset = true ∧ s.coincidentWrite = some (.edge (some 0x45)) ∧ s.fifo.rempty = false := by decide

theorem witness_DeqReturnsZeroWhenEmpty_alone :
    (withFifo fullUnseen).fifoReset = true ∧ (withFifo fullUnseen).coincidentWrite = none ∧
    (withFifo fullUnseen).fifo.rempty = true := by decide

theorem witness_DeqReturnsZeroWhenEmpty_coincident :
    let s := withLines State.reset [.wr 0x200 0b11]
    s.fifoReset = true ∧ s.coincidentWrite = some (.edge none) ∧ s.fifo.rempty = true := by decide

theorem witness_RnopOnlySynchronises :
    State.reset.fifoReset = true ∧ State.reset.coincidentWrite = none ∧
    (withLines State.reset [.wr 0x3FF 0b10]).coincidentWrite = some (.edge (some 0xFF)) := by decide

theorem witness_CoincidentHalvesSeeTheStateBefore :
    let s := withLines (withFifo threeSettled) [.wr 0x345 0b11]
    s.stimulus = [.wr 0x345 0b11] ∧ s.fifoReset = true ∧
    (0x345 : WriteWord).getLsbD 9 = true ∧ (0b11 : ReadWord).getLsbD 1 = true := by decide

theorem witness_GreyCodeIsInverseAndOneBitApart : 7 < 2 ^ 3 ∧ 0 < 3 ∧ 1 ≤ 3 := by decide

theorem witness_PointersWrapAndSlotsFollow :
    7 < 2 ^ (Config.scenario.addrW + 1) ∧ 0 < 2 ^ (Config.scenario.addrW + 1) := by decide

theorem witness_FlagsAreTheDomainsCounts : fullSeen.Inv Config.scenario := fullSeen_inv

theorem witness_FlagsAreSafeAndExactWhenSettled :
    threeSettled.Inv Config.scenario ∧ threeSettled.wfull Config.scenario = false ∧
    threeSettled.rempty = false ∧ threeSettled.settled = true :=
  ⟨threeSettled_inv, by decide, by decide, by decide⟩

theorem witness_CountFollowsTheOperations :
    (withFifo threeSettled).Inv ∧ (withFifo threeSettled).fifoReset = true ∧ (withFifo threeSettled).alone ∧
    (exec (.enq 0x00) (withFifo threeSettled) matches .next _) = true ∧
    (exec .deq (withFifo threeSettled) matches .next _) = true ∧
    (exec .wnop (withFifo threeSettled) matches .next _) = true ∧
    (exec .rnop (withFifo threeSettled) matches .next _) = true :=
  ⟨inv_withFifo threeSettled_inv, rfl, ⟨rfl, rfl⟩, by decide, by decide, by decide, by decide⟩

theorem witness_CountFollowsTheOperations_full : (withFifo fullSeen).Inv ∧ (withFifo fullSeen).alone :=
  ⟨inv_withFifo fullSeen_inv, ⟨rfl, rfl⟩⟩

theorem witness_AcceptedWriteAndReadUseDifferentSlots :
    threeSettled.Inv Config.scenario ∧ threeSettled.wfull Config.scenario = false ∧ threeSettled.rempty = false :=
  ⟨threeSettled_inv, by decide, by decide⟩

theorem witness_OwnFlagRisesOnlyByOwnOperation_full :
    (withLines (withFifo threeSettled) [.w 0x345]).Inv ∧ threeSettled.wfull Config.scenario = false ∧
    onNext (step (withLines (withFifo threeSettled) [.w 0x345])) (fun t => t.fifo.wfull t.cfg) = some true :=
  ⟨inv_withLines (inv_withFifo threeSettled_inv) _, by decide, by decide⟩

/-- One byte, seen by the reader (T2 style): the dequeue empties the reader's view. -/
theorem witness_OwnFlagRisesOnlyByOwnOperation_empty :
    let f : Fifo := { threeSettled with rd := { threeSettled.rd with rbin := 3, rgray := 2 } }
    f.Inv Config.scenario ∧ f.rempty = false ∧
    onNext (step (withLines (withFifo f) [.r 0b11])) (fun t => t.fifo.rempty) = some true := by
  refine ⟨⟨⟨?_, ?_, ?_, ?_, ?_, ?_, ?_, ?_, ?_, ?_⟩, ?_, ?_, ?_, ?_, ?_, ⟨?_, ?_⟩, ⟨?_, ?_⟩⟩, ?_, ?_⟩ <;> decide

theorem witness_EnqueueIsVisibleAfterTwoReadSteps :
    State.reset.Inv ∧ State.reset.fifoReset = true ∧ State.reset.alone ∧
    State.reset.fifo.count State.reset.cfg = 0 ∧ State.reset.fifo.wfull State.reset.cfg = false :=
  ⟨reset_inv, rfl, ⟨rfl, rfl⟩, by decide, by decide⟩

theorem witness_DequeueIsVisibleAfterTwoWriteSteps :
    (withFifo fullSeen).Inv ∧ (withFifo fullSeen).fifoReset = true ∧ (withFifo fullSeen).alone ∧
    fullSeen.wfull Config.scenario = true ∧ fullSeen.rempty = false ∧
    fullSeen.wd.wq1Rptr = fullSeen.rd.rgray ∧ fullSeen.wd.wq2Rptr = fullSeen.rd.rgray :=
  ⟨inv_withFifo fullSeen_inv, rfl, ⟨rfl, rfl⟩, by decide, by decide, by decide, by decide⟩

theorem witness_DropOldestKeepsTheMostRecentBytes_accepted :
    (withFifo threeSettled).Inv ∧ (withFifo threeSettled).fifoReset = true ∧ (withFifo threeSettled).alone ∧
    threeSettled.wfull Config.scenario = false :=
  ⟨inv_withFifo threeSettled_inv, rfl, ⟨rfl, rfl⟩, by decide⟩

/-- Program P2, lines 3 to 9: two R steps before the `DEQ`, two W steps after it. -/
theorem witness_DropOldestKeepsTheMostRecentBytes_unseen :
    (withFifo fullUnseen).Inv ∧ (withFifo fullUnseen).alone ∧ fullUnseen.wfull Config.scenario = true ∧
    idlePorts [.rnop, .rnop] = true ∧ idlePorts [.wnop, .wnop] = true ∧ 2 ≤ [Instr.wnop, .wnop].count .wnop ∧
    0 < fullUnseen.count Config.scenario ∧ 2 ≤ [Instr.rnop, .rnop].count .rnop ∧
    onNext (enqDropOldest 0x45 [.rnop, .rnop] [.wnop, .wnop] (withFifo fullUnseen)) (fun t => t.fifo.stored t.cfg) =
      some ((fullUnseen.stored Config.scenario).tail ++ [0x45]) :=
  ⟨inv_withFifo fullUnseen_inv, ⟨rfl, rfl⟩, by decide, by decide, by decide, by decide, by decide, by decide,
    by decide⟩

theorem witness_DropOldestKeepsTheMostRecentBytes_seen :
    (withFifo fullSeen).Inv ∧ (withFifo fullSeen).fifoReset = true ∧ (withFifo fullSeen).alone ∧
    fullSeen.wfull Config.scenario = true ∧ fullSeen.rempty = false ∧
    idlePorts [] = true ∧ idlePorts [.wnop, .rnop, .wnop] = true ∧ 2 ≤ [Instr.wnop, .rnop, .wnop].count .wnop ∧
    onNext (enqDropOldest 0x45 [] [.wnop, .rnop, .wnop] (withFifo fullSeen)) (fun t => t.fifo.stored t.cfg) =
      some ((fullSeen.stored Config.scenario).tail ++ [0x45]) :=
  ⟨inv_withFifo fullSeen_inv, rfl, ⟨rfl, rfl⟩, by decide, by decide, by decide, by decide, by decide, by decide⟩

theorem witness_OnlyGreyPointersCrossTheDomains_read :
    let s := withFifo fullSeen
    let s' := withFifo { fullSeen with wd := { fullSeen.wd with wq1Rptr := 1, wbin := 5 } }
    s.cfg = s'.cfg ∧ s.fifo.rd = s'.fifo.rd ∧ s.fifo.wd.wgray = s'.fifo.wd.wgray ∧
    s.fifo.wd.mem = s'.fifo.wd.mem ∧ s.coincidentWrite = none ∧ s'.coincidentWrite = none ∧
    (exec .deq s matches .next _) = true ∧ (exec .deq s' matches .next _) = true := by decide

theorem witness_OnlyGreyPointersCrossTheDomains_write :
    let s := withFifo fullSeen
    let s' := withFifo { fullSeen with rd := { fullSeen.rd with rq1Wptr := 1, rbin := 5 } }
    s.cfg = s'.cfg ∧ s.fifo.wd = s'.fifo.wd ∧ s.fifo.rd.rgray = s'.fifo.rd.rgray ∧
    (exec .wnop s matches .next _) = true ∧ (exec .wnop s' matches .next _) = true := by decide

theorem witness_EveryStepKeepsTheInvariants :
    (withLines (withFifo threeSettled) [.wr 0x345 0b11]).Inv ∧
    (step (withLines (withFifo threeSettled) [.wr 0x345 0b11]) matches .next _) = true :=
  ⟨inv_withLines (inv_withFifo threeSettled_inv) _, by decide⟩

theorem witness_EveryStepKeepsFifoOrder :
    let s := { withLines (withFifo fullSeen) [.r 0b11] with
      fifoLog := [.write (some 0x44) false true false, .write (some 0x43) false true false,
        .write (some 0x42) false true false, .write (some 0x41) false true false] }
    s.Inv ∧ s.fifo.InOrder s.cfg s.fifoLog ∧ (step s matches .next _) = true := by
  refine ⟨⟨fun _ => fullSeen_inv, fun _ => faZero_inv⟩, ?_, ?_⟩
  · show acceptedBytes _ = deliveredBytes _ ++ Fifo.stored _ _
    decide
  · decide

theorem witness_EveryStepKeepsTheStream :
    let s := { withLines (withFa fillTwo) [.f 0x503] with
      faLog := [.beat false (some 0x02) none, .beat false (some 0x01) none] }
    s.Inv ∧ s.unfaulted ∧ s.fa.StreamKept s.cfg s.faLog ∧ (step s matches .next _) = true := by
  refine ⟨⟨fun _ => zero_inv, fun _ => fillTwo_inv⟩, rfl, ?_, ?_⟩
  · show completedBytes _ _ _ ++ Memory.bytes _ _ ++ Memory.bytes _ _ = fedBytes _
    decide
  · decide

theorem witness_DeliveredIsAPrefixOfAccepted :
    let s : State :=
      { withLines (withFifo fullSeen) [.wr 0x200 0b11] with
        fifoLog :=
          [.write (some 0x44) false true false, .write (some 0x43) false true false,
            .write (some 0x42) false true false, .write (some 0x41) false true false] }
    s.Inv ∧ s.fifoReset = true ∧ s.fifo.InOrder s.cfg s.fifoLog ∧
    onNext (step s) (fun t => (deliveredBytes t.fifoLog, acceptedBytes t.fifoLog, t.fifo.count t.cfg)) =
      some ([0x41], [0x41, 0x42, 0x43, 0x44], 3) :=
  ⟨⟨fun _ => fullSeen_inv, fun _ => faZero_inv⟩, rfl,
    by show acceptedBytes _ = deliveredBytes _ ++ Fifo.stored _ _; decide, by decide⟩

theorem witness_CursorsFitTheirWidths : spillFull.Widths Config.scenario ∧ fillTwo.Widths Config.scenario :=
  ⟨spillFull_inv.widths, fillTwo_inv.widths⟩

theorem witness_FaNopOnlyClearsResValid :
    (withFa idleThree).faReset = true ∧ (withFa idleThree).unfaulted := ⟨rfl, rfl⟩

theorem witness_CallStartDrainsTheLeftoverBytes_completes :
    idleThree.loOvf = false ∧ idleThree.Widths Config.scenario ∧
    Memory.within idleThree.loLen idleThree.lo = true ∧ idleThree.fsm = .idle ∧
    idleThree.w + min idleThree.loLen (Config.scenario.pkt - idleThree.w) = Config.scenario.pkt :=
  ⟨rfl, idleThree_inv.widths, by decide, by decide, by decide⟩

theorem witness_CallStartDrainsTheLeftoverBytes_starts :
    idleOne.loOvf = false ∧ idleOne.Widths Config.scenario ∧
    Memory.within idleOne.loLen idleOne.lo = true ∧ idleOne.fsm = .idle ∧
    idleOne.w + min idleOne.loLen (Config.scenario.pkt - idleOne.w) ≠ Config.scenario.pkt :=
  ⟨rfl, idleOne_inv.widths, by decide, by decide, by decide⟩

theorem witness_CallStartDrainsTheLeftoverBytes_inside_a_call :
    spillOne.loOvf = false ∧ spillOne.Widths Config.scenario ∧
    Memory.within spillOne.loLen spillOne.lo = true ∧ spillOne.fsm ≠ .idle :=
  ⟨rfl, spillOne_inv.widths, by decide, by decide⟩

theorem witness_DrainComesFirstInABeat :
    (withFa idleOne).faReset = true ∧ (withFa idleOne).fa.Widths (withFa idleOne).cfg ∧
    (withFa idleOne).unfaulted := ⟨rfl, idleOne_inv.widths, rfl⟩

theorem witness_FaByteFillsThePacket_completes :
    (withFa fillTwo).faReset = true ∧ fillTwo.Widths Config.scenario ∧ fillTwo.fsm = .fill ∧
    fillTwo.w + 1 = Config.scenario.pkt ∧ (withFa fillTwo).unfaulted := ⟨rfl, fillTwo_inv.widths, rfl, rfl, rfl⟩

theorem witness_FaByteFillsThePacket_continues :
    let a : Assembler := { Assembler.zero with fsm := .fill }
    (withFa a).faReset = true ∧ a.Widths Config.scenario ∧ a.fsm = .fill ∧ a.w + 1 ≠ Config.scenario.pkt ∧
    (withFa a).unfaulted :=
  ⟨rfl, ⟨rfl, rfl, rfl, rfl, rfl, by decide, by decide⟩, rfl, by decide, rfl⟩

theorem witness_FaByteStagesTheSurplus_staged :
    let a : Assembler := { spillFull with lo := [(0, 0x04), (1, 0x05)], loLen := 2 }
    a.Widths Config.scenario ∧ a.fsm = .spill ∧ a.loLen < Config.scenario.loCap ∧ a.loOvf = false := by
  refine ⟨⟨?_, ?_, ?_, ?_, ?_, ?_, ?_⟩, ?_, ?_, ?_⟩ <;> decide

theorem witness_FaByteStagesTheSurplus_overflow :
    spillFull.Widths Config.scenario ∧ spillFull.fsm = .spill ∧ spillFull.loLen = Config.scenario.loCap ∧
    spillFull.loOvf = false :=
  ⟨spillFull_inv.widths, rfl, rfl, rfl⟩

theorem witness_FaLastIsTheByteAndTheEnd :
    (withFa idleThree).faReset = true ∧ (withFa idleThree).fa.Widths (withFa idleThree).cfg ∧
    (withFa idleThree).unfaulted :=
  ⟨rfl, idleThree_inv.widths, rfl⟩

theorem witness_FaEndClosesAnOpenCall :
    (withFa fillTwo).faReset = true ∧ fillTwo.Widths Config.scenario ∧ fillTwo.fsm ≠ .idle ∧
    spillOne.Widths Config.scenario ∧ spillOne.fsm ≠ .idle ∧
    (withFa fillTwo).unfaulted ∧ (withFa spillOne).unfaulted :=
  ⟨rfl, fillTwo_inv.widths, by decide, spillOne_inv.widths, by decide, rfl, rfl⟩

theorem witness_EmptyCallCompletesIffAPacketIsStaged_complete :
    (withFa idleThree).faReset = true ∧ idleThree.Widths Config.scenario ∧ idleThree.fsm = .idle ∧
    Config.scenario.pkt ≤ idleThree.w + idleThree.loLen ∧ (withFa idleThree).unfaulted :=
  ⟨rfl, idleThree_inv.widths, rfl, by decide, rfl⟩

theorem witness_EmptyCallCompletesIffAPacketIsStaged_incomplete :
    let a : Assembler := { idleOne with lo := [(0, 0x04), (1, 0x05)], loLen := 2 }
    a.Widths Config.scenario ∧ a.fsm = .idle ∧ a.w + a.loLen < Config.scenario.pkt ∧ a.loOvf = false := by
  refine ⟨⟨?_, ?_, ?_, ?_, ?_, ?_, ?_⟩, ?_, ?_, ?_⟩ <;> decide

theorem witness_FsmFollowsTheTransitionTable :
    (withFa idleThree).faReset = true ∧ idleThree.Inv Config.scenario ∧ fillTwo.Inv Config.scenario ∧
    spillOne.Inv Config.scenario ∧ idleThree.fsm = .idle ∧ fillTwo.fsm = .fill ∧ spillOne.fsm = .spill ∧
    (withFa idleThree).unfaulted ∧ (withFa fillTwo).unfaulted ∧ (withFa spillOne).unfaulted :=
  ⟨rfl, idleThree_inv, fillTwo_inv, spillOne_inv, rfl, rfl, rfl, rfl, rfl, rfl⟩

theorem witness_PendingFlagMeansBytesAreStaged :
    (exec (.faByte 0x05) (withFa spillOne) matches .next _) = true ∧
    (exec .faEnd (withFa idleThree) matches .next _) = true ∧
    (exec (.faLast 0x05) (withFa fillTwo) matches .next _) = true ∧
    (exec .faReset (withFa fillTwo) matches .next _) = true ∧
    spillOne.loOvf = false ∧ idleThree.loOvf = false ∧ fillTwo.loOvf = false := by decide

theorem witness_ResultRegistersFollowTheCallEnd :
    Instr.faEnd.port = .assembler ∧ (exec .faEnd (withFa idleThree) matches .next _) = true ∧
    Instr.faNop.port = .assembler ∧ (exec .faNop (withFa idleThree) matches .next _) = true ∧
    Instr.faReset.port = .assembler ∧ (exec .faReset (withFa idleThree) matches .next _) = true ∧
    idleThree.loOvf = false := by decide

theorem witness_OverflowFlagIsStickyAndExact :
    (Instr.faByte 0x29).port = .assembler ∧ spillFull.loOvf = false ∧
    onNext (exec (.faByte 0x29) (withFa spillFull)) (fun t => t.fa.loOvf) = some true ∧
    onNext (exec (.faByte 0x29) (withFa spillOne)) (fun t => t.fa.loOvf) = some false := by decide

/-- F3 row 10: the overflow, then a further beat and the end of the call. -/
theorem witness_FaultedStatesAreNeverFinal_run :
    let s := withLines (withFa { spillFull with loOvf := true }) [.f 0x52A, .f 0x600, .f 0x000]
    s.faulted ∧ (Host.Core.run core 2 s matches .next _) = true ∧
    (∀ line ∈ s.stimulus.take 2, line.instr ≠ .faReset) :=
  ⟨rfl, by decide, by decide⟩

theorem witness_FaultedStatesAreNeverFinal_reset :
    let s := withLines (withFa { spillFull with loOvf := true }) [.f 0x000]
    s.stimulus = [.f 0x000] ∧ (Line.f 0x000).instr = .faReset ∧
    onNext (step s) (fun t => (t.fa.loOvf, t.stimulus)) = some (false, []) := by decide

theorem witness_FaultedStatesRunOnAlike :
    (Instr.faByte 0x07) ≠ .faReset ∧ (exec (.faByte 0x07) (withFa spillOne) matches .next _) = true ∧
    (exec (.faByte 0x07) (withFa { spillOne with loLen := 4 }) matches .fault _) = true ∧
    (exec (.faByte 0x07) { State.reset with faReset := false } matches .refused _) = true := by decide

/-- F1 row 3: 01 02 received, the byte 03 completes the packet; `pkt_bus` is 0x030201. -/
theorem witness_PacketBusCarriesTheFirstByteLowest :
    (withFa fillTwo).faReset = true ∧ fillTwo.Widths Config.scenario ∧ (withFa fillTwo).unfaulted ∧
    fillTwo.fsm = .fill ∧ fillTwo.w + 1 = Config.scenario.pkt ∧
    onNext (exec (.faByte 0x03) (withFa fillTwo)) (fun t => (t.fa.pins t.cfg).pktBus) = some 0x030201 :=
  ⟨rfl, fillTwo_inv.widths, rfl, rfl, by decide, by decide⟩

theorem witness_PacketIsHeldUntilTheNextCompletion :
    spillOne.Inv Config.scenario ∧ spillOne.fsm = .spill ∧ (Instr.faByte 0x05).port = .assembler ∧
    (Instr.faByte 0x05) ≠ .faReset ∧ (exec (.faByte 0x05) (withFa spillOne) matches .next _) = true ∧
    (withFa spillOne).unfaulted :=
  ⟨spillOne_inv, rfl, rfl, by decide, by decide, rfl⟩

theorem witness_BeatsAgreeWithTheWholeCall_last :
    (withFa idleThree).faReset = true ∧ idleThree.Inv Config.scenario ∧ idleThree.fsm = .idle ∧
    ([Instr.faNop, .faByte 0x07, .faNop, .faLast 0x08].filter fun i => i != .faNop) = feedOps [0x07, 0x08] ∧
    [Instr.faNop, .faByte 0x07, .faNop, .faLast 0x08].getLast? ≠ some .faNop ∧ (withFa idleThree).unfaulted :=
  ⟨rfl, idleThree_inv, rfl, by decide, by decide, rfl⟩

theorem witness_BeatsAgreeWithTheWholeCall_end :
    (feedOpsEnd [0x07, 0x08]).filter (fun i => i != .faNop) = feedOpsEnd [0x07, 0x08] ∧
    (feedOpsEnd [0x07, 0x08]).getLast? ≠ some .faNop ∧
    [Instr.faEnd].filter (fun i => i != .faNop) = feedOps [] := by decide

theorem witness_MoreMeansAnEmptyCallCompletes :
    (withFa idleThree).faReset = true ∧ idleThree.Inv Config.scenario ∧ idleThree.fsm = .idle ∧
    idleThree.more Config.scenario = true ∧ (withFa idleThree).unfaulted := ⟨rfl, idleThree_inv, rfl, by decide, rfl⟩

theorem witness_SurplusOfOneCallIsStaged :
    State.reset.faReset = true ∧ Assembler.zero.Inv Config.scenario ∧ Assembler.zero.fsm = .idle ∧
    State.reset.unfaulted ∧ Assembler.zero.w = 0 ∧ Assembler.zero.loLen = 0 ∧
    Config.scenario.pkt < [0x31, 0x32, 0x33, (0x34 : Byte)].length ∧
    [0x31, 0x32, 0x33, 0x34, (0x35 : Byte)].length < 2 * Config.scenario.pkt :=
  ⟨rfl, faZero_inv, rfl, rfl, rfl, rfl, by decide, by decide⟩

theorem witness_DrainedCallerNeverOverflows :
    (withFa idleOne).faReset = true ∧ idleOne.Inv Config.scenario ∧ idleOne.fsm = .idle ∧
    idleOne.more Config.scenario = false ∧ [0x01, 0x02, (0x03 : Byte)].length ≤ Config.scenario.loCap ∧
    (withFa idleOne).unfaulted :=
  ⟨rfl, idleOne_inv, rfl, by decide, by decide, rfl⟩

theorem witness_DrainedStreamIsFramedExactly :
    State.reset.faReset = true ∧ State.reset.fa = Assembler.zero ∧ callResults State.reset.faLog = [] ∧
    (∀ chunk ∈ [[0x01], [], [0x02, 0x03, 0x04], [0x05, (0x06 : Byte)]], chunk.length ≤ State.reset.cfg.loCap) ∧
    [[0x01], [], [0x02, 0x03, 0x04], [0x05, (0x06 : Byte)]].flatten.length = 2 * State.reset.cfg.pkt := by decide

/-- One chunk of `2 * P` bytes, longer than `L`, whose surplus just fits. -/
theorem witness_DrainedStreamIsFramedExactly_long_chunk :
    onNext (feedDrained [[0x01, 0x02, 0x03, 0x04, 0x05, 0x06]] State.reset) (fun t => t.fa.loOvf) = some false := by
  decide

theorem witness_BlocksLeaveEachOtherAlone :
    Instr.deq.port ≠ .assembler ∧ (exec .deq (withFifo fullSeen) matches .next _) = true ∧
    (Instr.faByte 0x05).port = .assembler ∧ (exec (.faByte 0x05) (withFa spillOne) matches .next _) = true := by
  decide

theorem witness_AssemblerIsIndependentOfTheFifo :
    let s := withLines (withFifo fullSeen) [.f 0x501]
    let s' := withLines State.reset [.f 0x501]
    s.cfg = s'.cfg ∧ s.fa = s'.fa ∧ s.faReset = s'.faReset ∧ s.faLog = s'.faLog ∧ s.stimulus = s'.stimulus ∧
    (step s matches .next _) = true ∧ (step s' matches .next _) = true := by decide

theorem witness_OnlyAcceptedEnqAndResetChangeMem_kept :
    let s := withLines (withFifo fullSeen) [.r 0b11]
    s.fifoReset = true ∧ Memory.wf s.fifo.wd.mem = true ∧
    onNext (step s) (fun t => (t.fifoLog == .reset :: s.fifoLog, acceptedBytes t.fifoLog == acceptedBytes s.fifoLog)) =
      some (false, true) := by decide

theorem witness_OnlyAcceptedEnqAndResetChangeMem_stored :
    let s := withLines (withFifo threeSettled) [.w 0x345]
    s.fifoReset = true ∧ Memory.wf s.fifo.wd.mem = true ∧
    onNext (step s) (fun t =>
      (t.fifoLog == .reset :: s.fifoLog, acceptedBytes t.fifoLog == acceptedBytes s.fifoLog ++ [0x45])) =
      some (false, true) := by decide

end Sys2Proof.Tests
end

section
/-! Proofs about the grey code (spec/00_scope.md R10). Both round trips come out of one telescoping sum of right
shifts, and the one-bit distance out of the linearity `b2g_xor`. -/

namespace Sys2Proof.Machine

/-! ### `g2b` bit by bit -/

/-- The exclusive or of the `n` bits of `g` from bit `i` upwards. -/
def xorBits (g i n : Nat) : Bool := (List.range n).foldl (fun acc j => acc ^^ g.testBit (i + j)) false

@[simp] theorem xorBits_zero (g i : Nat) : xorBits g i 0 = false := rfl

@[simp] theorem xorBits_succ (g i n : Nat) : xorBits g i (n + 1) = (xorBits g i n ^^ g.testBit (i + n)) := by
  simp [xorBits, List.range_succ]

/-- Bits above the value's width do not count. -/
theorem xorBits_add_of_lt {g i n : Nat} (h : g < 2 ^ (i + n)) (m : Nat) : xorBits g i (n + m) = xorBits g i n := by
  induction m with
  | zero => rfl
  | succ m ih =>
    have hbit : g.testBit (i + (n + m)) = false :=
      Nat.testBit_lt_two_pow (h.trans_le (Nat.pow_le_pow_right two_pos (by omega)))
    rw [← Nat.add_assoc, xorBits_succ, ih, hbit, Bool.xor_false]

theorem testBit_g2b (k g i : Nat) : (g2b k g).testBit i = xorBits g i k := by
  induction k with
  | zero => simp [g2b]
  | succ k ih => simp [g2b, Nat.testBit_xor, Nat.testBit_shiftRight, ih, Nat.add_comm k i, Bool.xor_comm]

/-- R10's `g[k-1] ^ … ^ g[i]`, for a `k`-bit `g`. -/
theorem testBit_g2b_of_lt {k g i : Nat} (hg : g < 2 ^ k) (hi : i < k) :
    (g2b k g).testBit i = xorBits g i (k - i) := by
  have hsplit : k - i + i = k := Nat.sub_add_cancel hi.le
  have htrim := xorBits_add_of_lt (g := g) (i := i) (n := k - i) (by rwa [Nat.add_comm, hsplit]) i
  rw [testBit_g2b, ← htrim, hsplit]

/-! ### The two directions are mutually inverse -/

theorem g2b_lt {n g : Nat} (h : g < 2 ^ n) (k : Nat) : g2b k g < 2 ^ n := by
  induction k with
  | zero => exact Nat.two_pow_pos n
  | succ k ih => exact Nat.xor_lt_two_pow ((Nat.shiftRight_le g k).trans_lt h) ih

theorem b2g_shiftRight (b k : Nat) : b2g (b >>> k) = b2g b >>> k := by
  simp only [b2g, Nat.shiftRight_xor_distrib, ← Nat.shiftRight_add, Nat.add_comm 1 k]

/-- `g2b` is a sum of shifts, so it commutes with the linear `b2g`. -/
theorem g2b_b2g_comm (k b : Nat) : g2b k (b2g b) = b2g (g2b k b) := by
  induction k with
  | zero => simp [g2b]
  | succ k ih => rw [g2b, g2b, b2g_xor, b2g_shiftRight, ih]

/-- The shifts of `g2b k` telescope, for a `g` of any width. -/
theorem b2g_g2b_eq_xor (k g : Nat) : b2g (g2b k g) = g ^^^ g >>> k := by
  induction k with
  | zero => simp [g2b]
  | succ k ih =>
    calc b2g (g2b (k + 1) g)
        = b2g (g >>> k) ^^^ b2g (g2b k g) := b2g_xor _ _
      _ = (g >>> (k + 1) ^^^ g >>> k) ^^^ (g >>> k ^^^ g) := by
        rw [ih, b2g, ← Nat.shiftRight_add, Nat.xor_comm (g >>> k), Nat.xor_comm g]
      _ = g ^^^ g >>> (k + 1) := by
        rw [Nat.xor_assoc, Nat.xor_xor_cancel_left, Nat.xor_comm]

theorem b2g_g2b {k g : Nat} (h : g < 2 ^ k) : b2g (g2b k g) = g := by
  rw [b2g_g2b_eq_xor, Nat.shiftRight_eq_zero g k h, Nat.xor_zero]

theorem g2b_b2g {k b : Nat} (h : b < 2 ^ k) : g2b k (b2g b) = b := by
  rw [g2b_b2g_comm, b2g_g2b h]

/-! ### One bit apart -/

/-- An increment flips the trailing ones and the zero above them. -/
theorem exists_xor_add_one_eq (b : Nat) : ∃ m, b ^^^ (b + 1) = 2 ^ (m + 1) - 1 := by
  induction b using Nat.binaryRec with
  | zero => exact ⟨0, rfl⟩
  | bit odd c ih =>
    cases odd with
    | false =>
      have hsucc : Nat.bit false c + 1 = Nat.bit true c := rfl
      exact ⟨0, by rw [hsucc, Nat.xor_bit, Nat.xor_self]; rfl⟩
    | true =>
      obtain ⟨m, hm⟩ := ih
      have hsucc : Nat.bit true c + 1 = Nat.bit false (c + 1) := by
        rw [Nat.bit_true_apply, Nat.bit_false_apply, Nat.mul_succ]
      have hpos : 0 < 2 ^ (m + 1) := Nat.two_pow_pos _
      refine ⟨m + 1, ?_⟩
      rw [hsucc, Nat.xor_bit, hm, Bool.bne_false, Nat.bit_true_apply, Nat.pow_succ 2 (m + 1)]
      omega

/-- The grey code of a run of ones is its top bit. -/
theorem b2g_two_pow_sub_one (m : Nat) : b2g (2 ^ (m + 1) - 1) = 2 ^ m := by
  apply Nat.eq_of_testBit_eq
  intro i
  rw [testBit_b2g, Nat.testBit_two_pow_sub_one, Nat.testBit_two_pow_sub_one, Nat.testBit_two_pow]
  obtain hlt | rfl | hgt := Nat.lt_trichotomy i m
  · simp [hlt, hlt.ne', hlt.trans (Nat.lt_succ_self m)]
  · simp
  · simp [hgt.ne, Nat.not_lt.2 hgt.le, Nat.not_lt.2 (Nat.succ_le_of_lt hgt)]

/-- A value and its increment on `k` bits differ in a run of ones from bit 0: at the wrap in all `k` bits. -/
theorem exists_xor_addMod_one_eq {k b : Nat} (hk : 1 ≤ k) (hb : b < 2 ^ k) :
    ∃ m, b ^^^ addMod k b 1 = 2 ^ (m + 1) - 1 := by
  rw [addMod_one_eq hb]
  split
  case isTrue hwrap => exact ⟨k - 1, by rw [Nat.sub_add_cancel hk, Nat.xor_zero]; omega⟩
  case isFalse => exact exists_xor_add_one_eq b

theorem b2g_addMod_one_differs_in_one_bit {k b : Nat} (hk : 1 ≤ k) (hb : b < 2 ^ k) :
    ∃ i < k, b2g b ^^^ b2g (addMod k b 1) = 2 ^ i := by
  obtain ⟨m, hm⟩ := exists_xor_addMod_one_eq hk hb
  have hbit : b2g b ^^^ b2g (addMod k b 1) = 2 ^ m := by rw [← b2g_xor, hm, b2g_two_pow_sub_one]
  have hlt : b2g b ^^^ b2g (addMod k b 1) < 2 ^ k := Nat.xor_lt_two_pow (b2g_lt hb) (b2g_lt (addMod_lt k b 1))
  exact ⟨m, (Nat.pow_lt_pow_iff_right one_lt_two).1 (hbit ▸ hlt), hbit⟩

/-- Settles O20: R10's grey code bit by bit, inverse both ways, one bit apart, with its two sequences. -/
theorem greyCodeIsInverseAndOneBitApart : Obligations.GreyCodeIsInverseAndOneBitApart :=
  ⟨fun _ => rfl,
   fun _ _ _ hg hi => testBit_g2b_of_lt hg hi,
   fun _ _ hb => ⟨b2g_lt hb, g2b_b2g hb⟩,
   fun k _ hg => ⟨g2b_lt hg k, b2g_g2b hg⟩,
   fun _ _ hk hb => b2g_addMod_one_differs_in_one_bit hk hb,
   by decide, by decide⟩

end Sys2Proof.Machine
end

section
/-! Proofs about the leftover buffer between calls: the pending flag (spec/10_state.md R55) and the empty call that
`more` promises a packet (R60). -/

namespace Sys2Proof.Machine

/-! ### The beats as operations of the machine -/

theorem exec_faByte (d : Byte) (s : State) : exec (.faByte d) s = s.beatStep false (some d) := rfl

theorem exec_faEnd (s : State) : exec .faEnd s = s.beatStep true none := rfl

theorem exec_faLast (d : Byte) (s : State) : exec (.faLast d) s = s.beatStep true (some d) := rfl

theorem exec_faReset (s : State) :
    exec .faReset s = .next { s with fa := Assembler.zero, faReset := true, faLog := .reset :: s.faLog } := rfl

theorem Assembler.Inv.cursorsInRange {c : Config} {a : Assembler} (h : a.Inv c) : a.cursorsInRange c = true :=
  Assembler.cursorsInRange_iff.2 ⟨h.widths.w_lt, h.widths.loLen_le⟩

/-! ### The pending flag -/

/-- Phase C commits the flag from the `lo_len` of the phases before it, and is the last to write either. -/
theorem Assembler.beat_loPend (c : Config) (a : Assembler) (inEnd : Bool) (inData : Option Byte) :
    (a.beat c inEnd inData).loPend = ((a.beat c inEnd inData).loLen != 0) := by
  cases inData with
  | none => rw [Assembler.beat_none, Assembler.phaseC_loPend, Assembler.phaseC_loLen]
  | some d => rw [Assembler.beat_some, Assembler.phaseC_loPend, Assembler.phaseC_loLen]

theorem State.beatStep_loPend {s t : State} {inEnd : Bool} {inData : Option Byte}
    (h : s.beatStep inEnd inData = .next t) : t.fa.loPend = (t.fa.loLen != 0) := by
  obtain ⟨-, -, rfl⟩ := State.beatStep_next h
  exact Assembler.beat_loPend s.cfg s.fa inEnd inData

/-- Settles O46: each of the three beats commits the flag in phase C, and FA_RESET leaves the zero assembler. -/
theorem pendingFlagMeansBytesAreStaged : Obligations.PendingFlagMeansBytesAreStaged := by
  intro d s t
  refine ⟨fun _ hbeat => ?_, fun hreset => ?_⟩
  · rcases hbeat with hbyte | hend | hlast
    · exact State.beatStep_loPend (exec_faByte d s ▸ hbyte)
    · exact State.beatStep_loPend (exec_faEnd s ▸ hend)
    · exact State.beatStep_loPend (exec_faLast d s ▸ hlast)
  · rw [exec_faReset] at hreset
    cases hreset
    rfl

/-! ### What a copy appends -/

theorem Memory.bytes_write_of_le {m : Memory} (h : Memory.wf m = true) {n i : Nat} (hi : n ≤ i) (b : Byte) :
    Memory.bytes (Memory.write m i b) n = Memory.bytes m n := by
  refine List.map_congr_left fun j hj => ?_
  have hlt : j < n := List.mem_range.1 hj
  rw [Memory.read_write h, if_neg (by omega)]

theorem Memory.bytes_write_end {m : Memory} (h : Memory.wf m = true) (n : Nat) (b : Byte) :
    Memory.bytes (Memory.write m n b) (n + 1) = Memory.bytes m n ++ [b] := by
  rw [Memory.bytes_succ, Memory.bytes_write_of_le h le_rfl, Memory.read_write h, if_pos rfl]

/-- A copy to `at_` puts the source's first `k` bytes behind the `at_` bytes before them. -/
theorem Memory.bytes_copyFrom {dst : Memory} (h : Memory.wf dst = true) (at_ : Nat) (src : Memory) (k : Nat) :
    Memory.bytes (Memory.copyFrom dst at_ src k) (at_ + k) = Memory.bytes dst at_ ++ Memory.bytes src k := by
  induction k with
  | zero => simp
  | succ k ih =>
    rw [Memory.copyFrom, ← Nat.add_assoc, Memory.bytes_write_end (Memory.wf_copyFrom h at_ src k), ih,
      Memory.bytes_succ, List.append_assoc]

/-! ### `more` and the empty call -/

theorem Assembler.more_iff {c : Config} {a : Assembler} : a.more c = true ↔ c.pkt ≤ a.loLen := by
  simp [Assembler.more]

/-- A whole packet staged leaves nothing in `buf`, since `buf` and `lo` never hold bytes together (R62). -/
theorem Assembler.Inv.w_eq_zero_of_more {c : Config} {a : Assembler} (h : a.Inv c) (hmore : a.more c = true) :
    a.w = 0 := by
  have hstaged : c.pkt ≤ a.loLen := Assembler.more_iff.1 hmore
  have hpos : 1 ≤ c.pkt := c.pkt_pos
  exact h.one_empty.resolve_right (by omega)

/-- Phase A when the bytes in `buf` and the staged ones are enough for a packet: it takes just the bytes missing. -/
theorem Assembler.phaseA_of_enough_staged {c : Config} {a : Assembler} (hidle : a.fsm = .idle) (hw : a.w ≤ c.pkt)
    (henough : c.pkt ≤ a.w + a.loLen) :
    a.phaseA c =
      { a with
        buf := Memory.copyFrom a.buf a.w a.lo (c.pkt - a.w)
        pkt := Memory.copyFrom a.buf a.w a.lo (c.pkt - a.w)
        lo := Memory.shiftDown (c.pkt - a.w) a.lo
        loLen := a.loLen - (c.pkt - a.w)
        w := 0
        fsm := .spill } := by
  have htaken : min a.loLen (c.pkt - a.w) = c.pkt - a.w := Nat.min_eq_right (by omega)
  have hfull : a.w + min a.loLen (c.pkt - a.w) = c.pkt := by omega
  rw [Assembler.phaseA_completes hidle hfull, htaken]

/-- The assembler after an empty call that completes (spec/41_frame_assembler_ops.md R188). -/
theorem Assembler.beat_end_of_enough_staged {c : Config} {a : Assembler} (hidle : a.fsm = .idle) (hw : a.w ≤ c.pkt)
    (henough : c.pkt ≤ a.w + a.loLen) :
    a.beat c true none =
      { a with
        buf := Memory.copyFrom a.buf a.w a.lo (c.pkt - a.w)
        pkt := Memory.copyFrom a.buf a.w a.lo (c.pkt - a.w)
        lo := Memory.shiftDown (c.pkt - a.w) a.lo
        loLen := a.loLen - (c.pkt - a.w)
        w := 0
        loPend := a.loLen - (c.pkt - a.w) != 0
        resValid := true
        resComplete := true
        fsm := .idle } := by
  rw [Assembler.beat_none, Assembler.phaseA_of_enough_staged hidle hw henough, Assembler.phaseC_end]
  rfl

/-- With all its bytes staged, the packet is the `P` oldest of them. -/
theorem Assembler.packet_beat_end_of_more {c : Config} {a : Assembler} (hinv : a.Inv c) (hidle : a.fsm = .idle)
    (hmore : a.more c = true) : (a.beat c true none).packet c = Memory.bytes a.lo c.pkt := by
  have hw : a.w = 0 := hinv.w_eq_zero_of_more hmore
  have hstaged : c.pkt ≤ a.loLen := Assembler.more_iff.1 hmore
  have hcopy : Memory.bytes (Memory.copyFrom a.buf 0 a.lo c.pkt) c.pkt = Memory.bytes a.lo c.pkt := by
    simpa using Memory.bytes_copyFrom hinv.widths.buf_wf 0 a.lo c.pkt
  rw [Assembler.packet, Assembler.beat_end_of_enough_staged hidle (by omega) (by omega)]
  simpa only [hw, Nat.sub_zero] using hcopy

/-- Settles O51: `more` leaves `w` at 0, so phase A of the empty call completes a packet out of `lo` alone. -/
theorem moreMeansAnEmptyCallCompletes : Obligations.MoreMeansAnEmptyCallCompletes := by
  intro s hunfaulted
  refine ⟨Assembler.more_iff, fun hreset hinv hidle hmore => ?_⟩
  have hw : s.fa.w = 0 := hinv.w_eq_zero_of_more hmore
  have hstaged : s.cfg.pkt ≤ s.fa.loLen := Assembler.more_iff.1 hmore
  have hexec : exec .faEnd s = .next (s.afterBeat true none) :=
    State.beatStep_eq hreset hinv.cursorsInRange true none
  have hbeat := Assembler.beat_end_of_enough_staged (c := s.cfg) hidle (by omega) (by omega)
  have hpacket : Memory.bytes (s.afterBeat true none).fa.pkt s.cfg.pkt = Memory.bytes s.fa.lo s.cfg.pkt :=
    Assembler.packet_beat_end_of_more hinv hidle hmore
  refine ⟨s.afterBeat true none, hexec, ?_, ?_, ?_, ?_, hpacket⟩
  · rw [State.afterBeat_fa, hbeat]
  · rw [State.afterBeat_fa, hbeat]
  · rw [State.afterBeat_fa, hbeat, hw, Nat.sub_zero]
  · rw [State.unfaulted, State.afterBeat_fa, hbeat]
    exact hunfaulted

end Sys2Proof.Machine
end

section
/-! Proofs about the slots the two FIFO ports touch: each flag is its port's own count at a bound (spec/10_state.md
R40, R41), and the slots from the head on are distinct as long as there are fewer of them than `C`
(spec/20_memory.md R81). -/

namespace Sys2Proof.Machine

/-! ### Modular subtraction undoes modular addition -/

theorem subMod_eq_iff_eq_addMod {k a b n : Nat} (ha : a < 2 ^ k) (hb : b < 2 ^ k) (hn : n < 2 ^ k) :
    subMod k a b = n ↔ a = addMod k b n := by
  rw [subMod_eq ha hb, addMod]
  rcases Nat.lt_or_ge (b + n) (2 ^ k) with hfits | hwraps
  · rw [Nat.mod_eq_of_lt hfits]
    split <;> omega
  · rw [Nat.mod_eq_sub_mod hwraps, Nat.mod_eq_of_lt (by omega)]
    split <;> omega

theorem subMod_eq_zero_iff {k a b : Nat} (ha : a < 2 ^ k) (hb : b < 2 ^ k) : subMod k a b = 0 ↔ a = b := by
  rw [subMod_eq_iff_eq_addMod ha hb (Nat.two_pow_pos k), addMod, Nat.add_zero, Nat.mod_eq_of_lt hb]

/-- Half a turn of an `n + 1`-bit pointer flips its top bit and nothing else. -/
theorem addMod_two_pow_eq_xor {n b : Nat} (hb : b < 2 ^ (n + 1)) : addMod (n + 1) b (2 ^ n) = b ^^^ 2 ^ n := by
  have hpow : 2 ^ (n + 1) = 2 * 2 ^ n := Nat.pow_succ'
  have hlow : (b ^^^ 2 ^ n) % 2 ^ n = b % 2 ^ n := by rw [Nat.xor_mod_two_pow, Nat.mod_self, Nat.xor_zero]
  have htop : (b ^^^ 2 ^ n) / 2 ^ n = b / 2 ^ n ^^^ 1 := by
    rw [Nat.xor_div_two_pow, Nat.div_self (Nat.two_pow_pos n)]
  have hsplit : 2 ^ n * (b / 2 ^ n ^^^ 1) + b % 2 ^ n = b ^^^ 2 ^ n := by
    rw [← htop, ← hlow, Nat.div_add_mod]
  rw [← hsplit, addMod]
  rcases Nat.lt_or_ge b (2 ^ n) with hlt | hge
  · rw [Nat.div_eq_of_lt hlt, Nat.mod_eq_of_lt hlt, Nat.mod_eq_of_lt (by omega), Nat.zero_xor]
    omega
  · have hone : b / 2 ^ n = 1 := Nat.div_eq_of_lt_le (by omega) (by omega)
    rw [hone, Nat.mod_eq_sub_mod hge, Nat.mod_eq_sub_mod (by omega), Nat.mod_eq_of_lt (by omega),
      Nat.mod_eq_of_lt (by omega), Nat.xor_self]
    omega

/-! ### The flags as counts -/

theorem b2g_inj {k a b : Nat} (ha : a < 2 ^ k) (hb : b < 2 ^ k) : b2g a = b2g b ↔ a = b :=
  ⟨fun h => by rw [← g2b_b2g ha, h, g2b_b2g hb], congrArg b2g⟩

/-- R40's mask is the grey code of half a turn. -/
theorem b2g_two_pow_succ (m : Nat) : b2g (2 ^ (m + 1)) = 0b11 <<< m := by
  have htop : 2 ^ (m + 1) = 0b10 <<< m := by rw [Nat.shiftLeft_eq, Nat.pow_succ']
  have hnext : 2 ^ (m + 1) >>> 1 = 0b01 <<< m := by
    rw [Nat.shiftLeft_eq, Nat.shiftRight_one, Nat.pow_succ, Nat.mul_div_cancel _ two_pos, Nat.one_mul]
  rw [b2g, hnext, htop, ← Nat.shiftLeft_xor_distrib]
  rfl

theorem Fifo.wfull_iff {c : Config} {f : Fifo} (h : f.Inv c) : f.wfull c = true ↔ f.wcount c = c.capacity := by
  have hseen : g2b c.ptrW f.wd.wq2Rptr < 2 ^ c.ptrW := g2b_lt h.widths.wq2_lt _
  have hgrey : b2g (g2b c.ptrW f.wd.wq2Rptr) = f.wd.wq2Rptr := b2g_g2b h.widths.wq2_lt
  have hhalf : c.capacity < 2 ^ c.ptrW := Nat.pow_lt_pow_right one_lt_two (Nat.lt_succ_self _)
  have hflip : addMod c.ptrW (g2b c.ptrW f.wd.wq2Rptr) c.capacity = g2b c.ptrW f.wd.wq2Rptr ^^^ c.capacity :=
    addMod_two_pow_eq_xor hseen
  have hmask : 0b11 <<< (c.addrW - 1) = b2g c.capacity := by
    rw [← b2g_two_pow_succ, Nat.sub_add_cancel c.addrW_pos, Config.capacity]
  calc f.wfull c = true
      ↔ b2g f.wd.wbin = b2g (g2b c.ptrW f.wd.wq2Rptr ^^^ c.capacity) := by
        rw [Fifo.wfull, beq_iff_eq, h.wgray_eq, hmask, b2g_xor, hgrey]
    _ ↔ f.wd.wbin = addMod c.ptrW (g2b c.ptrW f.wd.wq2Rptr) c.capacity := by
        rw [b2g_inj h.widths.wbin_lt (Nat.xor_lt_two_pow hseen hhalf), hflip]
    _ ↔ f.wcount c = c.capacity := (subMod_eq_iff_eq_addMod h.widths.wbin_lt hseen hhalf).symm

theorem Fifo.rempty_iff {c : Config} {f : Fifo} (h : f.Inv c) : f.rempty = true ↔ f.rcount c = 0 := by
  have hseen : g2b c.ptrW f.rd.rq2Wptr < 2 ^ c.ptrW := g2b_lt h.widths.rq2_lt _
  have hgrey : b2g (g2b c.ptrW f.rd.rq2Wptr) = f.rd.rq2Wptr := b2g_g2b h.widths.rq2_lt
  calc f.rempty = true
      ↔ b2g (g2b c.ptrW f.rd.rq2Wptr) = b2g f.rd.rbin := by
        rw [Fifo.rempty, beq_iff_eq, h.rgray_eq, hgrey, eq_comm]
    _ ↔ g2b c.ptrW f.rd.rq2Wptr = f.rd.rbin := b2g_inj hseen h.widths.rbin_lt
    _ ↔ f.rcount c = 0 := (subMod_eq_zero_iff hseen h.widths.rbin_lt).symm

theorem Fifo.wcount_lt_of_not_wfull {c : Config} {f : Fifo} (h : f.Inv c) (hfull : f.wfull c = false) :
    f.wcount c < c.capacity :=
  lt_of_le_of_ne h.wcount_le fun heq => Bool.false_ne_true (hfull.symm.trans ((Fifo.wfull_iff h).2 heq))

theorem Fifo.rcount_pos_of_not_rempty {c : Config} {f : Fifo} (h : f.Inv c) (hempty : f.rempty = false) :
    0 < f.rcount c :=
  Nat.pos_of_ne_zero fun heq => Bool.false_ne_true (hempty.symm.trans ((Fifo.rempty_iff h).2 heq))

/-! ### The slots from the head on -/

/-- The pointer's modulus is a multiple of `C`, so an addition can be done on the slot. -/
theorem slot_addMod (c : Config) (p n : Nat) : slot c (addMod c.ptrW p n) = (slot c p + n) % c.capacity := by
  have hdvd : c.capacity ∣ 2 ^ c.ptrW := Nat.pow_dvd_pow 2 (Nat.le_succ _)
  rw [slot, addMod, Nat.mod_mod_of_dvd _ hdvd, slot, Nat.mod_add_mod]

/-- The write slot is the one behind the last byte stored. -/
theorem Fifo.tail_eq {c : Config} {f : Fifo} (h : f.Widths c) :
    f.tail c = (f.head c + f.count c) % c.capacity := by
  have hwbin : f.wd.wbin = addMod c.ptrW f.rd.rbin (f.count c) :=
    (subMod_eq_iff_eq_addMod h.wbin_lt h.rbin_lt (subMod_lt _ _ _)).1 rfl
  rw [Fifo.tail, hwbin, slot_addMod, Fifo.head]

/-- With room in the FIFO, the slots `[head, head+count)` do not wrap round to the write slot. -/
theorem Fifo.stored_slot_ne_tail {c : Config} {f : Fifo} (h : f.Widths c) (hroom : f.count c < c.capacity)
    {j : Nat} (hj : j < f.count c) : (f.head c + j) % c.capacity ≠ f.tail c := by
  intro heq
  have hmod : f.head c + j ≡ f.head c + f.count c [MOD c.capacity] := heq.trans (Fifo.tail_eq h)
  exact hj.ne (Nat.ModEq.eq_of_lt_of_lt (hmod.add_left_cancel' _) (hj.trans hroom) hroom)

/-- Settles O25: the flags bound the ports' own counts, `count` lies between these, and `tail` is the slot at
distance `count` from `head`. -/
theorem acceptedWriteAndReadUseDifferentSlots : Obligations.AcceptedWriteAndReadUseDifferentSlots := by
  intro c f hinv
  have hroom (hfull : f.wfull c = false) : f.count c < c.capacity :=
    hinv.count_le.trans_lt (Fifo.wcount_lt_of_not_wfull hinv hfull)
  have hstored (hempty : f.rempty = false) : 0 < f.count c :=
    (Fifo.rcount_pos_of_not_rempty hinv hempty).trans_le hinv.rcount_le
  have hhead : (f.head c + 0) % c.capacity = f.head c := Nat.mod_eq_of_lt (slot_lt c f.rd.rbin)
  refine ⟨fun hfull => ?write, fun hempty => ?read, fun hfull hempty => ?both⟩
  case write =>
    exact ⟨Fifo.wcount_lt_of_not_wfull hinv hfull, hroom hfull,
      fun j hj => Fifo.stored_slot_ne_tail hinv.widths (hroom hfull) hj⟩
  case read => exact ⟨Fifo.rcount_pos_of_not_rempty hinv hempty, hstored hempty, 0, hstored hempty, hhead.symm⟩
  case both =>
    have hne := Fifo.stored_slot_ne_tail hinv.widths (hroom hfull) (hstored hempty)
    rw [hhead] at hne
    exact hne.symm

end Sys2Proof.Machine
end

section
/-! Proofs about the assembler's beats (spec/41_frame_assembler_ops.md): the state each phase moves to, the transition
table of `fsm` (R195), and the agreement of the beats of a call with the document's algorithm (R190, R191). -/

namespace Sys2Proof.Machine

/-! ### Which state the phases reach -/

/-- Phase A when the bytes in `buf` and the staged ones together are short of a packet: it takes all staged bytes. -/
theorem Assembler.phaseA_of_too_few_staged {c : Config} {a : Assembler} (hidle : a.fsm = .idle)
    (hshort : a.w + a.loLen < c.pkt) :
    a.phaseA c =
      { a with
        buf := Memory.copyFrom a.buf a.w a.lo a.loLen
        lo := Memory.shiftDown a.loLen a.lo
        loLen := 0
        w := a.w + a.loLen
        fsm := .fill } := by
  have htaken : min a.loLen (c.pkt - a.w) = a.loLen := Nat.min_eq_left (by omega)
  rw [Assembler.phaseA_starts hidle (by omega), htaken, Nat.sub_self]

theorem Assembler.phaseA_fsm {c : Config} {a : Assembler} (hidle : a.fsm = .idle) (hw : a.w < c.pkt) :
    (a.phaseA c).fsm = if c.pkt ≤ a.w + a.loLen then .spill else .fill := by
  by_cases henough : c.pkt ≤ a.w + a.loLen
  · rw [Assembler.phaseA_of_enough_staged hidle hw.le henough, if_pos henough]
  · rw [Assembler.phaseA_of_too_few_staged hidle (by omega), if_neg henough]

theorem Assembler.phaseB_fsm_of_fill {c : Config} {a : Assembler} (hfill : a.fsm = .fill) (hw : a.w < c.pkt)
    (d : Byte) : (a.phaseB c d).fsm = if c.pkt ≤ a.w + 1 then .spill else .fill := by
  rw [Assembler.phaseB_fill hfill]
  by_cases hlast : a.w + 1 = c.pkt
  · rw [Assembler.fillByte_completes hlast, if_pos hlast.ge]
  · rw [Assembler.fillByte_continues hlast, if_neg (by omega)]

theorem Assembler.phaseB_fsm_of_spill {c : Config} {a : Assembler} (hspill : a.fsm = .spill) (d : Byte) :
    (a.phaseB c d).fsm = .spill := by
  rw [Assembler.phaseB_spill hspill]
  by_cases hroom : a.loLen < c.loCap
  · rw [Assembler.spillByte_staged hroom, hspill]
  · rw [Assembler.spillByte_overflows hroom, hspill]

/-- The byte of a first beat counts with the bytes phase A drained before it. -/
theorem Assembler.phaseB_phaseA_fsm {c : Config} {a : Assembler} (hidle : a.fsm = .idle) (hw : a.w < c.pkt)
    (d : Byte) :
    ((a.phaseA c).phaseB c d).fsm = if c.pkt ≤ a.w + a.loLen + 1 then .spill else .fill := by
  by_cases henough : c.pkt ≤ a.w + a.loLen
  · have hspill : (a.phaseA c).fsm = .spill := by rw [Assembler.phaseA_fsm hidle hw, if_pos henough]
    rw [Assembler.phaseB_fsm_of_spill hspill, if_pos (by omega)]
  · rw [Assembler.phaseA_of_too_few_staged hidle (by omega)]
    exact Assembler.phaseB_fsm_of_fill rfl (by simpa using henough) d

theorem Assembler.phaseB_ne_idle {c : Config} {a : Assembler} (h : a.fsm ≠ .idle) (d : Byte) :
    (a.phaseB c d).fsm ≠ .idle := by
  cases hfsm : a.fsm with
  | idle => exact absurd hfsm h
  | fill =>
    rw [Assembler.phaseB_fill hfsm]
    by_cases hlast : a.w + 1 = c.pkt
    · simp [Assembler.fillByte_completes hlast]
    · simp [Assembler.fillByte_continues hlast]
  | spill => simp [Assembler.phaseB_fsm_of_spill hfsm]

theorem Assembler.phaseC_false_fsm (a : Assembler) : (a.phaseC false).fsm = a.fsm := rfl

theorem Assembler.phaseC_true_resComplete_iff (a : Assembler) :
    (a.phaseC true).resComplete = true ↔ a.fsm = .spill := by simp [Assembler.phaseC_end]

/-! ### The transition table -/

/-- The `FA_BYTE` rows of R195. -/
theorem Assembler.beat_byte_fsm {c : Config} {a : Assembler} (hw : a.w < c.pkt) (d : Byte) :
    let next := (a.beat c false (some d)).fsm
    (a.fsm = .idle → next = if c.pkt ≤ a.w + a.loLen + 1 then .spill else .fill) ∧
    (a.fsm = .fill → next = if c.pkt ≤ a.w + 1 then .spill else .fill) ∧
    (a.fsm = .spill → next = .spill) := by
  rw [Assembler.beat_some, Assembler.phaseC_false_fsm]
  refine ⟨fun hidle => Assembler.phaseB_phaseA_fsm hidle hw d, fun hfill => ?_, fun hspill => ?_⟩
  · rw [Assembler.phaseA_of_ne_idle (by simp [hfill])]
    exact Assembler.phaseB_fsm_of_fill hfill hw d
  · rw [Assembler.phaseA_of_ne_idle (by simp [hspill])]
    exact Assembler.phaseB_fsm_of_spill hspill d

/-- The results of the `FA_END` row of R195: without a byte, only phase A can complete a packet in the beat. -/
theorem Assembler.beat_end_resComplete_iff {c : Config} {a : Assembler} (hw : a.w < c.pkt) :
    (a.beat c true none).resComplete = true ↔
      a.fsm = .spill ∨ (a.fsm = .idle ∧ c.pkt ≤ a.w + a.loLen) := by
  rw [Assembler.beat_none, Assembler.phaseC_true_resComplete_iff]
  cases hfsm : a.fsm with
  | idle => simp [Assembler.phaseA_fsm hfsm hw]
  | fill => simp [Assembler.phaseA_of_ne_idle, hfsm]
  | spill => simp [Assembler.phaseA_of_ne_idle, hfsm]

/-- Settles O45: each beat runs, and the rows of the table are those of the phases it goes through. -/
theorem fsmFollowsTheTransitionTable : Obligations.FsmFollowsTheTransitionTable := by
  refine ⟨fun s => ⟨_, exec_faReset s, rfl⟩, fun d s hreset _ hinv => ?_⟩
  have hw : s.fa.w < s.cfg.pkt := hinv.widths.w_lt
  have runs (inEnd : Bool) (inData : Option Byte) :
      s.beatStep inEnd inData = .next (s.afterBeat inEnd inData) :=
    State.beatStep_eq hreset hinv.cursorsInRange inEnd inData
  refine ⟨?nop, ?byte, ?last, ?fin⟩
  case nop => exact ⟨_, execFaNop_eq hreset, rfl⟩
  case byte => exact ⟨_, runs false (some d), Assembler.beat_byte_fsm hw d⟩
  case last =>
    exact ⟨_, _, runs true (some d), runs false (some d), rfl, Assembler.phaseC_true_resComplete_iff _⟩
  case fin => exact ⟨_, runs true none, rfl, Assembler.beat_end_resComplete_iff hw⟩

/-! ### Beats keep the cursors in range -/

theorem Assembler.cursorsInRange_phaseA {c : Config} {a : Assembler} (h : a.cursorsInRange c = true) :
    (a.phaseA c).cursorsInRange c = true := by
  obtain ⟨hw, hlo⟩ := Assembler.cursorsInRange_iff.1 h
  have hpos : 1 ≤ c.pkt := c.pkt_pos
  by_cases hidle : a.fsm = .idle
  · by_cases henough : c.pkt ≤ a.w + a.loLen
    · rw [Assembler.phaseA_of_enough_staged hidle hw.le henough]
      exact Assembler.cursorsInRange_iff.2 ⟨hpos, (Nat.sub_le _ _).trans hlo⟩
    · rw [Assembler.phaseA_of_too_few_staged hidle (by omega)]
      exact Assembler.cursorsInRange_iff.2 ⟨by simpa using henough, Nat.zero_le _⟩
  · rwa [Assembler.phaseA_of_ne_idle hidle]

theorem Assembler.cursorsInRange_phaseB {c : Config} {a : Assembler} (h : a.cursorsInRange c = true) (d : Byte) :
    (a.phaseB c d).cursorsInRange c = true := by
  obtain ⟨hw, hlo⟩ := Assembler.cursorsInRange_iff.1 h
  cases hfsm : a.fsm with
  | idle => simpa only [Assembler.phaseB, hfsm] using h
  | fill =>
    rw [Assembler.phaseB_fill hfsm]
    by_cases hlast : a.w + 1 = c.pkt
    · rw [Assembler.fillByte_completes hlast]
      exact Assembler.cursorsInRange_iff.2 ⟨c.pkt_pos, hlo⟩
    · rw [Assembler.fillByte_continues hlast]
      exact Assembler.cursorsInRange_iff.2 ⟨lt_of_le_of_ne hw hlast, hlo⟩
  | spill =>
    rw [Assembler.phaseB_spill hfsm]
    by_cases hroom : a.loLen < c.loCap
    · rw [Assembler.spillByte_staged hroom]
      exact Assembler.cursorsInRange_iff.2 ⟨hw, hroom⟩
    · rw [Assembler.spillByte_overflows hroom]
      exact Assembler.cursorsInRange_iff.2 ⟨hw, hlo⟩

theorem Assembler.cursorsInRange_phaseC {c : Config} {a : Assembler} (h : a.cursorsInRange c = true)
    (inEnd : Bool) : (a.phaseC inEnd).cursorsInRange c = true := by
  simpa [Assembler.cursorsInRange] using h

theorem Assembler.cursorsInRange_beat {c : Config} {a : Assembler} (h : a.cursorsInRange c = true)
    (inEnd : Bool) (inData : Option Byte) : (a.beat c inEnd inData).cursorsInRange c = true := by
  cases inData with
  | none => exact Assembler.cursorsInRange_phaseC (Assembler.cursorsInRange_phaseA h) inEnd
  | some d =>
    exact Assembler.cursorsInRange_phaseC
      (Assembler.cursorsInRange_phaseB (Assembler.cursorsInRange_phaseA h) d) inEnd

/-! ### The flags that no phase reads

`lo_pend` and `res_valid` are written by phase C and by `FA_NOP`, and read by neither phase, so what the beats before
the last, and any `FA_NOP` among them, leave there does not reach the end of the call. -/

/-- The assembler with other values of `lo_pend` and `res_valid`. -/
def Assembler.withFlags (a : Assembler) (pend valid : Bool) : Assembler :=
  { a with loPend := pend, resValid := valid }

theorem Assembler.phaseC_false_eq_withFlags (a : Assembler) :
    a.phaseC false = a.withFlags (a.loLen != 0) false := rfl

@[simp] theorem Assembler.phaseA_withFlags (c : Config) (a : Assembler) (pend valid : Bool) :
    (a.withFlags pend valid).phaseA c = (a.phaseA c).withFlags pend valid := by
  by_cases hidle : a.fsm = .idle
  · by_cases hfull : a.w + min a.loLen (c.pkt - a.w) = c.pkt
    · rw [Assembler.phaseA_completes hidle hfull]
      exact Assembler.phaseA_completes hidle hfull
    · rw [Assembler.phaseA_starts hidle hfull]
      exact Assembler.phaseA_starts hidle hfull
  · rw [Assembler.phaseA_of_ne_idle hidle]
    exact Assembler.phaseA_of_ne_idle hidle

@[simp] theorem Assembler.phaseB_withFlags (c : Config) (a : Assembler) (pend valid : Bool) (d : Byte) :
    (a.withFlags pend valid).phaseB c d = (a.phaseB c d).withFlags pend valid := by
  cases hfsm : a.fsm with
  | idle => simp [Assembler.phaseB, Assembler.withFlags, hfsm]
  | fill =>
    rw [Assembler.phaseB_fill hfsm, Assembler.phaseB_fill (a := a.withFlags pend valid) hfsm]
    by_cases hlast : a.w + 1 = c.pkt
    · rw [Assembler.fillByte_completes hlast]
      exact Assembler.fillByte_completes (a := a.withFlags pend valid) hlast d
    · rw [Assembler.fillByte_continues hlast]
      exact Assembler.fillByte_continues (a := a.withFlags pend valid) hlast d
  | spill =>
    rw [Assembler.phaseB_spill hfsm, Assembler.phaseB_spill (a := a.withFlags pend valid) hfsm]
    by_cases hroom : a.loLen < c.loCap
    · rw [Assembler.spillByte_staged hroom]
      exact Assembler.spillByte_staged (a := a.withFlags pend valid) hroom d
    · rw [Assembler.spillByte_overflows hroom]
      exact Assembler.spillByte_overflows (a := a.withFlags pend valid) hroom d

@[simp] theorem Assembler.phaseC_withFlags (a : Assembler) (pend valid inEnd : Bool) :
    (a.withFlags pend valid).phaseC inEnd = a.phaseC inEnd := by cases inEnd <;> rfl

/-! ### Receiving the bytes of a call -/

/-- Phase B for every byte of a list in order. -/
def Assembler.receive (c : Config) (a : Assembler) (bytes : List Byte) : Assembler :=
  bytes.foldl (Assembler.phaseB c) a

@[simp] theorem Assembler.receive_nil (c : Config) (a : Assembler) : a.receive c [] = a := rfl

@[simp] theorem Assembler.receive_cons (c : Config) (a : Assembler) (d : Byte) (ds : List Byte) :
    a.receive c (d :: ds) = (a.phaseB c d).receive c ds := rfl

theorem Assembler.receive_append (c : Config) (a : Assembler) (ds es : List Byte) :
    a.receive c (ds ++ es) = (a.receive c ds).receive c es := List.foldl_append

@[simp] theorem Assembler.receive_withFlags (c : Config) (a : Assembler) (pend valid : Bool) (ds : List Byte) :
    (a.withFlags pend valid).receive c ds = (a.receive c ds).withFlags pend valid := by
  induction ds generalizing a with
  | nil => rfl
  | cons d ds ih => rw [Assembler.receive_cons, Assembler.phaseB_withFlags, ih, Assembler.receive_cons]

/-- The assembler at the end of a call with the given bytes: phase A once, phase B per byte, phase C at the end. -/
def Assembler.callEnd (c : Config) (a : Assembler) (chunk : List Byte) : Assembler :=
  ((a.phaseA c).receive c chunk).phaseC true

@[simp] theorem Assembler.callEnd_withFlags (c : Config) (a : Assembler) (pend valid : Bool) (chunk : List Byte) :
    (a.withFlags pend valid).callEnd c chunk = a.callEnd c chunk := by
  simp [Assembler.callEnd]

/-- An `FA_BYTE` beat takes the first byte of what the call still brings: phase A does not run again after it. -/
theorem Assembler.callEnd_beat (c : Config) (a : Assembler) (d : Byte) (ds : List Byte) :
    (a.beat c false (some d)).callEnd c ds = a.callEnd c (d :: ds) := by
  have hopen : ((a.phaseA c).phaseB c d).fsm ≠ .idle :=
    Assembler.phaseB_ne_idle (Assembler.phaseA_ne_idle c a) d
  rw [Assembler.beat_some, Assembler.phaseC_false_eq_withFlags, Assembler.callEnd_withFlags, Assembler.callEnd,
    Assembler.phaseA_of_ne_idle hopen, Assembler.callEnd, Assembler.receive_cons]

/-! ### The operations of a call -/

/-- The operations that make up the rest of a call in which the given bytes are still to come: the expansions of
`FEED` in either ending (spec/30_encoding.md R109), with `FA_NOP` anywhere before the last beat. -/
inductive CallOps : List Byte → List Instr → Prop
  | endOnly : CallOps [] [.faEnd]
  | last (d : Byte) : CallOps [d] [.faLast d]
  | byte (d : Byte) {ds : List Byte} {ops : List Instr} : CallOps ds ops → CallOps (d :: ds) (.faByte d :: ops)
  | nop {ds : List Byte} {ops : List Instr} : CallOps ds ops → CallOps ds (.faNop :: ops)

theorem callOps_feedOps : ∀ chunk : List Byte, CallOps chunk (feedOps chunk)
  | [] => .endOnly
  | [d] => .last d
  | d :: e :: ds => .byte d (callOps_feedOps (e :: ds))

theorem callOps_feedOpsEnd : ∀ chunk : List Byte, CallOps chunk (feedOpsEnd chunk)
  | [] => .endOnly
  | d :: ds => .byte d (callOps_feedOpsEnd ds)

theorem not_callOps_nil (chunk : List Byte) : ¬ CallOps chunk [] := nofun

theorem getLast?_ne_of_cons {i j : Instr} {ops : List Instr} (h : (i :: ops).getLast? ≠ some j) :
    ops.getLast? ≠ some j := by
  intro hops
  exact h (by simp [List.getLast?_cons, hops])

theorem eq_nil_of_filter_nop {ops : List Instr} (hnops : ops.filter (fun i => i != .faNop) = [])
    (hlast : ops.getLast? ≠ some .faNop) : ops = [] := by
  by_contra hne
  have hnop : ops.getLast hne = .faNop := by simpa using List.filter_eq_nil_iff.1 hnops _ (List.getLast_mem hne)
  exact hlast (by rw [List.getLast?_eq_some_getLast hne, hnop])

/-- Interposed `FA_NOP`s leave a call a call, unless one follows its last beat. -/
theorem CallOps.of_filter_nop {chunk : List Byte} {ops : List Instr}
    (h : CallOps chunk (ops.filter fun i => i != .faNop)) (hlast : ops.getLast? ≠ some .faNop) :
    CallOps chunk ops := by
  induction ops generalizing chunk with
  | nil => exact absurd h (not_callOps_nil chunk)
  | cons i ops ih =>
    have hlast' : ops.getLast? ≠ some .faNop := getLast?_ne_of_cons hlast
    by_cases hi : i = .faNop
    · subst hi
      exact .nop (ih h hlast')
    · rw [List.filter_cons_of_pos (by simpa using hi)] at h
      generalize hrest : ops.filter (fun i => i != .faNop) = rest at h ih
      cases h with
      | endOnly => rw [eq_nil_of_filter_nop hrest hlast']; exact .endOnly
      | last d => rw [eq_nil_of_filter_nop hrest hlast']; exact .last d
      | byte d h => exact .byte d (ih h hlast')
      | nop => exact absurd rfl hi

theorem State.SameButAssembler.trans {s t u : State} (hst : s.SameButAssembler t) (htu : t.SameButAssembler u) :
    s.SameButAssembler u :=
  ⟨htu.cfg.trans hst.cfg, htu.fifo.trans hst.fifo, htu.fifoReset.trans hst.fifoReset,
    htu.faReset.trans hst.faReset, htu.stimulus.trans hst.stimulus, htu.fifoLog.trans hst.fifoLog⟩

theorem State.sameButAssembler_afterBeat (s : State) (inEnd : Bool) (inData : Option Byte) :
    s.SameButAssembler (s.afterBeat inEnd inData) := ⟨rfl, rfl, rfl, rfl, rfl, rfl⟩

theorem State.sameButAssembler_with_fa (s : State) (a : Assembler) : s.SameButAssembler { s with fa := a } :=
  ⟨rfl, rfl, rfl, rfl, rfl, rfl⟩

/-- The operations of a call bring its bytes through phase B one by one, whatever `FA_NOP`s stand between. -/
theorem CallOps.execAll_next {chunk : List Byte} {ops : List Instr} (h : CallOps chunk ops) {s : State}
    (hreset : s.faReset = true) (hrange : s.fa.cursorsInRange s.cfg = true) :
    ∃ t, execAll ops s = .next t ∧ t.fa = s.fa.callEnd s.cfg chunk ∧ s.SameButAssembler t := by
  induction h generalizing s with
  | endOnly =>
    have hexec : exec .faEnd s = .next (s.afterBeat true none) := State.beatStep_eq hreset hrange true none
    exact ⟨_, execAll_cons hexec [], rfl, s.sameButAssembler_afterBeat true none⟩
  | last d =>
    have hexec : exec (.faLast d) s = .next (s.afterBeat true (some d)) :=
      State.beatStep_eq hreset hrange true (some d)
    exact ⟨_, execAll_cons hexec [], rfl, s.sameButAssembler_afterBeat true (some d)⟩
  | @byte d ds ops _ ih =>
    have hexec : exec (.faByte d) s = .next (s.afterBeat false (some d)) :=
      State.beatStep_eq hreset hrange false (some d)
    obtain ⟨t, hrun, hfa, hsame⟩ :=
      ih (s := s.afterBeat false (some d)) hreset (Assembler.cursorsInRange_beat hrange false (some d))
    refine ⟨t, (execAll_cons hexec ops).trans hrun, ?_, (s.sameButAssembler_afterBeat _ _).trans hsame⟩
    rw [hfa, State.afterBeat_cfg, State.afterBeat_fa, Assembler.callEnd_beat]
  | @nop ds ops _ ih =>
    have hexec : exec .faNop s = .next { s with fa := s.fa.withFlags s.fa.loPend false } := execFaNop_eq hreset
    obtain ⟨t, hrun, hfa, hsame⟩ := ih (s := { s with fa := s.fa.withFlags s.fa.loPend false }) hreset hrange
    refine ⟨t, (execAll_cons hexec ops).trans hrun, ?_, (s.sameButAssembler_with_fa _).trans hsame⟩
    rw [hfa, Assembler.callEnd_withFlags]

/-! ### Bytes received in bulk -/

/-- In FILL, bytes short of the packet go behind the cursor. -/
theorem Assembler.receive_of_short {c : Config} {a : Assembler} {ds : List Byte} (hfill : a.fsm = .fill)
    (hshort : a.w + ds.length < c.pkt) :
    a.receive c ds = { a with buf := Memory.writeList a.buf a.w ds, w := a.w + ds.length } := by
  induction ds generalizing a with
  | nil => rfl
  | cons d ds ih =>
    rw [List.length_cons] at hshort
    rw [Assembler.receive_cons, Assembler.phaseB_fill hfill, Assembler.fillByte_continues (by omega),
      ih rfl (by simp only; omega)]
    simp [hfill, Nat.add_assoc, Nat.add_comm 1]

/-- In FILL, exactly the bytes missing complete the packet. -/
theorem Assembler.receive_of_exact {c : Config} {a : Assembler} {ds : List Byte} (hfill : a.fsm = .fill)
    (hw : a.w < c.pkt) (hexact : a.w + ds.length = c.pkt) :
    a.receive c ds =
      { a with
        buf := Memory.writeList a.buf a.w ds
        pkt := Memory.writeList a.buf a.w ds
        w := 0
        fsm := .spill } := by
  obtain rfl | ⟨ds, d, rfl⟩ := ds.eq_nil_or_concat
  · simp only [List.length_nil] at hexact; omega
  · rw [List.concat_eq_append, List.length_append, List.length_singleton] at hexact
    rw [List.concat_eq_append, Assembler.receive_append, Assembler.receive_of_short hfill (by omega),
      Assembler.receive_cons, Assembler.receive_nil, Assembler.phaseB_fill,
      Assembler.fillByte_completes (by simp only; omega)]
    · simp [Memory.writeList_append]
    · exact hfill

/-- The surplus of a call staged in one go, the part that does not fit discarded (step 3 of R190). -/
def Assembler.stage (c : Config) (a : Assembler) (surplus : List Byte) : Assembler :=
  let fit := min surplus.length (c.loCap - a.loLen)
  { a with
    lo := Memory.writeList a.lo a.loLen (surplus.take fit)
    loLen := a.loLen + fit
    loOvf := a.loOvf || decide (fit < surplus.length) }

theorem Assembler.receive_of_spill {c : Config} {a : Assembler} {ds : List Byte} (hspill : a.fsm = .spill) :
    a.receive c ds = a.stage c ds := by
  induction ds generalizing a with
  | nil => simp [Assembler.stage]
  | cons d ds ih =>
    rw [Assembler.receive_cons, Assembler.phaseB_spill hspill]
    by_cases hroom : a.loLen < c.loCap
    · obtain ⟨room, hroom'⟩ : ∃ room, c.loCap - a.loLen = room + 1 := ⟨c.loCap - a.loLen - 1, by omega⟩
      have hless : c.loCap - (a.loLen + 1) = room := by omega
      rw [Assembler.spillByte_staged hroom, ih]
      · simp [Assembler.stage, hroom', hless, Nat.add_min_add_right, Nat.add_assoc, Nat.add_comm 1]
      · exact hspill
    · have hfull : c.loCap - a.loLen = 0 := by omega
      rw [Assembler.spillByte_overflows hroom, ih]
      · simp [Assembler.stage, hfull]
      · exact hspill

/-! ### The document's algorithm -/

/-- Phase A is step 1 of R190, and the check whether the packet is complete. -/
theorem Assembler.phaseA_eq_callDrain {c : Config} {a : Assembler} (hidle : a.fsm = .idle) :
    a.phaseA c =
      if (a.callDrain c).w = c.pkt then
        { a.callDrain c with pkt := (a.callDrain c).buf, w := 0, fsm := .spill }
      else { a.callDrain c with fsm := .fill } := if_pos hidle

theorem Assembler.callDrain_w_le {c : Config} {a : Assembler} (hw : a.w ≤ c.pkt) : (a.callDrain c).w ≤ c.pkt := by
  simp only [Assembler.callDrain]
  omega

theorem Assembler.callChunk_of_short {c : Config} {a : Assembler} {chunk : List Byte}
    (hshort : chunk.length < c.pkt - a.w) :
    a.callChunk c chunk =
      { a with
        buf := Memory.writeList a.buf a.w chunk
        w := a.w + chunk.length
        resComplete := false } := if_pos hshort

/-- Steps 3 and 4 of R190: the packet is completed first, then the surplus is staged. -/
theorem Assembler.callChunk_of_enough {c : Config} {a : Assembler} {chunk : List Byte}
    (henough : ¬ chunk.length < c.pkt - a.w) :
    a.callChunk c chunk =
      ({ a with
          buf := Memory.writeList a.buf a.w (chunk.take (c.pkt - a.w))
          pkt := Memory.writeList a.buf a.w (chunk.take (c.pkt - a.w))
          w := 0
          resComplete := true } : Assembler).stage c (chunk.drop (c.pkt - a.w)) := if_neg henough

/-- Ending a call in SPILL, after the surplus is staged. -/
theorem Assembler.phaseC_end_stage {c : Config} {a : Assembler} (hspill : a.fsm = .spill) (surplus : List Byte) :
    (a.stage c surplus).phaseC true =
      { ({ a with resComplete := true } : Assembler).stage c surplus with
        loPend := (a.stage c surplus).loLen != 0, resValid := true, fsm := .idle } := by
  simp [Assembler.phaseC_end, Assembler.stage, hspill]

/-- The state the FILL bytes of a call leave when there are enough of them: the moment `need` reaches 0. -/
theorem Assembler.receive_phaseA_of_enough {c : Config} {a : Assembler} {chunk : List Byte} (hidle : a.fsm = .idle)
    (hw : a.w ≤ c.pkt) (henough : ¬ chunk.length < c.pkt - (a.callDrain c).w) :
    (a.phaseA c).receive c (chunk.take (c.pkt - (a.callDrain c).w)) =
      { a.callDrain c with
        buf := Memory.writeList (a.callDrain c).buf (a.callDrain c).w (chunk.take (c.pkt - (a.callDrain c).w))
        pkt := Memory.writeList (a.callDrain c).buf (a.callDrain c).w (chunk.take (c.pkt - (a.callDrain c).w))
        w := 0
        fsm := .spill } := by
  have hle : (a.callDrain c).w ≤ c.pkt := Assembler.callDrain_w_le hw
  rw [Assembler.phaseA_eq_callDrain hidle]
  by_cases hfull : (a.callDrain c).w = c.pkt
  · simp [hfull]
  · have hlen : (chunk.take (c.pkt - (a.callDrain c).w)).length = c.pkt - (a.callDrain c).w :=
      List.length_take_of_le (by omega)
    rw [if_neg hfull, Assembler.receive_of_exact rfl (by simp only; omega) (by simp only; omega)]

/-- Phase A, phase B for every byte and phase C are the document's algorithm (R190). -/
theorem Assembler.callEnd_eq_feedCall {c : Config} {a : Assembler} (hidle : a.fsm = .idle) (hw : a.w ≤ c.pkt)
    (chunk : List Byte) : a.callEnd c chunk = a.feedCall c chunk := by
  rw [Assembler.callEnd, Assembler.feedCall]
  by_cases hshort : chunk.length < c.pkt - (a.callDrain c).w
  · have hfill : (a.callDrain c).w ≠ c.pkt := by omega
    rw [Assembler.phaseA_eq_callDrain hidle, if_neg hfill, Assembler.receive_of_short rfl (by simp only; omega),
      Assembler.callChunk_of_short hshort]
    rfl
  · have hsplit := List.take_append_drop (c.pkt - (a.callDrain c).w) chunk
    rw [← congrArg ((a.phaseA c).receive c) hsplit, Assembler.receive_append,
      Assembler.receive_phaseA_of_enough hidle hw hshort, Assembler.receive_of_spill rfl,
      Assembler.phaseC_end_stage rfl, Assembler.callChunk_of_enough hshort]
    rfl

/-- Settles O50: the operations are those of a call, which brings the chunk through the phases byte by byte, and that
is what the algorithm does in bulk. -/
theorem beatsAgreeWithTheWholeCall : Obligations.BeatsAgreeWithTheWholeCall := by
  intro chunk ops s hreset _ hinv hidle hbeats hlast
  have hcall : CallOps chunk (ops.filter fun i => i != .faNop) := by
    rcases hbeats with hfeed | hfeedEnd
    · rw [hfeed]; exact callOps_feedOps chunk
    · rw [hfeedEnd]; exact callOps_feedOpsEnd chunk
  obtain ⟨t, hrun, hfa, hsame⟩ := (hcall.of_filter_nop hlast).execAll_next hreset hinv.cursorsInRange
  exact ⟨t, hrun, hfa.trans (Assembler.callEnd_eq_feedCall hidle hinv.widths.w_lt.le chunk), hsame⟩

end Sys2Proof.Machine
end

section
/-! Proofs about command words (spec/30_encoding.md). A word of format W or F is its flag bits followed by the data
byte; the operation map looks at the flag bits only, and the byte is the operand as it stands (R101 to R105). -/

namespace Sys2Proof

/-! ### Words as flag bits and data byte -/

theorem exists_eq_append_byte {k : Nat} (c : BitVec (k + 8)) : ∃ (flags : BitVec k) (d : Byte), c = flags ++ d :=
  ⟨c.extractLsb' 8 k, c.extractLsb' 0 8, by
    rw [BitVec.extractLsb'_append_extractLsb'_eq_extractLsb' (Nat.zero_add 8).symm, BitVec.extractLsb'_eq_self]⟩

theorem append_byte_inj {k : Nat} {flags flags' : BitVec k} {d d' : Byte} :
    (flags ++ d).toNat = (flags' ++ d').toNat ↔ flags = flags' ∧ d = d' := by
  rw [BitVec.toNat_inj]
  refine ⟨fun h => ⟨?_, ?_⟩, fun ⟨hflags, hd⟩ => by rw [hflags, hd]⟩
  · simpa only [BitVec.extractLsb'_append_eq_left] using congrArg (BitVec.extractLsb' 8 k) h
  · simpa only [BitVec.extractLsb'_append_eq_right] using congrArg (BitVec.extractLsb' 0 8) h

/-- A mask above the data byte leaves the flag bits it selects. -/
theorem append_byte_and_mask {k : Nat} (flags : BitVec k) (d : Byte) (m : Nat) :
    (flags ++ d).toNat &&& m <<< 8 = (flags.toNat &&& m) <<< 8 := by
  have hbyte : d.toNat &&& m <<< 8 = 0 := by
    refine Nat.eq_of_testBit_eq fun i => ?_
    rw [Nat.testBit_and, Nat.testBit_shiftLeft, Nat.zero_testBit]
    by_cases hi : 8 ≤ i
    · rw [BitVec.testBit_toNat, BitVec.getLsbD_of_ge d i hi, Bool.false_and]
    · simp [hi]
  rw [BitVec.toNat_append, Nat.and_or_distrib_right, hbyte, Nat.or_zero, Nat.shiftLeft_and_distrib]

theorem append_byte_and_mask_eq_iff {k : Nat} (flags : BitVec k) (d : Byte) (m v : Nat) :
    (flags ++ d).toNat &&& m <<< 8 = v <<< 8 ↔ flags.toNat &&& m = v := by
  rw [append_byte_and_mask, Nat.shiftLeft_eq, Nat.shiftLeft_eq, Nat.mul_left_inj (by decide)]

theorem operandByte_append {k : Nat} (flags : BitVec k) (d : Byte) : operandByte (flags ++ d) = d :=
  BitVec.extractLsb'_append_eq_right

/-- Format W by its flag bits `wrst_n`, `winc`. -/
theorem decodeWrite_append (flags : BitVec 2) (d : Byte) :
    decodeWrite (flags ++ d) =
      if flags.getLsbD 1 then if flags.getLsbD 0 then .enq d else .wnop else .wrst := by
  rw [decodeWrite, BitVec.getLsbD_append, BitVec.getLsbD_append, operandByte_append]
  rfl

/-- Format F by its flag bits `rst_n`, `in_end`, `in_valid`. -/
theorem decodeBeat_append (flags : BitVec 3) (d : Byte) :
    decodeBeat (flags ++ d) =
      if flags.getLsbD 2 then
        if flags.getLsbD 1 then if flags.getLsbD 0 then .faLast d else .faEnd
        else if flags.getLsbD 0 then .faByte d else .faNop
      else .faReset := by
  rw [decodeBeat, BitVec.getLsbD_append, BitVec.getLsbD_append, BitVec.getLsbD_append, operandByte_append]
  rfl

theorem bitVec_two_cases : ∀ x : BitVec 2, x = 0 ∨ x = 1 ∨ x = 2 ∨ x = 3 := by decide

theorem bitVec_three_cases :
    ∀ x : BitVec 3, x = 0 ∨ x = 1 ∨ x = 2 ∨ x = 3 ∨ x = 4 ∨ x = 5 ∨ x = 6 ∨ x = 7 := by decide

/-! ### Decoding and encoding -/

theorem decode_encode (i : Instr) : decode (encode i) = i := by
  cases i with
  | enq d => exact decodeWrite_append 0b11 d
  | faByte d => exact decodeBeat_append 0b101 d
  | faLast d => exact decodeBeat_append 0b111 d
  | _ => rfl

theorem decode_port (c : CommandWord) : (decode c).port = c.port := by
  cases c with
  | write c =>
    obtain ⟨flags, d, rfl⟩ := exists_eq_append_byte (k := 2) c
    rw [decode, decodeWrite_append]
    split_ifs <;> rfl
  | read c => revert c; decide
  | assembler c =>
    obtain ⟨flags, d, rfl⟩ := exists_eq_append_byte (k := 3) c
    rw [decode, decodeBeat_append]
    split_ifs <;> rfl

/-- All bits of a word with an operand are fixed bits or operand. -/
theorem append_byte_and_ones_eq_iff {k n : Nat} (hn : n = 2 ^ (k + 8) - 1) {flags flags' : BitVec k} {d d' : Byte} :
    (flags ++ d).toNat &&& n = (flags' ++ d').toNat ↔ flags = flags' ∧ d = d' := by
  rw [hn, Nat.and_two_pow_sub_one_of_lt_two_pow (flags ++ d).isLt, append_byte_inj]

/-- A word of format W decodes to an operation by the bits the operation does not ignore. -/
theorem decodeWrite_eq_iff (flags : BitVec 2) (d : Byte) {i : Instr} (hi : i.port = .write) :
    decodeWrite (flags ++ d) = i ↔ (flags ++ d).toNat &&& i.careMask = (encode i).value := by
  rw [decodeWrite_append]
  cases i with
  | wrst =>
    refine Iff.trans ?_ (append_byte_and_mask_eq_iff flags d 2 0).symm
    rcases bitVec_two_cases flags with rfl | rfl | rfl | rfl <;> simp
  | wnop =>
    refine Iff.trans ?_ (append_byte_and_mask_eq_iff flags d 3 2).symm
    rcases bitVec_two_cases flags with rfl | rfl | rfl | rfl <;> simp
  | enq e =>
    refine Iff.trans ?_ (append_byte_and_ones_eq_iff (flags' := 0b11#2) rfl).symm
    rcases bitVec_two_cases flags with rfl | rfl | rfl | rfl <;> simp
  | rrst | rnop | deq | faReset | faNop | faByte | faEnd | faLast => cases hi

/-- A word of format F decodes to an operation by the bits the operation does not ignore. -/
theorem decodeBeat_eq_iff (flags : BitVec 3) (d : Byte) {i : Instr} (hi : i.port = .assembler) :
    decodeBeat (flags ++ d) = i ↔ (flags ++ d).toNat &&& i.careMask = (encode i).value := by
  rw [decodeBeat_append]
  cases i with
  | faReset =>
    refine Iff.trans ?_ (append_byte_and_mask_eq_iff flags d 4 0).symm
    rcases bitVec_three_cases flags with rfl | rfl | rfl | rfl | rfl | rfl | rfl | rfl <;> simp
  | faNop =>
    refine Iff.trans ?_ (append_byte_and_mask_eq_iff flags d 7 4).symm
    rcases bitVec_three_cases flags with rfl | rfl | rfl | rfl | rfl | rfl | rfl | rfl <;> simp
  | faEnd =>
    refine Iff.trans ?_ (append_byte_and_mask_eq_iff flags d 7 6).symm
    rcases bitVec_three_cases flags with rfl | rfl | rfl | rfl | rfl | rfl | rfl | rfl <;> simp
  | faByte e =>
    refine Iff.trans ?_ (append_byte_and_ones_eq_iff (flags' := 0b101#3) rfl).symm
    rcases bitVec_three_cases flags with rfl | rfl | rfl | rfl | rfl | rfl | rfl | rfl <;> simp
  | faLast e =>
    refine Iff.trans ?_ (append_byte_and_ones_eq_iff (flags' := 0b111#3) rfl).symm
    rcases bitVec_three_cases flags with rfl | rfl | rfl | rfl | rfl | rfl | rfl | rfl <;> simp
  | wrst | wnop | enq | rrst | rnop | deq => cases hi

/-- A word of format R decodes to an operation by the bits the operation does not ignore. -/
theorem decodeRead_eq_iff (c : ReadWord) {i : Instr} (hi : i.port = .read) :
    decodeRead c = i ↔ c.toNat &&& i.careMask = (encode i).value := by
  cases i with
  | rrst => revert c; decide
  | rnop => revert c; decide
  | deq => revert c; decide
  | wrst | wnop | enq | faReset | faNop | faByte | faEnd | faLast => cases hi

/-- Settles O1: a word decodes to an operation of its own port, and there by the bits that are not ignored. -/
theorem decodeAgreesWithEncode : Obligations.DecodeAgreesWithEncode := by
  intro i _
  refine ⟨decode_encode i, fun c => ?_⟩
  by_cases hport : c.port = i.port
  · rw [eq_true hport, true_and]
    cases c with
    | write c =>
      obtain ⟨flags, d, rfl⟩ := exists_eq_append_byte (k := 2) c
      exact decodeWrite_eq_iff flags d hport.symm
    | read c => exact decodeRead_eq_iff c hport.symm
    | assembler c =>
      obtain ⟨flags, d, rfl⟩ := exists_eq_append_byte (k := 3) c
      exact decodeBeat_eq_iff flags d hport.symm
  · exact ⟨fun h => absurd (by rw [← h, decode_port]) hport, fun h => absurd h.1 hport⟩

/-! ### The operation map -/

/-- The masks of the rows of formats W and F lie above the data byte. -/
theorem mask_of_mem_opRows {r : OpRow} (hr : r ∈ opRows) : r.port = .read ∨ ∃ m, r.mask = m <<< 8 := by
  have hrows : ∀ r ∈ opRows, r.port = .read ∨ r.mask = (r.mask >>> 8) <<< 8 := by decide
  exact (hrows r hr).imp_right fun h => ⟨_, h⟩

/-- Which rows a word of format W selects does not depend on its data byte. -/
theorem selectedBy_write_append {r : OpRow} (hr : r ∈ opRows) (flags : BitVec 2) (d : Byte) :
    r.selectedBy (.write (flags ++ d)) = r.selectedBy (.write (flags ++ 0#8)) := by
  rcases mask_of_mem_opRows hr with hread | ⟨m, hm⟩
  · rw [OpRow.selectedBy, OpRow.selectedBy, hread]; rfl
  · simp only [OpRow.selectedBy, CommandWord.port, CommandWord.value, hm, append_byte_and_mask]

/-- Which rows a word of format F selects does not depend on its data byte. -/
theorem selectedBy_assembler_append {r : OpRow} (hr : r ∈ opRows) (flags : BitVec 3) (d : Byte) :
    r.selectedBy (.assembler (flags ++ d)) = r.selectedBy (.assembler (flags ++ 0#8)) := by
  rcases mask_of_mem_opRows hr with hread | ⟨m, hm⟩
  · rw [OpRow.selectedBy, OpRow.selectedBy, hread]; rfl
  · simp only [OpRow.selectedBy, CommandWord.port, CommandWord.value, hm, append_byte_and_mask]

theorem mnemonic_decodeWrite_append (flags : BitVec 2) (d : Byte) :
    (decodeWrite (flags ++ d)).mnemonic = (decodeWrite (flags ++ 0#8)).mnemonic := by
  rw [decodeWrite_append, decodeWrite_append]
  split_ifs <;> rfl

theorem mnemonic_decodeBeat_append (flags : BitVec 3) (d : Byte) :
    (decodeBeat (flags ++ d)).mnemonic = (decodeBeat (flags ++ 0#8)).mnemonic := by
  rw [decodeBeat_append, decodeBeat_append]
  split_ifs <;> rfl

/-- The rows a word selects are the one of the operation it decodes to: the flag bits alone decide both. -/
theorem filter_selectedBy_eq (c : CommandWord) :
    (opRows.filter fun r => r.selectedBy c).map OpRow.mnemonic = [(decode c).mnemonic] := by
  cases c with
  | write c =>
    obtain ⟨flags, d, rfl⟩ := exists_eq_append_byte (k := 2) c
    rw [List.filter_congr fun r hr => selectedBy_write_append hr flags d, decode, mnemonic_decodeWrite_append]
    revert flags; decide
  | read c => revert c; decide
  | assembler c =>
    obtain ⟨flags, d, rfl⟩ := exists_eq_append_byte (k := 3) c
    rw [List.filter_congr fun r hr => selectedBy_assembler_append hr flags d, decode, mnemonic_decodeBeat_append]
    revert flags; decide

theorem word_port_value (c : CommandWord) : c.port.word c.value = c := by
  cases c <;> simp [CommandWord.port, CommandWord.value, Port.word]

theorem carries_port_value (c : CommandWord) : c.port.carries c.value = true := by
  cases c with
  | write c => exact decide_eq_true c.isLt
  | read c => exact decide_eq_true c.isLt
  | assembler c => exact decide_eq_true c.isLt

/-- Settles O2: the flag bits select one row, and the pins of a port carry each of its words. -/
theorem everyWordSelectsExactlyOneRow : Obligations.EveryWordSelectsExactlyOneRow := by
  intro c
  refine ⟨filter_selectedBy_eq c, ?_⟩
  rw [decodeNumber, if_pos (carries_port_value c), word_port_value]

/-- Settles O3: the vectors are eleven closed words. -/
theorem writtenOutWordsDecode : Obligations.WrittenOutWordsDecode := by
  unfold Obligations.WrittenOutWordsDecode
  decide

end Sys2Proof
end

section
/-! The FIFO's pointers without their wraps. The invariant of spec/10_state.md R39 says that the six pointer values
of the two domains stand in one order round the ring and span at most `C`; here they are natural numbers that never
wrap, and each half of a step is addition on these. -/

namespace Sys2Proof.Machine

/-! ### Modular pointers and their unwrapped positions -/

theorem addMod_mod (k a n : Nat) : addMod k (a % 2 ^ k) n = (a + n) % 2 ^ k := Nat.mod_add_mod _ _ _

theorem nextPtr_mod (c : Config) (p : Nat) : nextPtr c (p % c.ptrMod) = (p + 1) % c.ptrMod := addMod_mod _ _ _

theorem subMod_mod {k a b : Nat} (hle : b ≤ a) (hlt : a - b < 2 ^ k) : subMod k (a % 2 ^ k) (b % 2 ^ k) = a - b := by
  rw [subMod_eq_iff_eq_addMod (Nat.mod_lt _ (Nat.two_pow_pos k)) (Nat.mod_lt _ (Nat.two_pow_pos k)) hlt, addMod_mod,
    Nat.add_sub_cancel' hle]

theorem add_subMod_mod {k a b : Nat} (ha : a < 2 ^ k) : (b + subMod k a (b % 2 ^ k)) % 2 ^ k = a := by
  rw [← addMod_mod]
  exact ((subMod_eq_iff_eq_addMod ha (Nat.mod_lt _ (Nat.two_pow_pos k)) (subMod_lt _ _ _)).1 rfl).symm

/-- Distances to one pointer add up when they are in order. -/
theorem subMod_add_subMod_of_le {k a b p : Nat} (ha : a < 2 ^ k) (hb : b < 2 ^ k) (hp : p < 2 ^ k)
    (hle : subMod k b p ≤ subMod k a p) : subMod k a b + subMod k b p = subMod k a p := by
  rw [subMod_eq hb hp, subMod_eq ha hp] at hle
  rw [subMod_eq ha hb, subMod_eq hb hp, subMod_eq ha hp]
  split_ifs at hle ⊢ <;> omega

/-- Distances from one pointer add up when they are in order. -/
theorem subMod_add_subMod_of_le' {k a p q : Nat} (ha : a < 2 ^ k) (hp : p < 2 ^ k) (hq : q < 2 ^ k)
    (hle : subMod k a p ≤ subMod k a q) : subMod k a p + subMod k p q = subMod k a q := by
  rw [subMod_eq ha hp, subMod_eq ha hq] at hle
  rw [subMod_eq ha hp, subMod_eq hp hq, subMod_eq ha hq]
  split_ifs at hle ⊢ <;> omega

theorem capacity_lt_ptrMod (c : Config) : c.capacity < c.ptrMod := by
  have := ptrMod_eq c
  have := capacity_pos c
  omega

theorem slot_mod (c : Config) (p : Nat) : slot c (p % c.ptrMod) = p % c.capacity :=
  Nat.mod_mod_of_dvd _ (Nat.pow_dvd_pow 2 (Nat.le_succ _))

/-- The pointer values the FIFO holds, as natural numbers that never wrap, in their order round the ring: the read
pointer as the writer's two synchroniser stages hold it, the read pointer, the write pointer as the reader's two
stages hold it, the write pointer. -/
structure Positions where
  wq2 : Nat
  wq1 : Nat
  rd : Nat
  rq2 : Nat
  rq1 : Nat
  wr : Nat

/-- The positions stand in order and span at most `C`. -/
structure Positions.Ordered (c : Config) (p : Positions) : Prop where
  wq2_le : p.wq2 ≤ p.wq1
  wq1_le : p.wq1 ≤ p.rd
  rd_le : p.rd ≤ p.rq2
  rq2_le : p.rq2 ≤ p.rq1
  rq1_le : p.rq1 ≤ p.wr
  wr_le : p.wr ≤ p.wq2 + c.capacity

/-- The FIFO's registers are these positions modulo `2^(N+1)`, the grey ones in grey code, and `mem` is an array. -/
structure Fifo.At (c : Config) (f : Fifo) (p : Positions) : Prop where
  mem_wf : Memory.wf f.wd.mem = true
  mem_within : Memory.within c.capacity f.wd.mem = true
  ordered : p.Ordered c
  wbin_eq : f.wd.wbin = p.wr % c.ptrMod
  wgray_eq : f.wd.wgray = b2g (p.wr % c.ptrMod)
  wq1_eq : f.wd.wq1Rptr = b2g (p.wq1 % c.ptrMod)
  wq2_eq : f.wd.wq2Rptr = b2g (p.wq2 % c.ptrMod)
  rbin_eq : f.rd.rbin = p.rd % c.ptrMod
  rgray_eq : f.rd.rgray = b2g (p.rd % c.ptrMod)
  rq1_eq : f.rd.rq1Wptr = b2g (p.rq1 % c.ptrMod)
  rq2_eq : f.rd.rq2Wptr = b2g (p.rq2 % c.ptrMod)

theorem mod_ptrMod_lt (c : Config) (p : Nat) : p % c.ptrMod < c.ptrMod := Nat.mod_lt _ (Nat.two_pow_pos _)

theorem g2b_b2g_mod (c : Config) (p : Nat) : g2b c.ptrW (b2g (p % c.ptrMod)) = p % c.ptrMod :=
  g2b_b2g (mod_ptrMod_lt c p)

theorem subMod_mod_ptrMod {c : Config} {a b : Nat} (hle : b ≤ a) (hspan : a ≤ b + c.capacity) :
    subMod c.ptrW (a % c.ptrMod) (b % c.ptrMod) = a - b := by
  have := capacity_lt_ptrMod c
  exact subMod_mod hle (by show a - b < c.ptrMod; omega)

/-- Positions at most `C` apart are told apart by the register's bits. -/
theorem b2g_mod_eq_iff {c : Config} {a b : Nat} (hle : b ≤ a) (hspan : a ≤ b + c.capacity) :
    b2g (a % c.ptrMod) = b2g (b % c.ptrMod) ↔ a = b := by
  have hsub := subMod_mod_ptrMod hle hspan
  refine ⟨fun h => ?_, fun h => by rw [h]⟩
  rw [(b2g_inj (mod_ptrMod_lt c a) (mod_ptrMod_lt c b)).1 h, subMod_self] at hsub
  omega

section
variable {c : Config} {f : Fifo} {p : Positions}

theorem Fifo.At.count_eq (h : f.At c p) : f.count c = p.wr - p.rd := by
  obtain ⟨_, _, _, _, _, _⟩ := h.ordered
  rw [Fifo.count, h.wbin_eq, h.rbin_eq, subMod_mod_ptrMod (by omega) (by omega)]

theorem Fifo.At.wcount_eq (h : f.At c p) : f.wcount c = p.wr - p.wq2 := by
  obtain ⟨_, _, _, _, _, _⟩ := h.ordered
  rw [Fifo.wcount, h.wbin_eq, h.wq2_eq, g2b_b2g_mod, subMod_mod_ptrMod (by omega) (by omega)]

theorem Fifo.At.rcount_eq (h : f.At c p) : f.rcount c = p.rq2 - p.rd := by
  obtain ⟨_, _, _, _, _, _⟩ := h.ordered
  rw [Fifo.rcount, h.rq2_eq, h.rbin_eq, g2b_b2g_mod, subMod_mod_ptrMod (by omega) (by omega)]

theorem Fifo.At.widths (h : f.At c p) : f.Widths c where
  mem_wf := h.mem_wf
  mem_within := h.mem_within
  wbin_lt := h.wbin_eq ▸ mod_ptrMod_lt c _
  wgray_lt := h.wgray_eq ▸ b2g_lt (mod_ptrMod_lt c _)
  wq1_lt := h.wq1_eq ▸ b2g_lt (mod_ptrMod_lt c _)
  wq2_lt := h.wq2_eq ▸ b2g_lt (mod_ptrMod_lt c _)
  rbin_lt := h.rbin_eq ▸ mod_ptrMod_lt c _
  rgray_lt := h.rgray_eq ▸ b2g_lt (mod_ptrMod_lt c _)
  rq1_lt := h.rq1_eq ▸ b2g_lt (mod_ptrMod_lt c _)
  rq2_lt := h.rq2_eq ▸ b2g_lt (mod_ptrMod_lt c _)

theorem trailsPtr_mod {q2 q1 q : Nat} (h2 : q2 ≤ q1) (h1 : q1 ≤ q) (hspan : q ≤ q2 + c.capacity) :
    trailsPtr c (q2 % c.ptrMod) (q1 % c.ptrMod) (q % c.ptrMod) := by
  rw [trailsPtr, subMod_mod_ptrMod h2 (by omega), subMod_mod_ptrMod h1 (by omega),
    subMod_mod_ptrMod (h2.trans h1) hspan]
  omega

/-- Positions in order make the invariant of R39. -/
theorem Fifo.At.inv (h : f.At c p) : f.Inv c := by
  obtain ⟨_, _, _, _, _, _⟩ := h.ordered
  refine ⟨h.widths, h.wbin_eq ▸ h.wgray_eq, h.rbin_eq ▸ h.rgray_eq, ?_, ?_, ?_, ?_, ?_⟩
  · rw [h.rcount_eq, h.count_eq]; omega
  · rw [h.count_eq, h.wcount_eq]; omega
  · rw [h.wcount_eq]; omega
  · rw [h.wq2_eq, h.wq1_eq, h.rbin_eq, g2b_b2g_mod, g2b_b2g_mod]
    exact trailsPtr_mod (by omega) (by omega) (by omega)
  · rw [h.rq2_eq, h.rq1_eq, h.wbin_eq, g2b_b2g_mod, g2b_b2g_mod]
    exact trailsPtr_mod (by omega) (by omega) (by omega)

/-- The positions a FIFO's registers stand at, counted from the oldest one. -/
def Fifo.positions (c : Config) (f : Fifo) : Positions :=
  let wq2 := g2b c.ptrW f.wd.wq2Rptr
  let wq1 := wq2 + subMod c.ptrW (g2b c.ptrW f.wd.wq1Rptr) wq2
  let rd := wq1 + subMod c.ptrW f.rd.rbin (g2b c.ptrW f.wd.wq1Rptr)
  let rq2 := rd + f.rcount c
  let rq1 := rq2 + subMod c.ptrW (g2b c.ptrW f.rd.rq1Wptr) (g2b c.ptrW f.rd.rq2Wptr)
  { wq2 := wq2, wq1 := wq1, rd := rd, rq2 := rq2, rq1 := rq1
    wr := rq1 + subMod c.ptrW f.wd.wbin (g2b c.ptrW f.rd.rq1Wptr) }

/-- The distances between neighbours add up to `wcount`. -/
theorem Fifo.Inv.positions_wr_eq (h : f.Inv c) : (f.positions c).wr = (f.positions c).wq2 + f.wcount c := by
  obtain ⟨hrtrail, -⟩ := h.rptr_trails
  obtain ⟨hwtrail, -⟩ := h.wptr_trails
  have hread : subMod c.ptrW f.wd.wbin (g2b c.ptrW f.rd.rq2Wptr) + f.rcount c = f.count c :=
    subMod_add_subMod_of_le h.widths.wbin_lt (g2b_lt h.widths.rq2_lt _) h.widths.rbin_lt h.rcount_le
  have hwrite : f.count c + subMod c.ptrW f.rd.rbin (g2b c.ptrW f.wd.wq2Rptr) = f.wcount c :=
    subMod_add_subMod_of_le' h.widths.wbin_lt h.widths.rbin_lt (g2b_lt h.widths.wq2_lt _) h.count_le
  simp only [Fifo.positions]
  omega

/-- The invariant of R39 gives the registers positions in order. -/
theorem Fifo.Inv.at_positions (h : f.Inv c) : f.At c (f.positions c) := by
  have hsum := h.positions_wr_eq
  have hcap := h.wcount_le
  have grey {g : Nat} (hg : g < c.ptrMod) : b2g (g2b c.ptrW g) = g := b2g_g2b hg
  have fits {g : Nat} (hg : g < c.ptrMod) : g2b c.ptrW g < 2 ^ c.ptrW := g2b_lt hg _
  have hwq2 : (f.positions c).wq2 % c.ptrMod = g2b c.ptrW f.wd.wq2Rptr := Nat.mod_eq_of_lt (fits h.widths.wq2_lt)
  have next {a b q : Nat} (ha : a < 2 ^ c.ptrW) (hq : q % c.ptrMod = b) : (q + subMod c.ptrW a b) % c.ptrMod = a :=
    hq ▸ add_subMod_mod ha
  have hwq1 : (f.positions c).wq1 % c.ptrMod = g2b c.ptrW f.wd.wq1Rptr := next (fits h.widths.wq1_lt) hwq2
  have hrd : (f.positions c).rd % c.ptrMod = f.rd.rbin := next h.widths.rbin_lt hwq1
  have hrq2 : (f.positions c).rq2 % c.ptrMod = g2b c.ptrW f.rd.rq2Wptr := next (fits h.widths.rq2_lt) hrd
  have hrq1 : (f.positions c).rq1 % c.ptrMod = g2b c.ptrW f.rd.rq1Wptr := next (fits h.widths.rq1_lt) hrq2
  have hwr : (f.positions c).wr % c.ptrMod = f.wd.wbin := next h.widths.wbin_lt hrq1
  exact
    { mem_wf := h.widths.mem_wf
      mem_within := h.widths.mem_within
      ordered := ⟨Nat.le_add_right _ _, Nat.le_add_right _ _, Nat.le_add_right _ _, Nat.le_add_right _ _,
        Nat.le_add_right _ _, by omega⟩
      wbin_eq := hwr.symm
      wgray_eq := by rw [hwr, h.wgray_eq]
      wq1_eq := by rw [hwq1, grey h.widths.wq1_lt]
      wq2_eq := by rw [hwq2, grey h.widths.wq2_lt]
      rbin_eq := hrd.symm
      rgray_eq := by rw [hrd, h.rgray_eq]
      rq1_eq := by rw [hrq1, grey h.widths.rq1_lt]
      rq2_eq := by rw [hrq2, grey h.widths.rq2_lt] }

/-! ### The flags and the storage at positions -/

theorem Fifo.At.wfull_iff (h : f.At c p) : f.wfull c = true ↔ p.wr = p.wq2 + c.capacity := by
  obtain ⟨_, _, _, _, _, _⟩ := h.ordered
  rw [Fifo.wfull_iff h.inv, h.wcount_eq]
  omega

theorem Fifo.At.wfull_eq_false_iff (h : f.At c p) : f.wfull c = false ↔ p.wr < p.wq2 + c.capacity := by
  obtain ⟨-, -, -, -, -, hcap⟩ := h.ordered
  rw [← Bool.not_eq_true, h.wfull_iff]
  omega

theorem Fifo.At.rempty_iff (h : f.At c p) : f.rempty = true ↔ p.rq2 = p.rd := by
  obtain ⟨_, _, _, _, _, _⟩ := h.ordered
  rw [Fifo.rempty_iff h.inv, h.rcount_eq]
  omega

theorem Fifo.At.rempty_eq_false_iff (h : f.At c p) : f.rempty = false ↔ p.rd < p.rq2 := by
  obtain ⟨-, -, hle, -, -, -⟩ := h.ordered
  rw [← Bool.not_eq_true, h.rempty_iff]
  omega

theorem Fifo.At.head_eq (h : f.At c p) : f.head c = p.rd % c.capacity := by rw [Fifo.head, h.rbin_eq, slot_mod]

theorem Fifo.At.tail_eq (h : f.At c p) : f.tail c = p.wr % c.capacity := by rw [Fifo.tail, h.wbin_eq, slot_mod]

/-- The stored bytes stand at the positions from the read pointer up to the write pointer. -/
theorem Fifo.At.stored_eq (h : f.At c p) :
    f.stored c = (List.range' p.rd (p.wr - p.rd)).map fun i => Memory.read f.wd.mem (i % c.capacity) := by
  rw [Fifo.stored, h.count_eq, h.head_eq, List.range'_eq_map_range, List.map_map]
  refine List.map_congr_left fun j _ => ?_
  rw [Nat.mod_add_mod]
  rfl

/-! ### What each half does to the positions -/

/-- The positions after a W step: the writer's stages move up, and an accepted byte moves the write pointer on. -/
def Positions.afterWrite (p : Positions) (accepted : Bool) : Positions :=
  { p with wq2 := p.wq1, wq1 := p.rd, wr := p.wr + accepted.toNat }

/-- The positions after an R step: the reader's stages move up, and a byte taken moves the read pointer on. -/
def Positions.afterRead (p : Positions) (taken : Bool) : Positions :=
  { p with rq2 := p.rq1, rq1 := p.wr, rd := p.rd + taken.toNat }

/-- The positions after a WR step: every stage takes the value from before it. -/
def Positions.afterBoth (p : Positions) (accepted taken : Bool) : Positions :=
  { wq2 := p.wq1, wq1 := p.rd, rd := p.rd + taken.toNat, rq2 := p.rq1, rq1 := p.wr, wr := p.wr + accepted.toNat }

theorem Fifo.writeHalf_wbin (f : Fifo) (q : Option Byte) :
    (f.writeHalf c q).wbin = if f.wok c q.isSome then nextPtr c f.wd.wbin else f.wd.wbin := by
  rcases f.writeHalf_cases c q with ⟨hkept, hok⟩ | ⟨d, -, -, hok, haccepted⟩
  · rw [hkept, hok]; rfl
  · rw [haccepted, hok]; rfl

theorem Fifo.writeHalf_wgray (f : Fifo) (q : Option Byte) :
    (f.writeHalf c q).wgray = if f.wok c q.isSome then b2g (nextPtr c f.wd.wbin) else f.wd.wgray := by
  rcases f.writeHalf_cases c q with ⟨hkept, hok⟩ | ⟨d, -, -, hok, haccepted⟩
  · rw [hkept, hok]; rfl
  · rw [haccepted, hok]; rfl

theorem Fifo.readHalf_rbin (f : Fifo) (b : Bool) :
    (f.readHalf c b).rbin = if f.rok b then nextPtr c f.rd.rbin else f.rd.rbin := by
  cases hok : f.rok b with
  | false => rw [Fifo.readHalf_idle hok]; rfl
  | true => rw [Fifo.readHalf_taken hok]; rfl

theorem Fifo.readHalf_rgray (f : Fifo) (b : Bool) :
    (f.readHalf c b).rgray = if f.rok b then b2g (nextPtr c f.rd.rbin) else f.rd.rgray := by
  cases hok : f.rok b with
  | false => rw [Fifo.readHalf_idle hok]; rfl
  | true => rw [Fifo.readHalf_taken hok]; rfl

theorem Fifo.At.wbin_writeHalf (h : f.At c p) (q : Option Byte) :
    (f.writeHalf c q).wbin = (p.wr + (f.wok c q.isSome).toNat) % c.ptrMod := by
  rw [Fifo.writeHalf_wbin, h.wbin_eq, nextPtr_mod]
  cases f.wok c q.isSome <;> rfl

theorem Fifo.At.wgray_writeHalf (h : f.At c p) (q : Option Byte) :
    (f.writeHalf c q).wgray = b2g ((p.wr + (f.wok c q.isSome).toNat) % c.ptrMod) := by
  rw [Fifo.writeHalf_wgray, h.wgray_eq, h.wbin_eq, nextPtr_mod]
  cases f.wok c q.isSome <;> rfl

theorem Fifo.At.rbin_readHalf (h : f.At c p) (b : Bool) :
    (f.readHalf c b).rbin = (p.rd + (f.rok b).toNat) % c.ptrMod := by
  rw [Fifo.readHalf_rbin, h.rbin_eq, nextPtr_mod]
  cases f.rok b <;> rfl

theorem Fifo.At.rgray_readHalf (h : f.At c p) (b : Bool) :
    (f.readHalf c b).rgray = b2g ((p.rd + (f.rok b).toNat) % c.ptrMod) := by
  rw [Fifo.readHalf_rgray, h.rgray_eq, h.rbin_eq, nextPtr_mod]
  cases f.rok b <;> rfl

/-- A byte is accepted only where the writer's own view has room. -/
theorem Fifo.At.wr_add_wok_le (h : f.At c p) (q : Bool) : p.wr + (f.wok c q).toNat ≤ p.wq2 + c.capacity := by
  cases hok : f.wok c q with
  | false => exact h.ordered.wr_le
  | true =>
    rw [Fifo.wok, Bool.and_eq_true, Bool.not_eq_true'] at hok
    exact h.wfull_eq_false_iff.1 hok.2

/-- A byte is taken only where the reader's own view has one. -/
theorem Fifo.At.rd_add_rok_le (h : f.At c p) (b : Bool) : p.rd + (f.rok b).toNat ≤ p.rq2 := by
  cases hok : f.rok b with
  | false => exact h.ordered.rd_le
  | true => exact h.rempty_eq_false_iff.1 (Fifo.rok_iff.1 hok).2

theorem Fifo.At.afterWrite (h : f.At c p) (q : Option Byte) :
    ({ f with wd := f.writeHalf c q } : Fifo).At c (p.afterWrite (f.wok c q.isSome)) where
  mem_wf := (f.mem_writeHalf q h.mem_wf h.mem_within).1
  mem_within := (f.mem_writeHalf q h.mem_wf h.mem_within).2
  ordered := by
    obtain ⟨_, _, _, _, _, _⟩ := h.ordered
    have := h.wr_add_wok_le q.isSome
    constructor <;> simp only [Positions.afterWrite] <;> omega
  wbin_eq := h.wbin_writeHalf q
  wgray_eq := h.wgray_writeHalf q
  wq1_eq := (f.writeHalf_wq1Rptr c q).trans h.rgray_eq
  wq2_eq := (f.writeHalf_wq2Rptr c q).trans h.wq1_eq
  rbin_eq := h.rbin_eq
  rgray_eq := h.rgray_eq
  rq1_eq := h.rq1_eq
  rq2_eq := h.rq2_eq

theorem Fifo.At.afterRead (h : f.At c p) (b : Bool) :
    ({ f with rd := f.readHalf c b } : Fifo).At c (p.afterRead (f.rok b)) where
  mem_wf := h.mem_wf
  mem_within := h.mem_within
  ordered := by
    obtain ⟨_, _, _, _, _, _⟩ := h.ordered
    have := h.rd_add_rok_le b
    constructor <;> simp only [Positions.afterRead] <;> omega
  wbin_eq := h.wbin_eq
  wgray_eq := h.wgray_eq
  wq1_eq := h.wq1_eq
  wq2_eq := h.wq2_eq
  rbin_eq := h.rbin_readHalf b
  rgray_eq := h.rgray_readHalf b
  rq1_eq := (f.readHalf_rq1Wptr c b).trans h.wgray_eq
  rq2_eq := (f.readHalf_rq2Wptr c b).trans h.rq1_eq

theorem Fifo.At.afterBoth (h : f.At c p) (q : Option Byte) (b : Bool) :
    ({ wd := f.writeHalf c q, rd := f.readHalf c b } : Fifo).At c (p.afterBoth (f.wok c q.isSome) (f.rok b)) where
  mem_wf := (f.mem_writeHalf q h.mem_wf h.mem_within).1
  mem_within := (f.mem_writeHalf q h.mem_wf h.mem_within).2
  ordered := by
    obtain ⟨_, _, _, _, _, _⟩ := h.ordered
    have := h.wr_add_wok_le q.isSome
    have := h.rd_add_rok_le b
    constructor <;> simp only [Positions.afterBoth] <;> omega
  wbin_eq := h.wbin_writeHalf q
  wgray_eq := h.wgray_writeHalf q
  wq1_eq := (f.writeHalf_wq1Rptr c q).trans h.rgray_eq
  wq2_eq := (f.writeHalf_wq2Rptr c q).trans h.wq1_eq
  rbin_eq := h.rbin_readHalf b
  rgray_eq := h.rgray_readHalf b
  rq1_eq := (f.readHalf_rq1Wptr c b).trans h.wgray_eq
  rq2_eq := (f.readHalf_rq2Wptr c b).trans h.rq1_eq

end

/-- After RESET every position is 0. -/
theorem Fifo.at_zero (c : Config) : Fifo.zero.At c ⟨0, 0, 0, 0, 0, 0⟩ := by
  refine ⟨rfl, rfl, ⟨le_rfl, le_rfl, le_rfl, le_rfl, le_rfl, Nat.zero_le _⟩, ?_, ?_, ?_, ?_, ?_, ?_, ?_, ?_⟩ <;>
    simp [Fifo.zero]

theorem Fifo.zero_wfull (c : Config) : Fifo.zero.wfull c = false :=
  (Fifo.at_zero c).wfull_eq_false_iff.2 (by simpa using capacity_pos c)

end Sys2Proof.Machine
end

section
/-! Proofs about single edges of the FIFO's ports (spec/40_ringbuffer_ops.md): each operation is the step of the FIFO
with what coincides on the other port, and an edge outside a reset is the half of its own port from the state before
(R133 to R146). -/

namespace Sys2Proof.Machine

/-! ### Edges and resets of a port -/

/-- An edge of the write port, alone or coinciding with an edge of the read port. -/
theorem exec_write_edge {i : Instr} {q : Option Byte} (hi : writeOpOf i = some (.edge q)) {s : State}
    (hreset : s.fifoReset = true) (hread : s.coincidentRead ≠ some .reset) :
    ∃ t, exec i s = .next t ∧ s.SameButFifo t ∧ t.fifo.wd = s.fifo.writeHalf s.cfg q ∧
      (s.coincidentRead = none →
        t.fifo.rd = s.fifo.rd ∧ t.fifoLog = s.fifo.writeEvent s.cfg q :: s.fifoLog) ∧
      (∀ rinc, s.coincidentRead = some (.edge rinc) →
        t.fifoLog = s.fifo.readEvent s.cfg rinc :: s.fifo.writeEvent s.cfg q :: s.fifoLog) := by
  rw [exec_of_writeOp hi]
  rcases hco : s.coincidentRead with _ | _ | b
  · exact ⟨s.stepW q, by simp [State.fifoStep, hreset], ⟨rfl, rfl, rfl, rfl, rfl, rfl⟩, rfl,
      fun _ => ⟨rfl, rfl⟩, nofun⟩
  · exact absurd hco hread
  · refine ⟨s.stepWR q b, by simp [State.fifoStep, hreset], ⟨rfl, rfl, rfl, rfl, rfl, rfl⟩, rfl, nofun, ?_⟩
    rintro _ ⟨⟩
    rfl

/-- An edge of the read port, alone or coinciding with an edge of the write port. -/
theorem exec_read_edge {i : Instr} {b : Bool} (hi : readOpOf i = some (.edge b)) {s : State}
    (hreset : s.fifoReset = true) (hwrite : s.coincidentWrite ≠ some .reset) :
    ∃ t, exec i s = .next t ∧ s.SameButFifo t ∧ t.fifo.rd = s.fifo.readHalf s.cfg b ∧
      (s.coincidentWrite = none →
        t.fifo.wd = s.fifo.wd ∧ t.fifoLog = s.fifo.readEvent s.cfg b :: s.fifoLog) ∧
      (∀ request, s.coincidentWrite = some (.edge request) →
        t.fifoLog = s.fifo.readEvent s.cfg b :: s.fifo.writeEvent s.cfg request :: s.fifoLog) := by
  rw [exec_of_readOp hi]
  rcases hco : s.coincidentWrite with _ | _ | q
  · exact ⟨s.stepR b, by simp [State.fifoStep, hreset], ⟨rfl, rfl, rfl, rfl, rfl, rfl⟩, rfl,
      fun _ => ⟨rfl, rfl⟩, nofun⟩
  · exact absurd hco hwrite
  · refine ⟨s.stepWR q b, by simp [State.fifoStep, hreset], ⟨rfl, rfl, rfl, rfl, rfl, rfl⟩, rfl, nofun, ?_⟩
    rintro _ ⟨⟩
    rfl

theorem exec_write_alone {i : Instr} {q : Option Byte} (hi : writeOpOf i = some (.edge q)) {s : State}
    (hreset : s.fifoReset = true) (halone : s.alone) : exec i s = .next (s.stepW q) := by
  rw [exec_of_writeOp hi, halone.1, State.fifoStep, if_pos hreset]

theorem exec_read_alone {i : Instr} {b : Bool} (hi : readOpOf i = some (.edge b)) {s : State}
    (hreset : s.fifoReset = true) (halone : s.alone) : exec i s = .next (s.stepR b) := by
  rw [exec_of_readOp hi, halone.2, State.fifoStep, if_pos hreset]

theorem writeOpOf_decodeWrite (cw : WriteWord) :
    ∃ w, writeOpOf (decodeWrite cw) = some w ∧ (w = .reset ↔ cw.getLsbD 9 = false) := by
  unfold decodeWrite
  cases cw.getLsbD 9 with
  | false => exact ⟨_, rfl, by simp⟩
  | true =>
    cases cw.getLsbD 8 with
    | false => exact ⟨_, rfl, by simp⟩
    | true => exact ⟨_, rfl, by simp⟩

theorem readOpOf_decodeRead (cr : ReadWord) :
    ∃ r, readOpOf (decodeRead cr) = some r ∧ (r = .reset ↔ cr.getLsbD 1 = false) := by
  unfold decodeRead
  cases cr.getLsbD 1 with
  | false => exact ⟨_, rfl, by simp⟩
  | true =>
    cases cr.getLsbD 0 with
    | false => exact ⟨_, rfl, by simp⟩
    | true => exact ⟨_, rfl, by simp⟩

/-- Settles O5: both halves name the same two port operations of the line. -/
theorem coincidentStepIsTheSameFromEitherHalf : Obligations.CoincidentStepIsTheSameFromEitherHalf := by
  intro s cw cr rest hs
  obtain ⟨w, hw, -⟩ := writeOpOf_decodeWrite cw
  obtain ⟨r, hr, -⟩ := readOpOf_decodeRead cr
  have hread : s.coincidentRead = some r := by simp [State.coincidentRead, hs, hr]
  have hwrite : s.coincidentWrite = some w := by simp [State.coincidentWrite, hs, hw]
  rw [exec_of_writeOp hw, exec_of_readOp hr, hread, hwrite]

/-! ### Resets and refusals -/

theorem State.fifoStep_reset_of_ne {s : State} {r : Option ReadOp} (h : r ≠ some .reset) :
    s.fifoStep (some .reset) r = .refused .partialReset := by
  rcases r with _ | _ | b
  · rfl
  · exact absurd rfl h
  · rfl

theorem State.fifoStep_of_ne_reset {s : State} {w : Option WriteOp} (h : w ≠ some .reset) :
    s.fifoStep w (some .reset) = .refused .partialReset := by
  rcases w with _ | _ | q
  · rfl
  · exact absurd rfl h
  · rfl

theorem State.fifoStep_write_unreset {s : State} (hreset : s.fifoReset = false) {r : Option ReadOp}
    (h : r ≠ some .reset) (q : Option Byte) : s.fifoStep (some (.edge q)) r = .refused .noReset := by
  rcases r with _ | _ | b
  · simp [State.fifoStep, hreset]
  · exact absurd rfl h
  · simp [State.fifoStep, hreset]

theorem State.fifoStep_read_unreset {s : State} (hreset : s.fifoReset = false) {w : Option WriteOp}
    (h : w ≠ some .reset) (b : Bool) : s.fifoStep w (some (.edge b)) = .refused .noReset := by
  rcases w with _ | _ | q
  · simp [State.fifoStep, hreset]
  · exact absurd rfl h
  · simp [State.fifoStep, hreset]

theorem State.beatStep_unreset {s : State} (hreset : s.faReset = false) (inEnd : Bool) (inData : Option Byte) :
    s.beatStep inEnd inData = .refused .noReset := by
  simp [State.beatStep, hreset]

/-- Settles O9: the two reset words together are RESET, whose FIFO is the zero state at positions 0. -/
theorem jointResetClearsTheFifo : Obligations.JointResetClearsTheFifo := by
  refine ⟨fun s hread => ⟨s.resetFifo, ?_, rfl, rfl, rfl, rfl, rfl, rfl, rfl, rfl⟩,
    fun s hwrite => ⟨s.resetFifo, ?_, rfl, rfl, rfl, rfl, rfl, rfl, rfl, rfl⟩,
    fun _ => rfl, rfl, rfl, rfl, rfl, rfl, rfl, rfl, rfl, fun c => ?_⟩
  · rw [exec_of_writeOp rfl, hread]; rfl
  · rw [exec_of_readOp rfl, hwrite]; rfl
  · have h := Fifo.at_zero c
    exact ⟨Fifo.zero_wfull c, h.rempty_iff.2 rfl,
      Fifo.rdata_of_rempty (h.rempty_iff.2 rfl), h.count_eq, h.wcount_eq, h.rcount_eq,
      h.head_eq.trans (Nat.zero_mod _), h.tail_eq.trans (Nat.zero_mod _)⟩

/-- Settles O10: a reset of one FIFO domain without the other is refused whichever port it is read from. -/
theorem partialResetIsRefused : Obligations.PartialResetIsRefused := by
  refine ⟨fun s hread => ?_, fun s hwrite => ?_, fun d s hread => ⟨?_, ?_⟩, fun s hwrite => ⟨?_, ?_⟩⟩
  · rw [exec_of_writeOp rfl, State.fifoStep_reset_of_ne hread]
  · rw [exec_of_readOp rfl, State.fifoStep_of_ne_reset hwrite]
  · rw [exec_of_writeOp rfl, hread, State.fifoStep_of_ne_reset (by simp)]
  · rw [exec_of_writeOp rfl, hread, State.fifoStep_of_ne_reset (by simp)]
  · rw [exec_of_readOp rfl, hwrite, State.fifoStep_reset_of_ne (by simp)]
  · rw [exec_of_readOp rfl, hwrite, State.fifoStep_reset_of_ne (by simp)]

/-- Settles O11: an edge, a beat and `FA_NOP` all test the reset bit of their block. -/
theorem unresetBlocksExecuteNothing : Obligations.UnresetBlocksExecuteNothing := by
  refine ⟨fun d s hreset hread => ⟨?_, ?_⟩, fun s hreset hwrite => ⟨?_, ?_⟩, fun d s hreset => ⟨?_, ?_, ?_, ?_⟩⟩
  · rw [exec_of_writeOp rfl, State.fifoStep_write_unreset hreset hread]
  · rw [exec_of_writeOp rfl, State.fifoStep_write_unreset hreset hread]
  · rw [exec_of_readOp rfl, State.fifoStep_read_unreset hreset hwrite]
  · rw [exec_of_readOp rfl, State.fifoStep_read_unreset hreset hwrite]
  · simp [exec, execFaNop, hreset]
  · rw [exec_faByte, State.beatStep_unreset hreset]
  · rw [exec_faEnd, State.beatStep_unreset hreset]
  · rw [exec_faLast, State.beatStep_unreset hreset]

/-! ### The write port -/

theorem Fifo.writeEvent_accepted {c : Config} {f : Fifo} (h : f.wfull c = false) (d : Byte) :
    f.writeEvent c (some d) = .write (some d) false true false := by
  simp [Fifo.writeEvent, Fifo.wok, Fifo.wfail, h]

theorem Fifo.writeEvent_full {c : Config} {f : Fifo} (h : f.wfull c = true) (d : Byte) :
    f.writeEvent c (some d) = .write (some d) true false true := by
  simp [Fifo.writeEvent, Fifo.wok, Fifo.wfail, h]

theorem Fifo.writeEvent_none (c : Config) (f : Fifo) :
    f.writeEvent c none = .write none (f.wfull c) false false := rfl

/-- Settles O13: the accepted byte goes to `tail`, which is `wbin` modulo `C`. -/
theorem enqStoresTheByteWhenNotFull : Obligations.EnqStoresTheByteWhenNotFull := by
  intro d s hreset hread hmem hroom
  obtain ⟨t, hexec, hsame, hwd, halone, hboth⟩ := exec_write_edge (i := .enq d) rfl hreset hread
  rw [Fifo.writeEvent_accepted hroom] at halone hboth
  rw [Fifo.writeHalf_accepted hroom] at hwd
  refine ⟨t, hexec, hsame, fun i => ?_, ?_, ?_, ?_, ?_, halone, hboth⟩
  · rw [hwd]; exact Memory.read_write hmem _ _ i
  · rw [hwd]; rfl
  · rw [hwd]; rfl
  · rw [hwd]
  · rw [hwd]

/-- Settles O14: a refused byte leaves the write half to the synchroniser. -/
theorem enqDropsTheByteWhenFull : Obligations.EnqDropsTheByteWhenFull := by
  intro d s hreset hread hfull
  obtain ⟨t, hexec, hsame, hwd, halone, hboth⟩ := exec_write_edge (i := .enq d) rfl hreset hread
  rw [Fifo.writeEvent_full hfull] at halone hboth
  rw [Fifo.writeHalf_full hfull] at hwd
  exact ⟨t, hexec, hsame, by rw [hwd]; rfl, by rw [hwd]; rfl, by rw [hwd]; rfl, by rw [hwd]; rfl, by rw [hwd]; rfl,
    halone, hboth⟩

/-- Settles O15: an edge without a request is the synchroniser alone. -/
theorem wnopOnlySynchronises : Obligations.WnopOnlySynchronises := by
  refine ⟨fun d => ?_, fun s hreset hread => ?_⟩
  · exact decodeWrite_append 0b10 d
  · obtain ⟨t, hexec, hsame, hwd, halone, hboth⟩ := exec_write_edge (i := .wnop) rfl hreset hread
    rw [Fifo.writeEvent_none] at halone hboth
    rw [Fifo.writeHalf_none] at hwd
    exact ⟨t, hexec, hsame, by rw [hwd]; rfl, by rw [hwd]; rfl, by rw [hwd]; rfl, by rw [hwd]; rfl,
      by rw [hwd]; rfl, halone, hboth⟩

/-! ### The read port -/

theorem Fifo.rok_true (f : Fifo) : f.rok true = !f.rempty := Bool.true_and _

theorem Fifo.rok_false (f : Fifo) : f.rok false = false := Bool.false_and _

/-- Settles O16: the byte taken stands at `head`, which is `rbin` modulo `C`. -/
theorem deqReturnsTheHeadWhenNotEmpty : Obligations.DeqReturnsTheHeadWhenNotEmpty := by
  intro s hreset hwrite hbyte
  obtain ⟨t, hexec, hsame, hrd, halone, hboth⟩ := exec_read_edge (i := .deq) rfl hreset hwrite
  have hok : s.fifo.rok true = true := by rw [Fifo.rok_true, hbyte]; rfl
  have hevent : s.fifo.readEvent s.cfg true =
      .read true false (Memory.read s.fifo.wd.mem (s.fifo.rd.rbin % 2 ^ s.cfg.addrW)) true := by
    rw [Fifo.readEvent, hok, hbyte, Fifo.rdata_of_not_rempty hbyte]; rfl
  rw [hevent] at halone hboth
  rw [Fifo.readHalf_taken hok] at hrd
  exact ⟨t, hexec, hsame, by rw [hrd]; rfl, by rw [hrd]; rfl, by rw [hrd], by rw [hrd], halone, hboth⟩

/-- Settles O17: with nothing to take the read half is the synchroniser alone. -/
theorem deqReturnsZeroWhenEmpty : Obligations.DeqReturnsZeroWhenEmpty := by
  intro s hreset hwrite hempty
  obtain ⟨t, hexec, hsame, hrd, halone, hboth⟩ := exec_read_edge (i := .deq) rfl hreset hwrite
  have hok : s.fifo.rok true = false := by rw [Fifo.rok_true, hempty]; rfl
  have hevent : s.fifo.readEvent s.cfg true = .read true true 0x00 false := by
    rw [Fifo.readEvent, hok, hempty, Fifo.rdata_of_rempty hempty]
  rw [hevent] at halone hboth
  rw [Fifo.readHalf_idle hok] at hrd
  exact ⟨t, hexec, hsame, by rw [hrd]; rfl, by rw [hrd]; rfl, by rw [hrd]; rfl, by rw [hrd]; rfl, halone, hboth⟩

/-- Settles O18: without a request the read half is the synchroniser alone. -/
theorem rnopOnlySynchronises : Obligations.RnopOnlySynchronises := by
  refine ⟨by decide, fun s hreset hwrite => ?_⟩
  obtain ⟨t, hexec, hsame, hrd, halone, hboth⟩ := exec_read_edge (i := .rnop) rfl hreset hwrite
  rw [Fifo.readEvent, Fifo.rok_false] at halone hboth
  rw [Fifo.readHalf_idle s.fifo.rok_false] at hrd
  exact ⟨t, hexec, hsame, by rw [hrd]; rfl, by rw [hrd]; rfl, by rw [hrd]; rfl, by rw [hrd]; rfl, halone, hboth⟩

/-! ### Coinciding edges and what crosses the domains -/

theorem step_write_line {s : State} {cw : WriteWord} {rest : List Line} {q : Option Byte}
    (hs : s.stimulus = .w cw :: rest) (hop : writeOpOf (decodeWrite cw) = some (.edge q))
    (hreset : s.fifoReset = true) : step s = .next (s.stepW q).consumeLine := by
  refine step_of_line hs (exec_write_alone hop hreset ⟨?_, ?_⟩)
  · rw [State.coincidentRead, hs]
  · rw [State.coincidentWrite, hs]

theorem step_read_line {s : State} {cr : ReadWord} {rest : List Line} {b : Bool}
    (hs : s.stimulus = .r cr :: rest) (hop : readOpOf (decodeRead cr) = some (.edge b))
    (hreset : s.fifoReset = true) : step s = .next (s.stepR b).consumeLine := by
  refine step_of_line hs (exec_read_alone hop hreset ⟨?_, ?_⟩)
  · rw [State.coincidentRead, hs]
  · rw [State.coincidentWrite, hs]

theorem step_coincident_line {s : State} {cw : WriteWord} {cr : ReadWord} {rest : List Line} {q : Option Byte}
    {b : Bool} (hs : s.stimulus = .wr cw cr :: rest) (hwrite : writeOpOf (decodeWrite cw) = some (.edge q))
    (hread : readOpOf (decodeRead cr) = some (.edge b)) (hreset : s.fifoReset = true) :
    step s = .next (s.stepWR q b).consumeLine := by
  refine step_of_line hs ?_
  have hco : s.coincidentRead = some (.edge b) := by simp [State.coincidentRead, hs, hread]
  rw [Line.instr, exec_of_writeOp hwrite, hco, State.fifoStep, if_pos hreset]

theorem writeOpOf_decodeWrite_edge {cw : WriteWord} (h : cw.getLsbD 9 = true) :
    ∃ q, writeOpOf (decodeWrite cw) = some (.edge q) := by
  obtain ⟨w, hw, hiff⟩ := writeOpOf_decodeWrite cw
  cases w with
  | reset => exact absurd (hiff.1 rfl) (by simp [h])
  | edge q => exact ⟨q, hw⟩

theorem readOpOf_decodeRead_edge {cr : ReadWord} (h : cr.getLsbD 1 = true) :
    ∃ b, readOpOf (decodeRead cr) = some (.edge b) := by
  obtain ⟨r, hr, hiff⟩ := readOpOf_decodeRead cr
  cases r with
  | reset => exact absurd (hiff.1 rfl) (by simp [h])
  | edge b => exact ⟨b, hr⟩

/-- Three bytes stored, the pointers settled on both sides: the write pointer has wrapped to slot 0. -/
def threeStored : Fifo :=
  { wd := { mem := [(0, 0x41), (1, 0x42), (2, 0x43), (3, 0x44)], wbin := 4, wgray := 6, wq1Rptr := 1, wq2Rptr := 1 }
    rd := { rbin := 1, rgray := 1, rq1Wptr := 6, rq2Wptr := 6 } }

theorem threeStored_at : threeStored.At .scenario ⟨1, 1, 1, 4, 4, 4⟩ := by
  refine ⟨by decide, by decide, ⟨?_, ?_, ?_, ?_, ?_, ?_⟩, ?_, ?_, ?_, ?_, ?_, ?_, ?_, ?_⟩ <;> decide

theorem Assembler.inv_zero (c : Config) : Assembler.zero.Inv c :=
  ⟨⟨rfl, rfl, rfl, rfl, rfl, c.pkt_pos, Nat.zero_le _⟩, rfl, rfl, nofun, nofun, .inl rfl⟩

/-- Settles O19: the joint step is the two halves. The state that tells it from both orders holds three bytes and
room for one: the reader's first stage then shows whether the write came first, the writer's whether the read did. -/
theorem coincidentHalvesSeeTheStateBefore : Obligations.CoincidentHalvesSeeTheStateBefore := by
  refine ⟨fun s cw cr rest hs hreset hcw hcr => ?halves, ?orders⟩
  case halves =>
    obtain ⟨q, hq⟩ := writeOpOf_decodeWrite_edge hcw
    obtain ⟨b, hb⟩ := readOpOf_decodeRead_edge hcr
    exact ⟨_, _, _, step_coincident_line hs hq hb hreset,
      step_write_line (s := { s with stimulus := .w cw :: rest }) rfl hq hreset,
      step_read_line (s := { s with stimulus := .r cr :: rest }) rfl hb hreset,
      rfl, rfl, rfl, rfl, ⟨rfl, rfl, rfl, rfl, rfl, rfl⟩, _, _, rfl, rfl, rfl⟩
  case orders =>
    exact ⟨{ State.reset with fifo := threeStored }, 0x345, 0b11, ⟨fun _ => threeStored_at.inv, fun _ => Assembler.inv_zero _⟩,
      rfl, _, _, _, rfl, rfl, rfl, by decide, by decide⟩

theorem exec_write_alone_next {i : Instr} {q : Option Byte} (hi : writeOpOf i = some (.edge q)) {s t : State}
    (halone : s.alone) (h : exec i s = .next t) : t = s.stepW q := by
  rw [exec_of_writeOp hi, halone.1, State.fifoStep] at h
  split at h <;> cases h
  rfl

theorem exec_read_alone_next {i : Instr} {b : Bool} (hi : readOpOf i = some (.edge b)) {s t : State}
    (halone : s.alone) (h : exec i s = .next t) : t = s.stepR b := by
  rw [exec_of_readOp hi, halone.2, State.fifoStep] at h
  split at h <;> cases h
  rfl

theorem Fifo.rempty_congr {f f' : Fifo} (hrd : f.rd = f'.rd) : f.rempty = f'.rempty := by
  rw [Fifo.rempty, hrd, ← Fifo.rempty]

theorem Fifo.wfull_congr {c : Config} {f f' : Fifo} (hwd : f.wd = f'.wd) : f.wfull c = f'.wfull c := by
  rw [Fifo.wfull, hwd, ← Fifo.wfull]

theorem Fifo.readHalf_congr {c : Config} {f f' : Fifo} (hrd : f.rd = f'.rd) (hgray : f.wd.wgray = f'.wd.wgray)
    (b : Bool) : f.readHalf c b = f'.readHalf c b := by
  have hrok : f.rok b = f'.rok b := by rw [Fifo.rok, Fifo.rok, Fifo.rempty_congr hrd]
  cases hok : f'.rok b with
  | false => rw [Fifo.readHalf_idle (hrok.trans hok), Fifo.readHalf_idle hok, Fifo.syncR, Fifo.syncR, hrd, hgray]
  | true => rw [Fifo.readHalf_taken (hrok.trans hok), Fifo.readHalf_taken hok, hrd, hgray]

theorem Fifo.readEvent_congr {c : Config} {f f' : Fifo} (hrd : f.rd = f'.rd) (hmem : f.wd.mem = f'.wd.mem)
    (b : Bool) : f.readEvent c b = f'.readEvent c b := by
  have hempty : f.rempty = f'.rempty := Fifo.rempty_congr hrd
  have hdata : f.rdata c = f'.rdata c := by
    cases h : f'.rempty with
    | true => rw [Fifo.rdata_of_rempty (hempty.trans h), Fifo.rdata_of_rempty h]
    | false =>
      rw [Fifo.rdata_of_not_rempty (hempty.trans h), Fifo.rdata_of_not_rempty h, Fifo.head, Fifo.head, hrd, hmem]
  rw [Fifo.readEvent, Fifo.readEvent, Fifo.rok, Fifo.rok, hempty, hdata]

theorem Fifo.writeHalf_congr {c : Config} {f f' : Fifo} (hwd : f.wd = f'.wd) (hgray : f.rd.rgray = f'.rd.rgray)
    (q : Option Byte) : f.writeHalf c q = f'.writeHalf c q := by
  have hsync : f.syncW = f'.syncW := by rw [Fifo.syncW, Fifo.syncW, hwd, hgray]
  cases q with
  | none => exact hsync
  | some d =>
    have hfull : f.wfull c = f'.wfull c := Fifo.wfull_congr hwd
    cases h : f'.wfull c with
    | true => rw [Fifo.writeHalf_full (hfull.trans h), Fifo.writeHalf_full h, hsync]
    | false =>
      rw [Fifo.writeHalf_accepted (hfull.trans h), Fifo.writeHalf_accepted h, Fifo.tail, Fifo.tail, hwd, hgray]

theorem Fifo.writeEvent_congr {c : Config} {f f' : Fifo} (hwd : f.wd = f'.wd) (q : Option Byte) :
    f.writeEvent c q = f'.writeEvent c q := by
  rw [Fifo.writeEvent, Fifo.writeEvent, Fifo.wok, Fifo.wok, Fifo.wfail, Fifo.wfail, Fifo.wfull_congr hwd]

/-- Settles O30: a half computes from its own domain, the other one's grey pointer and, for `rdata`, from `mem`. -/
theorem onlyGreyPointersCrossTheDomains : Obligations.OnlyGreyPointersCrossTheDomains := by
  intro s s' t t' hcfg halone halone'
  refine ⟨fun hrd hgray hmem i hi ht ht' => ?read, fun hwd hgray i d hi ht ht' => ?write⟩
  case read =>
    obtain ⟨b, hop⟩ : ∃ b, readOpOf i = some (.edge b) := by
      rcases hi with rfl | rfl
      · exact ⟨false, rfl⟩
      · exact ⟨true, rfl⟩
    rw [exec_read_alone_next hop halone ht, exec_read_alone_next hop halone' ht']
    simp only [State.stepR_fifo, State.stepR_fifoLog, List.head?_cons, hcfg]
    exact ⟨Fifo.readHalf_congr hrd hgray b, congrArg some (Fifo.readEvent_congr hrd hmem b)⟩
  case write =>
    obtain ⟨q, hop⟩ : ∃ q, writeOpOf i = some (.edge q) := by
      rcases hi with rfl | rfl
      · exact ⟨none, rfl⟩
      · exact ⟨some d, rfl⟩
    rw [exec_write_alone_next hop halone ht, exec_write_alone_next hop halone' ht']
    simp only [State.stepW_fifo, State.stepW_fifoLog, List.head?_cons, hcfg]
    exact ⟨Fifo.writeHalf_congr hwd hgray q, congrArg some (Fifo.writeEvent_congr hwd q)⟩

end Sys2Proof.Machine
end

section
/-! What a step does to either block, said once, and the proofs that rest on it alone: the step itself
(spec/30_encoding.md R108), the separation of the blocks (spec/00_scope.md R6), and what changes `mem`. -/

namespace Sys2Proof.Machine

/-! ### The moves of a block -/

/-- What a step can do to the FIFO: nothing, RESET, or an edge of one port or of both. -/
inductive State.FifoMove (s : State) : State → Prop
  | idle : FifoMove s s
  | reset : FifoMove s s.resetFifo
  | write (hreset : s.fifoReset = true) (q : Option Byte) : FifoMove s (s.stepW q)
  | read (hreset : s.fifoReset = true) (b : Bool) : FifoMove s (s.stepR b)
  | both (hreset : s.fifoReset = true) (q : Option Byte) (b : Bool) : FifoMove s (s.stepWR q b)

/-- What a step can do to the assembler: nothing, FA_RESET, FA_NOP or a beat. -/
inductive State.FaMove (s : State) : State → Prop
  | idle : FaMove s s
  | reset : FaMove s { s with fa := Assembler.zero, faReset := true, faLog := .reset :: s.faLog }
  | nop (hreset : s.faReset = true) : FaMove s { s with fa := { s.fa with resValid := false } }
  | beat (hreset : s.faReset = true) (hrange : s.fa.cursorsInRange s.cfg = true) (inEnd : Bool)
      (inData : Option Byte) : FaMove s (s.afterBeat inEnd inData)

/-- Two states with the same FIFO, its history and its reset bit. -/
structure State.SameFifo (t u : State) : Prop where
  cfg : t.cfg = u.cfg
  fifo : t.fifo = u.fifo
  fifoReset : t.fifoReset = u.fifoReset
  fifoLog : t.fifoLog = u.fifoLog

/-- Two states with the same assembler, its history and its reset bit. -/
structure State.SameFa (t u : State) : Prop where
  cfg : t.cfg = u.cfg
  fa : t.fa = u.fa
  faReset : t.faReset = u.faReset
  faLog : t.faLog = u.faLog

/-- An operation moves each block in one of its ways. -/
theorem exec_moves {i : Instr} {s t : State} (h : exec i s = .next t) :
    (∃ u, s.FifoMove u ∧ t.SameFifo u) ∧ ∃ v, s.FaMove v ∧ t.SameFa v := by
  have sameFifo (u : State) : u.SameFifo u := ⟨rfl, rfl, rfl, rfl⟩
  have sameFa (u : State) : u.SameFa u := ⟨rfl, rfl, rfl, rfl⟩
  rcases exec_next h with ⟨-, rfl | ⟨hr, ⟨q, rfl⟩ | ⟨b, rfl⟩ | ⟨q, b, rfl⟩⟩⟩ | ⟨-, rfl⟩ | ⟨-, hr, rfl⟩ |
    ⟨e, d, -, hr, hc, rfl⟩
  · exact ⟨⟨_, .reset, sameFifo _⟩, s, .idle, rfl, rfl, rfl, rfl⟩
  · exact ⟨⟨_, .write hr q, sameFifo _⟩, s, .idle, rfl, rfl, rfl, rfl⟩
  · exact ⟨⟨_, .read hr b, sameFifo _⟩, s, .idle, rfl, rfl, rfl, rfl⟩
  · exact ⟨⟨_, .both hr q b, sameFifo _⟩, s, .idle, rfl, rfl, rfl, rfl⟩
  · exact ⟨⟨s, .idle, rfl, rfl, rfl, rfl⟩, _, .reset, sameFa _⟩
  · exact ⟨⟨s, .idle, rfl, rfl, rfl, rfl⟩, _, .nop hr, sameFa _⟩
  · exact ⟨⟨s, .idle, rfl, rfl, rfl, rfl⟩, _, .beat hr hc e d, sameFa _⟩

/-- A step moves each block in one of its ways. -/
theorem step_moves {s t : State} (h : step s = .next t) :
    (∃ u, s.FifoMove u ∧ t.SameFifo u) ∧ ∃ v, s.FaMove v ∧ t.SameFa v := by
  rcases step_next h with ⟨-, rfl⟩ | ⟨line, rest, u, -, hu, rfl⟩
  · exact ⟨⟨t, .idle, rfl, rfl, rfl, rfl⟩, t, .idle, rfl, rfl, rfl, rfl⟩
  · obtain ⟨⟨v, hv, hfifo⟩, w, hw, hfa⟩ := exec_moves hu
    exact ⟨⟨v, hv, hfifo.cfg, hfifo.fifo, hfifo.fifoReset, hfifo.fifoLog⟩,
      w, hw, hfa.cfg, hfa.fa, hfa.faReset, hfa.faLog⟩

theorem State.FifoMove.cfg {s u : State} (h : s.FifoMove u) : u.cfg = s.cfg := by cases h <;> rfl

theorem State.FifoMove.keeps_fifoReset {s u : State} (h : s.FifoMove u) (hs : s.fifoReset = true) :
    u.fifoReset = true := by
  cases h with
  | reset => rfl
  | idle | write | read | both => exact hs

theorem State.FaMove.cfg {s u : State} (h : s.FaMove u) : u.cfg = s.cfg := by cases h <;> rfl

theorem State.FaMove.keeps_faReset {s u : State} (h : s.FaMove u) (hs : s.faReset = true) :
    u.faReset = true := by
  cases h with
  | reset => rfl
  | idle | nop | beat => exact hs

/-! ### The step -/

/-- Settles O4: a step is `exec` of the first line's operation, the line taken off a next state. -/
theorem stepRunsTheDecodedOperation : Obligations.StepRunsTheDecodedOperation := by
  refine ⟨fun s hs => by rw [step, hs], fun s line rest hs => ⟨fun t ht => ?_, fun e he => ?_, fun e he => ?_⟩⟩
  · exact step_of_line hs ht
  · simp only [step, hs, he]
  · simp only [step, hs, he]

theorem step_of_line_refused {s : State} {line : Line} {rest : List Line} {e : Refusal}
    (hs : s.stimulus = line :: rest) (he : exec line.instr s = .refused e) : step s = .refused e := by
  simp only [step, hs, he]

/-! ### The blocks apart -/

/-- An operation of a FIFO port leaves everything of the assembler. -/
theorem exec_fifoPort_frame {i : Instr} {s t : State} (hi : i.port ≠ .assembler) (h : exec i s = .next t) :
    t.fa = s.fa ∧ t.faLog = s.faLog ∧ t.faReset = s.faReset ∧ t.cfg = s.cfg ∧ t.stimulus = s.stimulus := by
  rcases exec_next h with ⟨-, rfl | ⟨-, ⟨q, rfl⟩ | ⟨b, rfl⟩ | ⟨q, b, rfl⟩⟩⟩ | ⟨rfl, -⟩ | ⟨rfl, -⟩ | ⟨e, d, hbeat, -⟩
  · exact ⟨rfl, rfl, rfl, rfl, rfl⟩
  · exact ⟨rfl, rfl, rfl, rfl, rfl⟩
  · exact ⟨rfl, rfl, rfl, rfl, rfl⟩
  · exact ⟨rfl, rfl, rfl, rfl, rfl⟩
  · exact absurd rfl hi
  · exact absurd rfl hi
  · rcases hbeat with ⟨x, rfl, -⟩ | ⟨rfl, -⟩ | ⟨x, rfl, -⟩ <;> exact absurd rfl hi

/-- An operation of the assembler is FA_RESET, FA_NOP or a beat. -/
theorem exec_assembler_next {i : Instr} {s t : State} (hi : i.port = .assembler) (h : exec i s = .next t) :
    (i = .faReset ∧ t = { s with fa := Assembler.zero, faReset := true, faLog := .reset :: s.faLog }) ∨
    (i = .faNop ∧ s.faReset = true ∧ t = { s with fa := { s.fa with resValid := false } }) ∨
    (∃ e d, ((∃ x, i = .faByte x ∧ e = false ∧ d = some x) ∨ (i = .faEnd ∧ e = true ∧ d = none) ∨
        (∃ x, i = .faLast x ∧ e = true ∧ d = some x)) ∧
      s.faReset = true ∧ s.fa.cursorsInRange s.cfg = true ∧ t = s.afterBeat e d) :=
  (exec_next h).resolve_left fun hport => hport.1 hi

/-- Settles O55: the frames of the two kinds of operation, and the moves of a step. -/
theorem blocksLeaveEachOtherAlone : Obligations.BlocksLeaveEachOtherAlone := by
  refine ⟨fun i s t => exec_fifoPort_frame, fun i s t hi h => ?_, fun s t h => ?_⟩
  · rcases exec_assembler_next hi h with ⟨-, rfl⟩ | ⟨-, -, rfl⟩ | ⟨e, d, -, -, -, rfl⟩
    · exact ⟨rfl, rfl, rfl, rfl, rfl⟩
    · exact ⟨rfl, rfl, rfl, rfl, rfl⟩
    · exact ⟨rfl, rfl, rfl, rfl, rfl⟩
  · obtain ⟨⟨u, hu, hfifo⟩, v, hv, hfa⟩ := step_moves h
    exact ⟨hfifo.cfg.trans hu.cfg, fun hs => hfifo.fifoReset.trans (hu.keeps_fifoReset hs),
      fun hs => hfa.faReset.trans (hv.keeps_faReset hs)⟩

theorem exec_faNop_next {s t : State} (h : exec .faNop s = .next t) :
    s.faReset = true ∧ t = { s with fa := { s.fa with resValid := false } } := by
  by_cases hreset : s.faReset = true
  · rw [show exec .faNop s = _ from execFaNop_eq hreset] at h
    cases h
    exact ⟨hreset, rfl⟩
  · simp [exec, execFaNop, hreset] at h

theorem State.SameFa.beatStep {s s' t t' : State} (hsame : s.SameFa s') {inEnd : Bool} {inData : Option Byte}
    (h : s.beatStep inEnd inData = .next t) (h' : s'.beatStep inEnd inData = .next t') : t.SameFa t' := by
  obtain ⟨hcfg, hfa, hreset, hlog⟩ := hsame
  obtain ⟨-, -, rfl⟩ := State.beatStep_next h
  obtain ⟨-, -, rfl⟩ := State.beatStep_next h'
  exact ⟨hcfg, by simp [hcfg, hfa], hreset, by simp [hcfg, hfa, hlog]⟩

/-- The assembler after an operation is a function of the assembler before it. -/
theorem State.SameFa.exec {i : Instr} {s s' t t' : State} (hsame : s.SameFa s')
    (h : Machine.exec i s = .next t) (h' : Machine.exec i s' = .next t') : t.SameFa t' := by
  have fifoPort (hi : i.port ≠ .assembler) : t.SameFa t' := by
    obtain ⟨hfa, hlog, hreset, hcfg, -⟩ := exec_fifoPort_frame hi h
    obtain ⟨hfa', hlog', hreset', hcfg', -⟩ := exec_fifoPort_frame hi h'
    exact ⟨hcfg.trans (hsame.cfg.trans hcfg'.symm), hfa.trans (hsame.fa.trans hfa'.symm),
      hreset.trans (hsame.faReset.trans hreset'.symm), hlog.trans (hsame.faLog.trans hlog'.symm)⟩
  cases i with
  | wrst | wnop | enq | rrst | rnop | deq => exact fifoPort (by simp [Instr.port])
  | faReset =>
    cases h
    cases h'
    exact ⟨hsame.cfg, rfl, rfl, congrArg (.reset :: ·) hsame.faLog⟩
  | faNop =>
    obtain ⟨-, rfl⟩ := exec_faNop_next h
    obtain ⟨-, rfl⟩ := exec_faNop_next h'
    exact ⟨hsame.cfg, by simp [hsame.fa], hsame.faReset, hsame.faLog⟩
  | faByte d => exact hsame.beatStep (exec_faByte d s ▸ h) (exec_faByte d s' ▸ h')
  | faEnd => exact hsame.beatStep (exec_faEnd s ▸ h) (exec_faEnd s' ▸ h')
  | faLast d => exact hsame.beatStep (exec_faLast d s ▸ h) (exec_faLast d s' ▸ h')

/-- Settles O56: both steps execute the same line, and the assembler after it depends on the assembler alone. -/
theorem assemblerIsIndependentOfTheFifo : Obligations.AssemblerIsIndependentOfTheFifo := by
  intro s s' t t' hcfg hfa hreset hlog hstim h h'
  rcases step_next h with ⟨hs, rfl⟩ | ⟨line, rest, u, hs, hu, rfl⟩ <;>
    rcases step_next h' with ⟨hs', rfl⟩ | ⟨line', rest', u', hs', hu', rfl⟩
  · exact ⟨hfa, hreset, hlog⟩
  · simp [hs, hs'] at hstim
  · simp [hs, hs'] at hstim
  · obtain ⟨rfl, -⟩ : line = line' ∧ rest = rest' := by simpa [hs, hs'] using hstim
    have hsame := State.SameFa.exec ⟨hcfg, hfa, hreset, hlog⟩ hu hu'
    exact ⟨hsame.fa, hsame.faReset, hsame.faLog⟩

/-! ### The bytes a half stores and returns -/

/-- The bytes a write half stores: the requested one, if the port's own flag shows room (R133, R134). -/
def Fifo.accepts (c : Config) (f : Fifo) (q : Option Byte) : List Byte :=
  if f.wok c q.isSome then q.toList else []

/-- The bytes a read half returns: the one at `head`, if asked for and seen (R140, R141). -/
def Fifo.delivers (c : Config) (f : Fifo) (b : Bool) : List Byte :=
  if f.rok b then [Memory.read f.wd.mem (f.head c)] else []

theorem acceptedBytes_writeEvent (c : Config) (f : Fifo) (q : Option Byte) (log : List FifoEvent) :
    acceptedBytes (f.writeEvent c q :: log) = acceptedBytes log ++ f.accepts c q := by
  cases q with
  | none => exact (List.append_nil _).symm
  | some d =>
    cases hfull : f.wfull c with
    | true => simp [Fifo.writeEvent_full hfull, acceptedBytes, Fifo.accepts, Fifo.wok, hfull]
    | false => simp [Fifo.writeEvent_accepted hfull, acceptedBytes, Fifo.accepts, Fifo.wok, hfull]

@[simp] theorem acceptedBytes_readEvent (c : Config) (f : Fifo) (b : Bool) (log : List FifoEvent) :
    acceptedBytes (f.readEvent c b :: log) = acceptedBytes log := rfl

theorem deliveredBytes_readEvent (c : Config) (f : Fifo) (b : Bool) (log : List FifoEvent) :
    deliveredBytes (f.readEvent c b :: log) = deliveredBytes log ++ f.delivers c b := by
  cases hok : f.rok b with
  | false => simp [Fifo.readEvent, Fifo.delivers, deliveredBytes, hok]
  | true =>
    have hbyte : f.rempty = false := (Fifo.rok_iff.1 hok).2
    simp [Fifo.readEvent, Fifo.delivers, deliveredBytes, hok, Fifo.rdata_of_not_rempty hbyte]

@[simp] theorem deliveredBytes_writeEvent (c : Config) (f : Fifo) (q : Option Byte) (log : List FifoEvent) :
    deliveredBytes (f.writeEvent c q :: log) = deliveredBytes log := rfl

/-- A write half either keeps `mem` and accepts nothing, or accepts one byte into the slot at `tail`. -/
theorem Fifo.mem_writeHalf_cases (c : Config) (f : Fifo) (q : Option Byte) :
    ((f.writeHalf c q).mem = f.wd.mem ∧ f.accepts c q = []) ∨
    ∃ d, (f.writeHalf c q).mem = Memory.write f.wd.mem (f.tail c) d ∧ f.accepts c q = [d] := by
  rcases f.writeHalf_cases c q with ⟨hkept, hok⟩ | ⟨d, rfl, -, hok, haccepted⟩
  · exact .inl ⟨by rw [hkept]; rfl, by rw [Fifo.accepts, hok]; rfl⟩
  · exact .inr ⟨d, by rw [haccepted], by rw [Fifo.accepts, hok]; rfl⟩

/-! ### What changes `mem` -/

/-- `mem` and the accepted bytes change together, in a write half that accepts a byte, unless the move is RESET. -/
theorem State.FifoMove.mem_cases {s u : State} (h : s.FifoMove u) :
    u.fifoLog = .reset :: s.fifoLog ∨
    (u.fifo.wd.mem = s.fifo.wd.mem ∧ acceptedBytes u.fifoLog = acceptedBytes s.fifoLog) ∨
    ∃ d, u.fifo.wd.mem = Memory.write s.fifo.wd.mem (s.fifo.tail s.cfg) d ∧
      acceptedBytes u.fifoLog = acceptedBytes s.fifoLog ++ [d] := by
  have half (q : Option Byte) {m : Memory} {accepted : List Byte} (hm : m = (s.fifo.writeHalf s.cfg q).mem)
      (hacc : accepted = acceptedBytes s.fifoLog ++ s.fifo.accepts s.cfg q) :
      (m = s.fifo.wd.mem ∧ accepted = acceptedBytes s.fifoLog) ∨
      ∃ d, m = Memory.write s.fifo.wd.mem (s.fifo.tail s.cfg) d ∧ accepted = acceptedBytes s.fifoLog ++ [d] := by
    rcases s.fifo.mem_writeHalf_cases s.cfg q with ⟨hmem, hnone⟩ | ⟨d, hmem, hone⟩
    · exact .inl ⟨hm.trans hmem, by rw [hacc, hnone, List.append_nil]⟩
    · exact .inr ⟨d, hm.trans hmem, by rw [hacc, hone]⟩
  cases h with
  | idle => exact .inr (.inl ⟨rfl, rfl⟩)
  | reset => exact .inl rfl
  | write _ q => exact .inr (half q rfl (acceptedBytes_writeEvent _ _ _ _))
  | read => exact .inr (.inl ⟨rfl, rfl⟩)
  | both _ q b => exact .inr (half q rfl (acceptedBytes_writeEvent _ _ _ _))

/-- Settles O57: a move other than RESET keeps `mem`, or writes the byte it accepts at `tail`. -/
theorem onlyAcceptedEnqAndResetChangeMem : Obligations.OnlyAcceptedEnqAndResetChangeMem := by
  intro s t _ hwf h hnoreset
  obtain ⟨⟨u, hu, hsame⟩, -⟩ := step_moves h
  rw [hsame.fifoLog] at hnoreset
  rw [hsame.fifoLog, hsame.fifo]
  rcases hu.mem_cases with hreset | ⟨hmem, hacc⟩ | ⟨d, hmem, hacc⟩
  · exact absurd hreset hnoreset
  · rw [hmem, hacc]
    exact ⟨fun _ _ => rfl, fun d hd => absurd hd (by simp)⟩
  · rw [hmem, hacc]
    refine ⟨fun i hi => ?_, fun e he => ?_⟩
    · have hne : i ≠ s.fifo.tail s.cfg := hi.resolve_right (by simp)
      rw [Memory.read_write hwf, if_neg hne]
    · obtain rfl : d = e := by simpa using he
      exact (Memory.read_write hwf _ _ _).trans (if_pos rfl)

end Sys2Proof.Machine
end

section
/-! Proofs about the FIFO's counts, flags and order, all at the unwrapped positions of its pointers: the flags
(spec/10_state.md R39 to R41), the counts (R36), FIFO order (spec/20_memory.md R78) and the moves of a flag (R82). -/

namespace Sys2Proof.Machine

/-! ### Pointers and flags -/

/-- Settles O21: an increment on `N+1` bits, and the `N` bits of it below. -/
theorem pointersWrapAndSlotsFollow : Obligations.PointersWrapAndSlotsFollow := by
  intro c p hp
  have hpow : 2 ^ (c.addrW + 1) = 2 * 2 ^ c.addrW := Nat.pow_succ'
  have hpos : 0 < 2 ^ c.addrW := Nat.two_pow_pos _
  have hslot : slot c p < 2 ^ c.addrW := slot_lt c p
  refine ⟨?_, hslot, ?_⟩
  · have hnext : nextPtr c p = if p + 1 = 2 ^ (c.addrW + 1) then 0 else p + 1 := addMod_one_eq hp
    rw [hnext]
    split_ifs <;> omega
  · rw [nextPtr, slot_addMod, Config.capacity]
    split_ifs with hlast
    · rw [hlast, Nat.sub_add_cancel hpos, Nat.mod_self]
    · exact Nat.mod_eq_of_lt (by omega)

/-- Settles O22: the grey comparisons are comparisons of the counts they stand for. -/
theorem flagsAreTheDomainsCounts : Obligations.FlagsAreTheDomainsCounts :=
  fun _ _ h => ⟨Fifo.wfull_iff h, Fifo.rempty_iff h⟩

/-- Settles O23: `rcount ≤ count ≤ wcount`, with equality where the synchronisers hold the current pointers. -/
theorem flagsAreSafeAndExactWhenSettled : Obligations.FlagsAreSafeAndExactWhenSettled := by
  intro c f h
  refine ⟨fun hroom => h.count_le.trans_lt (Fifo.wcount_lt_of_not_wfull h hroom),
    fun hbyte => (Fifo.rcount_pos_of_not_rempty h hbyte).trans_le h.rcount_le, fun hsettled => ?_⟩
  rw [Fifo.settled, Bool.and_eq_true, beq_iff_eq, beq_iff_eq] at hsettled
  obtain ⟨hread, hwrite⟩ := hsettled
  constructor
  · rw [Fifo.wcount, hread, h.rgray_eq, show g2b c.ptrW _ = _ from g2b_b2g h.widths.rbin_lt, Fifo.count]
  · rw [Fifo.rcount, hwrite, h.wgray_eq, show g2b c.ptrW _ = _ from g2b_b2g h.widths.wbin_lt, Fifo.count]

/-! ### The stored bytes as a window of `mem` -/

/-- The bytes at the positions from one up to another, each in its slot of an array of `C` elements. -/
def Memory.window (m : Memory) (C start stop : Nat) : List Byte :=
  (List.range' start (stop - start)).map fun i => Memory.read m (i % C)

theorem Memory.window_eq_cons (m : Memory) (C : Nat) {start stop : Nat} (h : start < stop) :
    m.window C start stop = Memory.read m (start % C) :: m.window C (start + 1) stop := by
  obtain ⟨n, hn⟩ : ∃ n, stop - start = n + 1 := ⟨stop - start - 1, by omega⟩
  rw [Memory.window, hn, List.range'_succ, List.map_cons, Memory.window, (by omega : stop - (start + 1) = n)]

/-- A byte written one position behind the window extends it, as long as the window leaves a slot free. -/
theorem Memory.window_write {m : Memory} (hwf : Memory.wf m = true) {C start stop : Nat} (hle : start ≤ stop)
    (hroom : stop < start + C) (d : Byte) :
    (Memory.write m (stop % C) d).window C start (stop + 1) = m.window C start stop ++ [d] := by
  rw [Memory.window, Nat.succ_sub hle, List.range'_concat, List.map_append, List.map_singleton, Memory.window,
    Nat.one_mul, Nat.add_sub_cancel' hle, Memory.read_write hwf, if_pos rfl]
  congr 1
  refine List.map_congr_left fun i hi => ?_
  obtain ⟨hlow, hhigh⟩ := List.mem_range'_1.1 hi
  rw [Memory.read_write hwf, if_neg]
  intro hslot
  have hmod : start + (i - start) ≡ start + (stop - start) [MOD C] := by
    rw [Nat.add_sub_cancel' hlow, Nat.add_sub_cancel' hle]; exact hslot
  have := Nat.ModEq.eq_of_lt_of_lt (hmod.add_left_cancel' _) (by omega) (by omega)
  omega

section
variable {c : Config} {f : Fifo} {p : Positions}

theorem Fifo.At.stored_eq_window (h : f.At c p) : f.stored c = f.wd.mem.window c.capacity p.rd p.wr := h.stored_eq

theorem Fifo.length_stored (c : Config) (f : Fifo) : (f.stored c).length = f.count c := by simp [Fifo.stored]

theorem Fifo.At.window_writeHalf (h : f.At c p) (q : Option Byte) :
    (f.writeHalf c q).mem.window c.capacity p.rd (p.wr + (f.wok c q.isSome).toNat) = f.stored c ++ f.accepts c q := by
  obtain ⟨_, _, _, _, _, _⟩ := h.ordered
  rw [h.stored_eq_window]
  rcases f.writeHalf_cases c q with ⟨hkept, hok⟩ | ⟨d, rfl, hroom, hok, haccepted⟩
  · rw [hkept, Fifo.accepts, hok]
    exact (List.append_nil _).symm
  · have hspan := h.wfull_eq_false_iff.1 hroom
    rw [haccepted, Fifo.accepts, hok, h.tail_eq]
    exact Memory.window_write h.mem_wf (by omega) (by omega) d

/-- A WR step: what was stored and what is accepted are what is delivered and what is stored then. -/
theorem Fifo.At.stored_afterBoth (h : f.At c p) (q : Option Byte) (b : Bool) :
    f.stored c ++ f.accepts c q =
      f.delivers c b ++ ({ wd := f.writeHalf c q, rd := f.readHalf c b } : Fifo).stored c := by
  rw [(h.afterBoth q b).stored_eq_window, ← h.window_writeHalf q]
  cases hok : f.rok b with
  | false => rw [Fifo.delivers, hok]; rfl
  | true =>
    obtain ⟨_, _, _, _, _, _⟩ := h.ordered
    have hbyte : p.rd < p.wr := by
      have := h.rempty_eq_false_iff.1 (Fifo.rok_iff.1 hok).2
      omega
    have hhead : Memory.read (f.writeHalf c q).mem (p.rd % c.capacity) =
        Memory.read f.wd.mem (p.rd % c.capacity) := by
      have hwindow := h.window_writeHalf q
      rw [h.stored_eq_window, Memory.window_eq_cons _ _ (by omega), Memory.window_eq_cons _ _ hbyte,
        List.cons_append] at hwindow
      exact (List.cons.inj hwindow).1
    rw [Memory.window_eq_cons _ _ (by omega), Fifo.delivers, hok, h.head_eq, hhead]
    rfl

theorem Fifo.At.stored_afterWrite (h : f.At c p) (q : Option Byte) :
    ({ f with wd := f.writeHalf c q } : Fifo).stored c = f.stored c ++ f.accepts c q := by
  rw [(h.afterWrite q).stored_eq_window, ← h.window_writeHalf q]
  rfl

theorem Fifo.At.stored_afterRead (h : f.At c p) (b : Bool) :
    f.stored c = f.delivers c b ++ ({ f with rd := f.readHalf c b } : Fifo).stored c := by
  have hboth := h.stored_afterBoth none b
  rw [show f.accepts c none = [] from rfl, List.append_nil, (h.afterBoth none b).stored_eq_window] at hboth
  rw [(h.afterRead b).stored_eq_window]
  exact hboth

end

/-! ### FIFO order and the invariant along the moves -/

/-- Every move of the FIFO keeps its invariant. -/
theorem State.FifoMove.keeps_inv {s u : State} (h : s.FifoMove u)
    (hs : s.fifoReset = true → s.fifo.Inv s.cfg) (hu : u.fifoReset = true) : u.fifo.Inv u.cfg := by
  cases h with
  | idle => exact hs hu
  | reset => exact (Fifo.at_zero s.cfg).inv
  | write hreset q => exact ((hs hreset).at_positions.afterWrite q).inv
  | read hreset b => exact ((hs hreset).at_positions.afterRead b).inv
  | both hreset q b => exact ((hs hreset).at_positions.afterBoth q b).inv

/-- Every move of the FIFO keeps FIFO order. -/
theorem State.FifoMove.keeps_inOrder {s u : State} (h : s.FifoMove u)
    (hs : s.fifoReset = true → s.fifo.Inv s.cfg ∧ s.fifo.InOrder s.cfg s.fifoLog) (hu : u.fifoReset = true) :
    u.fifo.InOrder u.cfg u.fifoLog := by
  cases h with
  | idle => exact (hs hu).2
  | reset =>
    have hempty : Fifo.zero.stored s.cfg = [] := (Fifo.at_zero s.cfg).stored_eq
    exact hempty.symm
  | write hreset q =>
    obtain ⟨hinv, horder⟩ := hs hreset
    rw [Fifo.InOrder, State.stepW_fifoLog, State.stepW_fifo, State.stepW_cfg, acceptedBytes_writeEvent,
      deliveredBytes_writeEvent, horder, List.append_assoc, hinv.at_positions.stored_afterWrite]
  | read hreset b =>
    obtain ⟨hinv, horder⟩ := hs hreset
    rw [Fifo.InOrder, State.stepR_fifoLog, State.stepR_fifo, State.stepR_cfg, acceptedBytes_readEvent,
      deliveredBytes_readEvent, horder, List.append_assoc, ← hinv.at_positions.stored_afterRead]
  | both hreset q b =>
    obtain ⟨hinv, horder⟩ := hs hreset
    rw [Fifo.InOrder, State.stepWR_fifoLog, State.stepWR_fifo, State.stepWR_cfg, acceptedBytes_readEvent,
      acceptedBytes_writeEvent, deliveredBytes_readEvent, deliveredBytes_writeEvent, horder, List.append_assoc,
      List.append_assoc, hinv.at_positions.stored_afterBoth]

/-- Settles O32: every move of the FIFO keeps the order, and a step is one of them. -/
theorem everyStepKeepsFifoOrder : Obligations.EveryStepKeepsFifoOrder := by
  intro s t hinv horder h ht
  obtain ⟨⟨u, hu, hsame⟩, -⟩ := step_moves h
  rw [hsame.fifo, hsame.cfg, hsame.fifoLog]
  exact hu.keeps_inOrder (fun hs => ⟨hinv.fifo hs, horder hs⟩) (hsame.fifoReset ▸ ht)

/-- Settles O34: FIFO order after the step, with `count` stored bytes. -/
theorem deliveredIsAPrefixOfAccepted : Obligations.DeliveredIsAPrefixOfAccepted := by
  intro s t hinv hreset horder h
  obtain ⟨⟨u, hu, hsame⟩, -⟩ := step_moves h
  have ht : t.fifoReset = true := hsame.fifoReset.trans (hu.keeps_fifoReset hreset)
  have horder' : t.fifo.InOrder t.cfg t.fifoLog := everyStepKeepsFifoOrder s t hinv (fun _ => horder) h ht
  refine ⟨⟨_, horder'.symm⟩, ?_⟩
  rw [horder', List.length_append, Fifo.length_stored]

/-! ### The counts and flags along the operations -/

/-- Settles O24: the write pointer moves on an accepted `ENQ`, the read pointer on a successful `DEQ`, and `count` is
the distance between the two. -/
theorem countFollowsTheOperations : Obligations.CountFollowsTheOperations := by
  intro s t hinv hreset halone
  have hat := (hinv.fifo hreset).at_positions
  obtain ⟨_, _, _, _, _, _⟩ := hat.ordered
  have writes {i : Instr} {q : Option Byte} (hi : writeOpOf i = some (.edge q)) (h : exec i s = .next t) :
      t.fifo.count t.cfg = s.fifo.count s.cfg + (s.fifo.wok s.cfg q.isSome).toNat := by
    rw [exec_write_alone_next hi halone h, State.stepW_cfg, State.stepW_fifo, (hat.afterWrite q).count_eq,
      hat.count_eq]
    simp only [Positions.afterWrite]
    omega
  have reads {i : Instr} {b : Bool} (hi : readOpOf i = some (.edge b)) (h : exec i s = .next t) :
      t.fifo.count t.cfg + (s.fifo.rok b).toNat = s.fifo.count s.cfg := by
    have := hat.rd_add_rok_le b
    rw [exec_read_alone_next hi halone h, State.stepR_cfg, State.stepR_fifo, (hat.afterRead b).count_eq,
      hat.count_eq]
    simp only [Positions.afterRead]
    omega
  refine ⟨fun d h => ?_, fun h => ?_, fun h => writes (q := none) rfl h, fun h => ?_⟩
  · rw [writes (q := some d) rfl h, Fifo.wok]
    cases s.fifo.wfull s.cfg <;> rfl
  · rw [← reads (b := true) rfl h, Fifo.rok_true]
    cases s.fifo.rempty <;> rfl
  · rw [← reads (b := false) rfl h, Fifo.rok_false]
    rfl

/-- Without an accepted byte the writer's view only moves away from full. -/
theorem Fifo.At.wok_of_wfull_rises {c : Config} {f : Fifo} {p : Positions} (h : f.At c p) {q : Option Byte}
    (hroom : f.wfull c = false) (hfull : ({ f with wd := f.writeHalf c q } : Fifo).wfull c = true) :
    f.wok c q.isSome = true := by
  by_contra hok
  rw [Bool.not_eq_true] at hok
  have hspan := h.wfull_eq_false_iff.1 hroom
  have hspan' := (h.afterWrite q).wfull_iff.1 hfull
  have := h.ordered.wq2_le
  rw [hok] at hspan'
  simp only [Positions.afterWrite, Bool.toNat_false] at hspan'
  omega

/-- Without a byte taken the reader's view only moves away from empty. -/
theorem Fifo.At.rok_of_rempty_rises {c : Config} {f : Fifo} {p : Positions} (h : f.At c p) {b : Bool}
    (hbyte : f.rempty = false) (hempty : ({ f with rd := f.readHalf c b } : Fifo).rempty = true) :
    f.rok b = true := by
  by_contra hok
  rw [Bool.not_eq_true] at hok
  have hspan := h.rempty_eq_false_iff.1 hbyte
  have hspan' := (h.afterRead b).rempty_iff.1 hempty
  have := h.ordered.rq2_le
  rw [hok] at hspan'
  simp only [Positions.afterRead, Bool.toNat_false] at hspan'
  omega

theorem Fifo.exists_accepts_eq {c : Config} {f : Fifo} {q : Option Byte} (hok : f.wok c q.isSome = true) :
    ∃ d, f.accepts c q = [d] := by
  cases q with
  | none => cases hok
  | some d => exact ⟨d, if_pos hok⟩

theorem Fifo.exists_delivers_eq {c : Config} {f : Fifo} {b : Bool} (hok : f.rok b = true) :
    ∃ d, f.delivers c b = [d] := ⟨_, if_pos hok⟩

/-- `wfull` rises only in a move that accepts a byte. -/
theorem State.FifoMove.accepts_of_wfull_rises {s u : State} (h : s.FifoMove u) (hinv : s.fifo.Inv s.cfg)
    (hroom : s.fifo.wfull s.cfg = false) (hfull : u.fifo.wfull u.cfg = true) :
    ∃ d, acceptedBytes u.fifoLog = acceptedBytes s.fifoLog ++ [d] := by
  have half {q : Option Byte}
      (hrises : ({ s.fifo with wd := s.fifo.writeHalf s.cfg q } : Fifo).wfull s.cfg = true) :
      ∃ d, acceptedBytes s.fifoLog ++ s.fifo.accepts s.cfg q = acceptedBytes s.fifoLog ++ [d] :=
    (Fifo.exists_accepts_eq (hinv.at_positions.wok_of_wfull_rises hroom hrises)).imp fun d hd => by rw [hd]
  cases h with
  | idle => simp [hroom] at hfull
  | reset => simp [Fifo.zero_wfull] at hfull
  | write _ q =>
    rw [State.stepW_fifoLog, acceptedBytes_writeEvent]
    exact half hfull
  | read _ b =>
    have hkept : (s.stepR b).fifo.wfull s.cfg = s.fifo.wfull s.cfg := Fifo.wfull_congr rfl
    exact absurd (hkept.symm.trans hfull) (by simp [hroom])
  | both _ q b =>
    rw [State.stepWR_fifoLog, acceptedBytes_readEvent, acceptedBytes_writeEvent]
    exact half hfull

/-- `rempty` rises only in a move that delivers a byte, and in RESET. -/
theorem State.FifoMove.delivers_of_rempty_rises {s u : State} (h : s.FifoMove u) (hinv : s.fifo.Inv s.cfg)
    (hbyte : s.fifo.rempty = false) (hempty : u.fifo.rempty = true) (hnoreset : u.fifoLog ≠ .reset :: s.fifoLog) :
    ∃ d, deliveredBytes u.fifoLog = deliveredBytes s.fifoLog ++ [d] := by
  have half {b : Bool} (hrises : ({ s.fifo with rd := s.fifo.readHalf s.cfg b } : Fifo).rempty = true) :
      ∃ d, deliveredBytes s.fifoLog ++ s.fifo.delivers s.cfg b = deliveredBytes s.fifoLog ++ [d] :=
    (Fifo.exists_delivers_eq (hinv.at_positions.rok_of_rempty_rises hbyte hrises)).imp fun d hd => by rw [hd]
  cases h with
  | idle => simp [hbyte] at hempty
  | reset => exact absurd rfl hnoreset
  | write _ q =>
    have hkept : (s.stepW q).fifo.rempty = s.fifo.rempty := Fifo.rempty_congr rfl
    exact absurd (hkept.symm.trans hempty) (by simp [hbyte])
  | read _ b =>
    rw [State.stepR_fifoLog, deliveredBytes_readEvent]
    exact half hempty
  | both _ q b =>
    rw [State.stepWR_fifoLog, deliveredBytes_readEvent, deliveredBytes_writeEvent]
    exact half hempty

/-- Settles O26: a flag's own pointer is the only one that moves toward the bound it compares with. -/
theorem ownFlagRisesOnlyByOwnOperation : Obligations.OwnFlagRisesOnlyByOwnOperation := by
  intro s t hinv hreset h
  obtain ⟨⟨u, hu, hsame⟩, -⟩ := step_moves h
  rw [hsame.fifo, hsame.cfg, hsame.fifoLog]
  exact ⟨hu.accepts_of_wfull_rises (hinv.fifo hreset), hu.delivers_of_rempty_rises (hinv.fifo hreset)⟩

/-! ### Runs of edges that do not coincide -/

/-- `t` is reached from `s` by edges of the FIFO that accept and deliver these bytes, with the pointers at `p`. -/
structure State.Reaches (s t : State) (p : Positions) (accepted delivered : List Byte) : Prop where
  same : s.SameButFifo t
  at_ : t.fifo.At t.cfg p
  accepted_eq : acceptedBytes t.fifoLog = acceptedBytes s.fifoLog ++ accepted
  delivered_eq : deliveredBytes t.fifoLog = deliveredBytes s.fifoLog ++ delivered
  stored_eq : s.fifo.stored s.cfg ++ accepted = delivered ++ t.fifo.stored t.cfg

theorem State.SameButFifo.refl (s : State) : s.SameButFifo s := ⟨rfl, rfl, rfl, rfl, rfl, rfl⟩

theorem State.SameButFifo.trans {s t u : State} (hst : s.SameButFifo t) (htu : t.SameButFifo u) : s.SameButFifo u :=
  ⟨htu.cfg.trans hst.cfg, htu.fa.trans hst.fa, htu.fifoReset.trans hst.fifoReset, htu.faReset.trans hst.faReset,
    htu.stimulus.trans hst.stimulus, htu.faLog.trans hst.faLog⟩

theorem State.SameButFifo.alone {s t : State} (h : s.SameButFifo t) (halone : s.alone) : t.alone :=
  ⟨(State.coincidentRead_congr h.stimulus).trans halone.1, (State.coincidentWrite_congr h.stimulus).trans halone.2⟩

theorem State.Reaches.refl {s : State} {p : Positions} (h : s.fifo.At s.cfg p) : s.Reaches s p [] [] :=
  ⟨.refl s, h, (List.append_nil _).symm, (List.append_nil _).symm, List.append_nil _⟩

theorem State.Reaches.trans {s t u : State} {p p' : Positions} {acc acc' del del' : List Byte}
    (hst : s.Reaches t p acc del) (htu : t.Reaches u p' acc' del') :
    s.Reaches u p' (acc ++ acc') (del ++ del') where
  same := hst.same.trans htu.same
  at_ := htu.at_
  accepted_eq := by rw [htu.accepted_eq, hst.accepted_eq, List.append_assoc]
  delivered_eq := by rw [htu.delivered_eq, hst.delivered_eq, List.append_assoc]
  stored_eq := by rw [← List.append_assoc, hst.stored_eq, List.append_assoc, htu.stored_eq, List.append_assoc]

theorem State.reaches_stepW {s : State} {p : Positions} (h : s.fifo.At s.cfg p) (q : Option Byte) :
    s.Reaches (s.stepW q) (p.afterWrite (s.fifo.wok s.cfg q.isSome)) (s.fifo.accepts s.cfg q) [] where
  same := ⟨rfl, rfl, rfl, rfl, rfl, rfl⟩
  at_ := h.afterWrite q
  accepted_eq := acceptedBytes_writeEvent _ _ _ _
  delivered_eq := (List.append_nil _).symm
  stored_eq := (h.stored_afterWrite q).symm

theorem State.reaches_stepR {s : State} {p : Positions} (h : s.fifo.At s.cfg p) (b : Bool) :
    s.Reaches (s.stepR b) (p.afterRead (s.fifo.rok b)) [] (s.fifo.delivers s.cfg b) where
  same := ⟨rfl, rfl, rfl, rfl, rfl, rfl⟩
  at_ := h.afterRead b
  accepted_eq := (List.append_nil _).symm
  delivered_eq := deliveredBytes_readEvent _ _ _ _
  stored_eq := by rw [List.append_nil]; exact h.stored_afterRead b

/-- An edge of the write port that accepts nothing: idle, or refused. -/
theorem State.reaches_stepW_refused {s : State} {p : Positions} (h : s.fifo.At s.cfg p) {q : Option Byte}
    (hok : s.fifo.wok s.cfg q.isSome = false) : s.Reaches (s.stepW q) (p.afterWrite false) [] [] := by
  have hreaches := s.reaches_stepW h q
  rwa [Fifo.accepts, hok] at hreaches

theorem State.reaches_stepW_accepted {s : State} {p : Positions} (h : s.fifo.At s.cfg p)
    (hroom : s.fifo.wfull s.cfg = false) (d : Byte) : s.Reaches (s.stepW (some d)) (p.afterWrite true) [d] [] := by
  have hreaches := s.reaches_stepW h (some d)
  have hok : s.fifo.wok s.cfg (some d).isSome = true := by rw [Fifo.wok, hroom]; rfl
  rwa [Fifo.accepts, hok] at hreaches

/-- An edge of the read port that takes nothing: idle, or refused. -/
theorem State.reaches_stepR_refused {s : State} {p : Positions} (h : s.fifo.At s.cfg p) {b : Bool}
    (hok : s.fifo.rok b = false) : s.Reaches (s.stepR b) (p.afterRead false) [] [] := by
  have hreaches := s.reaches_stepR h b
  rwa [Fifo.delivers, hok] at hreaches

theorem State.reaches_stepR_taken {s : State} {p : Positions} (h : s.fifo.At s.cfg p)
    (hbyte : s.fifo.rempty = false) :
    s.Reaches (s.stepR true) (p.afterRead true) [] [s.fifo.rdata s.cfg] := by
  have hreaches := s.reaches_stepR h true
  have hok : s.fifo.rok true = true := by rw [Fifo.rok_true, hbyte]; rfl
  rwa [Fifo.delivers, hok, if_pos rfl, ← Fifo.rdata_of_not_rempty hbyte] at hreaches

theorem Fifo.rok_of_rempty {f : Fifo} (h : f.rempty = true) (b : Bool) : f.rok b = false := by
  rw [Fifo.rok, h, Bool.not_true, Bool.and_false]

theorem Fifo.wok_of_wfull {c : Config} {f : Fifo} (h : f.wfull c = true) (winc : Bool) : f.wok c winc = false := by
  rw [Fifo.wok, h, Bool.not_true, Bool.and_false]

/-! ### How long a byte and a free slot take to be seen -/

/-- Settles O27: the new write pointer passes the reader's two stages, one R step each, and nothing can be taken
before it is through. -/
theorem enqueueIsVisibleAfterTwoReadSteps : Obligations.EnqueueIsVisibleAfterTwoReadSteps := by
  intro d s r₁ r₂ hinv hreset halone hcount hroom hr₁ hr₂
  have edge {i : Instr} (hi : i = .rnop ∨ i = .deq) : ∃ b, readOpOf i = some (.edge b) := by
    rcases hi with rfl | rfl
    · exact ⟨false, rfl⟩
    · exact ⟨true, rfl⟩
  obtain ⟨b₁, hop₁⟩ := edge hr₁
  obtain ⟨b₂, hop₂⟩ := edge hr₂
  have hat := (hinv.fifo hreset).at_positions
  obtain ⟨_, _, _, _, _, _⟩ := hat.ordered
  rw [hat.count_eq] at hcount
  have ht := State.reaches_stepW_accepted hat hroom d
  have hempty_t : (s.stepW (some d)).fifo.rempty = true :=
    ht.at_.rempty_iff.2 (by simp only [Positions.afterWrite]; omega)
  have hu := ht.trans (State.reaches_stepR_refused ht.at_ (Fifo.rok_of_rempty hempty_t b₁))
  have hempty_u : ((s.stepW (some d)).stepR b₁).fifo.rempty = true :=
    hu.at_.rempty_iff.2 (by simp only [Positions.afterWrite, Positions.afterRead, Bool.toNat_false]; omega)
  have hv := hu.trans (State.reaches_stepR_refused hu.at_ (Fifo.rok_of_rempty hempty_u b₂))
  have hbyte_v : (((s.stepW (some d)).stepR b₁).stepR b₂).fifo.rempty = false :=
    hv.at_.rempty_eq_false_iff.2 (by
      simp only [Positions.afterWrite, Positions.afterRead, Bool.toNat_false, Bool.toNat_true]; omega)
  have hx := hv.trans (State.reaches_stepR_taken hv.at_ hbyte_v)
  have hnone : s.fifo.stored s.cfg = [] :=
    List.eq_nil_of_length_eq_zero (by rw [Fifo.length_stored, hat.count_eq, hcount])
  have hdata : (((s.stepW (some d)).stepR b₁).stepR b₂).fifo.rdata s.cfg = d := by
    have hstored := hx.stored_eq
    rw [hnone] at hstored
    exact (List.cons.inj hstored).1.symm
  refine ⟨_, _, _, _, exec_write_alone rfl hreset halone, exec_read_alone hop₁ hreset (ht.same.alone halone),
    exec_read_alone hop₂ hreset (hu.same.alone halone), exec_read_alone (i := .deq) rfl hreset (hv.same.alone halone),
    hempty_t, hempty_u, hbyte_v, hdata, ?_⟩
  rw [State.stepR_fifoLog, Fifo.readEvent, Fifo.rok_true, hbyte_v]
  exact congrArg (FifoEvent.read true false · true :: _) hdata

theorem Fifo.writeHalf_mem_of_refused {c : Config} {f : Fifo} {q : Option Byte} (hok : f.wok c q.isSome = false) :
    (f.writeHalf c q).mem = f.wd.mem := by
  rcases f.writeHalf_cases c q with ⟨hkept, -⟩ | ⟨-, -, -, hok', -⟩
  · rw [hkept]; rfl
  · simp [hok] at hok'

/-- Settles O28: the new read pointer passes the writer's two stages, one W step each; the write pointer stands at
most `C` past the read pointer from before the `DEQ`. -/
theorem dequeueIsVisibleAfterTwoWriteSteps : Obligations.DequeueIsVisibleAfterTwoWriteSteps := by
  intro s hinv hreset halone hfull hbyte
  have hat := (hinv.fifo hreset).at_positions
  generalize s.fifo.positions s.cfg = p at hat
  obtain ⟨_, _, _, _, _, _⟩ := hat.ordered
  have hspan : p.wr = p.wq2 + s.cfg.capacity := hat.wfull_iff.1 hfull
  have hdeq : exec .deq s = .next (s.stepR true) := exec_read_alone rfl hreset halone
  have ht := State.reaches_stepR_taken hat hbyte
  refine ⟨?idle, fun hwq1 hwq2 w₁ w₂ d e hw₁ hw₂ => ?settled⟩
  case idle =>
    have hu := ht.trans (State.reaches_stepW_refused ht.at_ (q := none) rfl)
    have hv := hu.trans (State.reaches_stepW_refused hu.at_ (q := none) rfl)
    exact ⟨_, _, _, hdeq, exec_write_alone rfl hreset (ht.same.alone halone),
      exec_write_alone rfl hreset (hu.same.alone halone), hv.at_.wfull_eq_false_iff.2 (by
        simp only [Positions.afterWrite, Positions.afterRead, State.stepW_cfg, State.stepR_cfg, Bool.toNat_false,
          Bool.toNat_true]
        omega)⟩
  case settled =>
    have hrd₁ : p.rd = p.wq1 := (b2g_mod_eq_iff (c := s.cfg) (by omega) (by omega)).1
      (by rw [← hat.rgray_eq, ← hat.wq1_eq, hwq1])
    have hrd₂ : p.rd = p.wq2 := (b2g_mod_eq_iff (c := s.cfg) (by omega) (by omega)).1
      (by rw [← hat.rgray_eq, ← hat.wq2_eq, hwq2])
    have edge {i : Instr} (hi : i = .wnop ∨ i = .enq d) : ∃ q, writeOpOf i = some (.edge q) := by
      rcases hi with rfl | rfl
      · exact ⟨none, rfl⟩
      · exact ⟨some d, rfl⟩
    obtain ⟨q₁, hop₁⟩ := edge hw₁
    obtain ⟨q₂, hop₂⟩ := edge hw₂
    have hfull_t : (s.stepR true).fifo.wfull s.cfg = true := ht.at_.wfull_iff.2 hspan
    have hno₁ := Fifo.wok_of_wfull hfull_t q₁.isSome
    have hu := ht.trans (State.reaches_stepW_refused ht.at_ hno₁)
    have hfull_u : ((s.stepR true).stepW q₁).fifo.wfull s.cfg = true := hu.at_.wfull_iff.2 (by
      simp only [Positions.afterWrite, Positions.afterRead, State.stepW_cfg, State.stepR_cfg, Bool.toNat_false]
      omega)
    have hno₂ := Fifo.wok_of_wfull hfull_u q₂.isSome
    have hv := hu.trans (State.reaches_stepW_refused hu.at_ hno₂)
    have hroom_v : (((s.stepR true).stepW q₁).stepW q₂).fifo.wfull s.cfg = false :=
      hv.at_.wfull_eq_false_iff.2 (by
        simp only [Positions.afterWrite, Positions.afterRead, State.stepW_cfg, State.stepR_cfg, Bool.toNat_false,
          Bool.toNat_true]
        omega)
    refine ⟨_, _, _, _, hdeq, exec_write_alone hop₁ hreset (ht.same.alone halone),
      exec_write_alone hop₂ hreset (hu.same.alone halone), exec_write_alone rfl hreset (hv.same.alone halone),
      hfull_t, hfull_u, hroom_v, ?_, ?_⟩
    · exact (Fifo.writeHalf_mem_of_refused hno₂).trans (Fifo.writeHalf_mem_of_refused hno₁)
    · exact congrArg (· :: _) (Fifo.writeEvent_accepted hroom_v e)

/-! ### Dropping the oldest byte -/

/-- The positions after `m` idle W steps and `n` idle R steps, in any order: two of either bring the other side's
pointer through. -/
def Positions.idle (p : Positions) (m n : Nat) : Positions :=
  { p with
    wq2 := match m with | 0 => p.wq2 | 1 => p.wq1 | _ => p.rd
    wq1 := match m with | 0 => p.wq1 | _ => p.rd
    rq2 := match n with | 0 => p.rq2 | 1 => p.rq1 | _ => p.wr
    rq1 := match n with | 0 => p.rq1 | _ => p.wr }

theorem Positions.afterWrite_idle (p : Positions) (m n : Nat) : (p.afterWrite false).idle m n = p.idle (m + 1) n := by
  rcases m with _ | _ | m <;> rfl

theorem Positions.afterRead_idle (p : Positions) (m n : Nat) : (p.afterRead false).idle m n = p.idle m (n + 1) := by
  rcases n with _ | _ | n <;> rfl

theorem Positions.idle_wq2 (p : Positions) {m : Nat} (h : 2 ≤ m) (n : Nat) : (p.idle m n).wq2 = p.rd := by
  obtain ⟨k, rfl⟩ := Nat.exists_eq_add_of_le' h
  rfl

theorem Positions.idle_rq2 (p : Positions) (m : Nat) {n : Nat} (h : 2 ≤ n) : (p.idle m n).rq2 = p.wr := by
  obtain ⟨k, rfl⟩ := Nat.exists_eq_add_of_le' h
  rfl

theorem Positions.Ordered.rq2_le_idle {c : Config} {p : Positions} (h : p.Ordered c) (m n : Nat) :
    p.rq2 ≤ (p.idle m n).rq2 := by
  rcases n with _ | _ | n
  · exact le_rfl
  · exact h.rq2_le
  · exact h.rq2_le.trans h.rq1_le

/-- Idle operations of both ports are executed, move no byte, and bring the pointers across. -/
theorem execAll_idle {is : List Instr} (hidle : idlePorts is = true) {s : State} {p : Positions}
    (hat : s.fifo.At s.cfg p) (hreset : s.fifoReset = true) (halone : s.alone) :
    ∃ t, execAll is s = .next t ∧ s.Reaches t (p.idle (is.count .wnop) (is.count .rnop)) [] [] := by
  induction is generalizing s p with
  | nil => exact ⟨s, rfl, .refl hat⟩
  | cons i is ih =>
    obtain ⟨rfl | rfl, hrest⟩ := (idlePorts_cons i is).1 hidle
    · have hmove := State.reaches_stepW_refused hat (q := none) rfl
      obtain ⟨t, hrun, hreach⟩ := ih hrest hmove.at_ hreset (hmove.same.alone halone)
      rw [Positions.afterWrite_idle] at hreach
      refine ⟨t, (execAll_cons (exec_write_alone rfl hreset halone) is).trans hrun, ?_⟩
      rw [List.count_cons_self, List.count_cons_of_ne (by simp)]
      exact hmove.trans hreach
    · have hmove := State.reaches_stepR_refused hat (b := false) s.fifo.rok_false
      obtain ⟨t, hrun, hreach⟩ := ih hrest hmove.at_ hreset (hmove.same.alone halone)
      rw [Positions.afterRead_idle] at hreach
      refine ⟨t, (execAll_cons (exec_read_alone rfl hreset halone) is).trans hrun, ?_⟩
      rw [List.count_cons_self, List.count_cons_of_ne (by simp)]
      exact hmove.trans hreach

/-- Idle operations, a `DEQ` and idle operations, on a full FIFO whose reader sees a byte by then: the oldest byte is
delivered and, with two W steps after the `DEQ`, its slot is free again. -/
theorem execAll_make_room {before after : List Instr} (hbefore : idlePorts before = true)
    (hafter : idlePorts after = true) (hwnops : 2 ≤ after.count .wnop) {s : State} {p : Positions}
    (hat : s.fifo.At s.cfg p) (hreset : s.fifoReset = true) (halone : s.alone)
    (hseen : p.rd < p.rq2 ∨ (p.rd < p.wr ∧ 2 ≤ before.count .rnop)) :
    ∃ t p' oldest, execAll (before ++ .deq :: after) s = .next t ∧ s.Reaches t p' [] [oldest] ∧
      t.fifo.wfull t.cfg = false := by
  obtain ⟨_, _, _, _, _, _⟩ := hat.ordered
  obtain ⟨u, hrun, hu⟩ := execAll_idle hbefore hat hreset halone
  have hbyte : u.fifo.rempty = false := by
    rw [hu.at_.rempty_eq_false_iff]
    show p.rd < _
    rcases hseen with hseen | ⟨hstored, hrnops⟩
    · exact hseen.trans_le (hat.ordered.rq2_le_idle _ _)
    · rwa [Positions.idle_rq2 _ _ hrnops]
  have hreset' : u.fifoReset = true := hu.same.fifoReset.trans hreset
  have htaken := hu.trans (State.reaches_stepR_taken hu.at_ hbyte)
  obtain ⟨t, hrun', hreach⟩ := execAll_idle hafter htaken.at_ hreset' (htaken.same.alone halone)
  have ht := htaken.trans hreach
  refine ⟨t, _, _, ?_, ht, ?_⟩
  · rw [execAll_append hrun,
      execAll_cons (exec_read_alone (i := .deq) rfl hreset' (hu.same.alone halone)), hrun']
  · rw [ht.at_.wfull_eq_false_iff, Positions.idle_wq2 _ hwnops, ht.same.cfg]
    show p.wr < p.rd + 1 + s.cfg.capacity
    omega

/-- Settles O29: the `DEQ` takes the oldest byte once the reader sees it, and the second `ENQ` finds the slot it left
once the writer sees that. -/
theorem dropOldestKeepsTheMostRecentBytes : Obligations.DropOldestKeepsTheMostRecentBytes := by
  intro d before after s hinv hreset halone
  have hat := (hinv.fifo hreset).at_positions
  generalize s.fifo.positions s.cfg = p at hat
  have henq : exec (.enq d) s = .next (s.stepW (some d)) := exec_write_alone rfl hreset halone
  refine ⟨fun hroom => ?accepted, fun hfull hbefore hafter hwnops hseen => ?refused⟩
  case accepted =>
    have ht := State.reaches_stepW_accepted hat hroom d
    exact ⟨_, enqDropOldest_accepted henq hroom before after, ht.same, ht.stored_eq.symm,
      ht.delivered_eq.trans (List.append_nil _), ht.accepted_eq⟩
  case refused =>
    rw [hat.rempty_eq_false_iff, hat.count_eq, Nat.sub_pos_iff_lt] at hseen
    have hrefused := State.reaches_stepW_refused hat (q := some d) (Fifo.wok_of_wfull hfull _)
    obtain ⟨u, _, oldest, hrun, hreach, hroom⟩ := execAll_make_room hbefore hafter hwnops hrefused.at_ hreset
      (hrefused.same.alone halone) hseen
    have hu := hrefused.trans hreach
    have ht := hu.trans (State.reaches_stepW_accepted hu.at_ hroom d)
    have henq' : exec (.enq d) u = .next (u.stepW (some d)) :=
      exec_write_alone rfl (hu.same.fifoReset.trans hreset) (hu.same.alone halone)
    have hstored : s.fifo.stored s.cfg = oldest :: u.fifo.stored u.cfg :=
      (List.append_nil _).symm.trans hu.stored_eq
    have hbehind := ht.stored_eq
    rw [hstored] at hbehind
    refine ⟨u.stepW (some d), oldest, _, ?_, ht.same, hstored, (List.cons.inj hbehind).2.symm, ht.delivered_eq,
      ht.accepted_eq⟩
    rw [enqDropOldest_refused henq hfull, execAll_append hrun, execAll_cons henq', execAll_nil]

end Sys2Proof.Machine
end

section
/-! Proofs about the assembler's operations one by one (spec/41_frame_assembler_ops.md): phase A, the byte of a beat
in FILL and in SPILL, the end of a call, and the registers a beat leaves alone. -/

namespace Sys2Proof.Machine

/-! ### Ranges -/

/-- Settles O36: the widths of R6 are the logarithms of `P` and `L + 1`, rounded up. -/
theorem cursorsFitTheirWidths : Obligations.CursorsFitTheirWidths := by
  intro c a h
  have hpkt : c.pkt ≤ 2 ^ Nat.clog 2 c.pkt := Nat.le_pow_clog one_lt_two _
  have hlo : c.loCap + 1 ≤ 2 ^ Nat.clog 2 (c.loCap + 1) := Nat.le_pow_clog one_lt_two _
  have hmax : 2 ^ Nat.clog 2 c.pkt ≤ 2 ^ c.cursorW := Nat.pow_le_pow_right two_pos (le_max_right _ _)
  exact ⟨h.w_lt.trans_le (hpkt.trans hmax), (Nat.lt_succ_of_le h.loLen_le).trans_le hlo⟩

theorem Assembler.Widths.cursorsInRange {c : Config} {a : Assembler} (h : a.Widths c) :
    a.cursorsInRange c = true := Assembler.cursorsInRange_iff.2 ⟨h.w_lt, h.loLen_le⟩

/-- The ranges speak of the three arrays and the two cursors only. -/
theorem Assembler.Widths.of_eq {c : Config} {a b : Assembler} (h : a.Widths c) (hbuf : b.buf = a.buf)
    (hlo : b.lo = a.lo) (hpkt : b.pkt = a.pkt) (hw : b.w = a.w) (hlen : b.loLen = a.loLen) : b.Widths c :=
  ⟨hbuf ▸ h.buf_wf, hbuf ▸ h.buf_within, hlo ▸ h.lo_wf, hpkt ▸ h.pkt_wf, hpkt ▸ h.pkt_within, hw ▸ h.w_lt,
    hlen ▸ h.loLen_le⟩

theorem Assembler.Widths.phaseA {c : Config} {a : Assembler} (h : a.Widths c) : (a.phaseA c).Widths c := by
  have hw := h.w_lt
  have hrange := Assembler.cursorsInRange_iff.1 (Assembler.cursorsInRange_phaseA h.cursorsInRange)
  by_cases hidle : a.fsm = .idle
  · by_cases henough : c.pkt ≤ a.w + a.loLen
    · have hwf := Memory.wf_copyFrom h.buf_wf a.w a.lo (c.pkt - a.w)
      have hwithin := Memory.within_copyFrom h.buf_within a.lo (by omega : a.w + (c.pkt - a.w) ≤ c.pkt)
      rw [Assembler.phaseA_of_enough_staged hidle hw.le henough] at hrange ⊢
      exact ⟨hwf, hwithin, Memory.wf_shiftDown h.lo_wf _, hwf, hwithin, hrange.1, hrange.2⟩
    · rw [Assembler.phaseA_of_too_few_staged hidle (by omega)] at hrange ⊢
      exact ⟨Memory.wf_copyFrom h.buf_wf _ _ _, Memory.within_copyFrom h.buf_within _ (by omega),
        Memory.wf_shiftDown h.lo_wf _, h.pkt_wf, h.pkt_within, hrange.1, hrange.2⟩
  · rwa [Assembler.phaseA_of_ne_idle hidle]

theorem Assembler.Widths.phaseB {c : Config} {a : Assembler} (h : a.Widths c) (d : Byte) :
    (a.phaseB c d).Widths c := by
  have hrange := Assembler.cursorsInRange_iff.1 (Assembler.cursorsInRange_phaseB h.cursorsInRange d)
  have hwf := Memory.wf_write h.buf_wf a.w d
  have hwithin := Memory.within_write d h.w_lt h.buf_within
  cases hfsm : a.fsm with
  | idle => simpa only [Assembler.phaseB, hfsm] using h
  | fill =>
    rw [Assembler.phaseB_fill hfsm] at hrange ⊢
    by_cases hlast : a.w + 1 = c.pkt
    · rw [Assembler.fillByte_completes hlast] at hrange ⊢
      exact ⟨hwf, hwithin, h.lo_wf, hwf, hwithin, hrange.1, hrange.2⟩
    · rw [Assembler.fillByte_continues hlast] at hrange ⊢
      exact ⟨hwf, hwithin, h.lo_wf, h.pkt_wf, h.pkt_within, hrange.1, hrange.2⟩
  | spill =>
    rw [Assembler.phaseB_spill hfsm] at hrange ⊢
    by_cases hroom : a.loLen < c.loCap
    · rw [Assembler.spillByte_staged hroom] at hrange ⊢
      exact ⟨h.buf_wf, h.buf_within, Memory.wf_write h.lo_wf _ _, h.pkt_wf, h.pkt_within, hrange.1, hrange.2⟩
    · rw [Assembler.spillByte_overflows hroom]
      exact h.of_eq rfl rfl rfl rfl rfl

/-! ### Phase A -/

/-- What phase A does to `buf`, `lo` and `lo_len`, whether it completes a packet or not. -/
theorem Assembler.phaseA_drains {c : Config} {a : Assembler} (hidle : a.fsm = .idle) :
    (a.phaseA c).buf = Memory.copyFrom a.buf a.w a.lo (min a.loLen (c.pkt - a.w)) ∧
    (a.phaseA c).lo = Memory.shiftDown (min a.loLen (c.pkt - a.w)) a.lo ∧
    (a.phaseA c).loLen = a.loLen - min a.loLen (c.pkt - a.w) := by
  by_cases hw : a.w + min a.loLen (c.pkt - a.w) = c.pkt
  · rw [Assembler.phaseA_completes hidle hw]
    exact ⟨rfl, rfl, rfl⟩
  · rw [Assembler.phaseA_starts hidle hw]
    exact ⟨rfl, rfl, rfl⟩

/-- Settles O38: a copy behind the cursor, a shift down, and the test whether the packet is complete. -/
theorem callStartDrainsTheLeftoverBytes : Obligations.CallStartDrainsTheLeftoverBytes := by
  intro c a hunfaulted h hblank
  refine ⟨Assembler.phaseA_of_ne_idle, fun hidle => ?_⟩
  obtain ⟨hbuf, hlo, hlen⟩ := Assembler.phaseA_drains (c := c) hidle
  refine ⟨fun i => ?_, fun i => ?_, hlen, (Assembler.phaseA_loOvf c a).trans hunfaulted, fun hfull => ?_,
    fun hshort => ?_⟩
  · rw [hbuf, Memory.read_copyFrom h.buf_wf]
  · rw [hlo, Memory.read_shiftDown]
    split_ifs with hi
    · rfl
    · have := h.loLen_le
      exact Memory.read_of_within (by omega) hblank
  · rw [Assembler.phaseA_completes hidle hfull]
    exact ⟨rfl, rfl, rfl⟩
  · have := h.w_lt
    rw [Assembler.phaseA_starts hidle hshort]
    exact ⟨rfl, rfl, rfl, by simp only; omega⟩

/-- Phase A runs once in a call, so a beat may as well start from the state it leaves. -/
theorem Assembler.beat_phaseA (c : Config) (a : Assembler) (inEnd : Bool) (inData : Option Byte) :
    (a.phaseA c).beat c inEnd inData = a.beat c inEnd inData := by
  have honce : (a.phaseA c).phaseA c = a.phaseA c := Assembler.phaseA_of_ne_idle (Assembler.phaseA_ne_idle c a)
  cases inData with
  | none => rw [Assembler.beat_none, Assembler.beat_none, honce]
  | some d => rw [Assembler.beat_some, Assembler.beat_some, honce]

theorem State.afterBeat_phaseA (s : State) (inEnd : Bool) (inData : Option Byte) :
    ({ s with fa := s.fa.phaseA s.cfg } : State).afterBeat inEnd inData = s.afterBeat inEnd inData := by
  simp only [State.afterBeat, Assembler.beat_phaseA]

/-- Settles O39: both states are in range, and both beats are the one from the state phase A leaves. -/
theorem drainComesFirstInABeat : Obligations.DrainComesFirstInABeat := by
  intro d s hreset hunfaulted h
  have same (inEnd : Bool) (inData : Option Byte) :
      s.beatStep inEnd inData = ({ s with fa := s.fa.phaseA s.cfg } : State).beatStep inEnd inData := by
    rw [State.beatStep_eq hreset h.cursorsInRange,
      State.beatStep_eq (s := { s with fa := s.fa.phaseA s.cfg }) hreset h.phaseA.cursorsInRange,
      State.afterBeat_phaseA]
  exact ⟨same _ _, same _ _, same _ _, Assembler.phaseA_ne_idle _ _, h.phaseA,
    (Assembler.phaseA_loOvf _ _).trans hunfaulted⟩

/-! ### The operations -/

/-- Settles O12: FA_RESET leaves the zero assembler. -/
theorem faResetClearsTheAssembler : Obligations.FaResetClearsTheAssembler := fun s =>
  ⟨_, exec_faReset s, fun _ => rfl, fun _ => rfl, fun _ => rfl, rfl, rfl, rfl, rfl, rfl, rfl, rfl, rfl, rfl, rfl, rfl,
    rfl, rfl, rfl⟩

/-- Settles O37: the flag bits of FA_NOP, and its meaning in a reset assembler. -/
theorem faNopOnlyClearsResValid : Obligations.FaNopOnlyClearsResValid :=
  ⟨fun d => decodeBeat_append 0b100 d, fun _ hreset _ => execFaNop_eq hreset⟩

theorem Assembler.beat_some_of_ne_idle {c : Config} {a : Assembler} (h : a.fsm ≠ .idle) (inEnd : Bool) (d : Byte) :
    a.beat c inEnd (some d) = (a.phaseB c d).phaseC inEnd := by
  rw [Assembler.beat_some, Assembler.phaseA_of_ne_idle h]

theorem Assembler.beat_byte_completes {c : Config} {a : Assembler} (hfill : a.fsm = .fill) (hlast : a.w + 1 = c.pkt)
    (d : Byte) :
    a.beat c false (some d) =
      { a with
        buf := Memory.write a.buf a.w d
        pkt := Memory.write a.buf a.w d
        w := 0
        fsm := .spill
        loPend := a.loLen != 0
        resValid := false } := by
  rw [Assembler.beat_some_of_ne_idle (by simp [hfill]), Assembler.phaseB_fill hfill,
    Assembler.fillByte_completes hlast, Assembler.phaseC_continue]

theorem Assembler.beat_byte_continues {c : Config} {a : Assembler} (hfill : a.fsm = .fill) (hshort : a.w + 1 ≠ c.pkt)
    (d : Byte) :
    a.beat c false (some d) =
      { a with
        buf := Memory.write a.buf a.w d
        w := a.w + 1
        fsm := .fill
        loPend := a.loLen != 0
        resValid := false } := by
  rw [Assembler.beat_some_of_ne_idle (by simp [hfill]), Assembler.phaseB_fill hfill,
    Assembler.fillByte_continues hshort, Assembler.phaseC_continue]

theorem exec_faByte_eq {s : State} (hreset : s.faReset = true) (h : s.fa.Widths s.cfg) (d : Byte) :
    exec (.faByte d) s = .next (s.afterBeat false (some d)) :=
  State.beatStep_eq hreset h.cursorsInRange false (some d)

theorem exec_faEnd_eq {s : State} (hreset : s.faReset = true) (h : s.fa.Widths s.cfg) :
    exec .faEnd s = .next (s.afterBeat true none) :=
  State.beatStep_eq hreset h.cursorsInRange true none

theorem exec_faLast_eq {s : State} (hreset : s.faReset = true) (h : s.fa.Widths s.cfg) (d : Byte) :
    exec (.faLast d) s = .next (s.afterBeat true (some d)) :=
  State.beatStep_eq hreset h.cursorsInRange true (some d)

/-- Settles O40: the byte at the cursor either completes the packet or moves the cursor on. -/
theorem faByteFillsThePacket : Obligations.FaByteFillsThePacket := by
  intro d s hreset hunfaulted h hfill
  have hexec := exec_faByte_eq hreset h d
  by_cases hlast : s.fa.w + 1 = s.cfg.pkt
  · have hfa := Assembler.beat_byte_completes hfill hlast d
    refine ⟨_, hexec, s.sameButAssembler_afterBeat _ _, ?_⟩
    rw [State.unfaulted, State.afterBeat_fa, hfa]
    exact ⟨Memory.read_write h.buf_wf s.fa.w d, rfl, rfl, hunfaulted, rfl, rfl, rfl, fun _ => ⟨rfl, rfl, rfl⟩,
      fun hshort => absurd hlast hshort, rfl⟩
  · have hfa := Assembler.beat_byte_continues hfill hlast d
    refine ⟨_, hexec, s.sameButAssembler_afterBeat _ _, ?_⟩
    rw [State.unfaulted, State.afterBeat_fa, hfa]
    exact ⟨Memory.read_write h.buf_wf s.fa.w d, rfl, rfl, hunfaulted, rfl, rfl, rfl, fun hfull => absurd hfull hlast,
      fun _ => ⟨rfl, rfl, rfl⟩, rfl⟩

/-- Settles O41: the byte is staged behind the others, or discarded with the fault bit set. -/
theorem faByteStagesTheSurplus : Obligations.FaByteStagesTheSurplus := by
  intro d s hreset hunfaulted h hspill
  have hexec := exec_faByte_eq hreset h d
  have hfa : (s.afterBeat false (some d)).fa = (s.fa.spillByte s.cfg d).phaseC false := by
    rw [State.afterBeat_fa, Assembler.beat_some_of_ne_idle (by simp [hspill]), Assembler.phaseB_spill hspill]
  refine ⟨_, hexec, s.sameButAssembler_afterBeat _ _, ?_⟩
  rw [State.unfaulted, State.faulted, hfa]
  by_cases hroom : s.fa.loLen < s.cfg.loCap
  · rw [Assembler.spillByte_staged hroom]
    exact ⟨rfl, rfl, rfl, hspill, rfl, rfl, rfl,
      fun _ => ⟨Memory.read_write h.lo_wf s.fa.loLen d, rfl, hunfaulted⟩, fun hfull => absurd hroom (by omega), rfl⟩
  · rw [Assembler.spillByte_overflows hroom]
    exact ⟨rfl, rfl, rfl, hspill, rfl, rfl, rfl, fun hroom' => absurd hroom' hroom, fun _ => ⟨rfl, rfl, rfl⟩, rfl⟩

/-- Settles O42: the two beats differ in phase C alone. -/
theorem faLastIsTheByteAndTheEnd : Obligations.FaLastIsTheByteAndTheEnd := fun d s hreset _ h =>
  ⟨_, _, exec_faLast_eq hreset h d, exec_faByte_eq hreset h d, s.sameButAssembler_afterBeat _ _, rfl, rfl⟩

/-- Settles O43: without phase A and without a byte the beat is phase C alone. -/
theorem faEndClosesAnOpenCall : Obligations.FaEndClosesAnOpenCall := by
  intro s hreset hunfaulted h hopen
  have hfa : s.fa.beat s.cfg true none = s.fa.phaseC true := by
    rw [Assembler.beat_none, Assembler.phaseA_of_ne_idle hopen]
  refine ⟨_, exec_faEnd_eq hreset h, s.sameButAssembler_afterBeat _ _, ?_, hfa, rfl⟩
  rw [State.unfaulted, State.afterBeat_fa, hfa]
  exact hunfaulted

/-- The assembler after an empty call that does not complete a packet. -/
theorem Assembler.beat_end_of_too_few_staged {c : Config} {a : Assembler} (hidle : a.fsm = .idle)
    (hshort : a.w + a.loLen < c.pkt) :
    a.beat c true none =
      { a with
        buf := Memory.copyFrom a.buf a.w a.lo a.loLen
        lo := Memory.shiftDown a.loLen a.lo
        loLen := 0
        w := a.w + a.loLen
        loPend := false
        resValid := true
        resComplete := false
        fsm := .idle } := by
  rw [Assembler.beat_none, Assembler.phaseA_of_too_few_staged hidle hshort, Assembler.phaseC_end]
  rfl

/-- Settles O44: an empty call is phase A and the end; the packet is what the copy appends to the bytes in `buf`. -/
theorem emptyCallCompletesIffAPacketIsStaged : Obligations.EmptyCallCompletesIffAPacketIsStaged := by
  intro s hreset hunfaulted h hidle
  have hw := h.w_lt
  refine ⟨_, exec_faEnd_eq hreset h, s.sameButAssembler_afterBeat _ _, ?_⟩
  rw [State.unfaulted, State.afterBeat_fa]
  by_cases henough : s.cfg.pkt ≤ s.fa.w + s.fa.loLen
  · have hbytes := Memory.bytes_copyFrom h.buf_wf s.fa.w s.fa.lo (s.cfg.pkt - s.fa.w)
    rw [Nat.add_sub_cancel' hw.le] at hbytes
    rw [Assembler.beat_end_of_enough_staged hidle hw.le henough]
    exact ⟨rfl, rfl, hunfaulted, iff_of_true rfl henough, fun _ => ⟨hbytes, rfl, by simp only; omega⟩,
      fun hshort => absurd henough (by omega)⟩
  · rw [Assembler.beat_end_of_too_few_staged hidle (by omega)]
    exact ⟨rfl, rfl, hunfaulted, iff_of_false (by simp) henough, fun henough' => absurd henough' henough,
      fun _ => ⟨Memory.bytes_copyFrom h.buf_wf s.fa.w s.fa.lo s.fa.loLen, rfl, rfl, rfl, rfl⟩⟩

/-! ### The result registers -/

theorem Assembler.phaseB_resComplete (c : Config) (a : Assembler) (d : Byte) :
    (a.phaseB c d).resComplete = a.resComplete := by
  cases hfsm : a.fsm with
  | idle => simp only [Assembler.phaseB, hfsm]
  | fill =>
    rw [Assembler.phaseB_fill hfsm]
    by_cases hlast : a.w + 1 = c.pkt
    · rw [Assembler.fillByte_completes hlast]
    · rw [Assembler.fillByte_continues hlast]
  | spill =>
    rw [Assembler.phaseB_spill hfsm]
    by_cases hroom : a.loLen < c.loCap
    · rw [Assembler.spillByte_staged hroom]
    · rw [Assembler.spillByte_overflows hroom]

theorem Assembler.beat_resValid (c : Config) (a : Assembler) (inEnd : Bool) (inData : Option Byte) :
    (a.beat c inEnd inData).resValid = inEnd := by
  cases inData with
  | none => exact Assembler.phaseC_resValid _ _
  | some d => exact Assembler.phaseC_resValid _ _

theorem Assembler.beat_byte_resComplete (c : Config) (a : Assembler) (d : Byte) :
    (a.beat c false (some d)).resComplete = a.resComplete := by
  rw [Assembler.beat_some, Assembler.phaseC_continue, Assembler.phaseB_resComplete, Assembler.phaseA_resComplete]

/-- Settles O47: phase C writes both registers when the call ends, and clears `res_valid` otherwise. -/
theorem resultRegistersFollowTheCallEnd : Obligations.ResultRegistersFollowTheCallEnd := by
  intro i s t hi h
  rcases exec_assembler_next hi h with ⟨rfl, rfl⟩ | ⟨rfl, -, rfl⟩ |
    ⟨e, d, ⟨x, rfl, rfl, rfl⟩ | ⟨rfl, rfl, rfl⟩ | ⟨x, rfl, rfl, rfl⟩, -, -, rfl⟩
  · exact ⟨fun _ => ⟨by simp [Assembler.zero], by simp⟩, fun _ => ⟨rfl, rfl⟩⟩
  · exact ⟨fun _ => ⟨by simp, fun _ => rfl⟩, nofun⟩
  · exact ⟨fun _ => ⟨by simp [Assembler.beat_resValid], fun _ => Assembler.beat_byte_resComplete _ _ _⟩, nofun⟩
  · exact ⟨fun _ => ⟨by simp [Assembler.beat_resValid], by simp⟩, nofun⟩
  · exact ⟨fun _ => ⟨by simp [Assembler.beat_resValid], by simp⟩, nofun⟩

/-! ### The fault bit -/

theorem Assembler.phaseB_loOvf_iff {c : Config} {a : Assembler} (d : Byte) :
    (a.phaseB c d).loOvf = true ↔ a.loOvf = true ∨ (a.fsm = .spill ∧ c.loCap ≤ a.loLen) := by
  cases hfsm : a.fsm with
  | idle => simp [Assembler.phaseB, hfsm]
  | fill =>
    rw [Assembler.phaseB_fill hfsm]
    by_cases hlast : a.w + 1 = c.pkt
    · simp [Assembler.fillByte_completes hlast]
    · simp [Assembler.fillByte_continues hlast]
  | spill =>
    rw [Assembler.phaseB_spill hfsm]
    by_cases hroom : a.loLen < c.loCap
    · simp [Assembler.spillByte_staged hroom, hroom]
    · simp [Assembler.spillByte_overflows hroom, Nat.le_of_not_lt hroom]

/-- The byte whose phase B raises the fault bit is discarded. -/
theorem Assembler.phaseB_of_loOvf_rises {c : Config} {a : Assembler} {d : Byte} (hbefore : a.loOvf = false)
    (hafter : (a.phaseB c d).loOvf = true) : a.phaseB c d = { a with loOvf := true } := by
  obtain ⟨hspill, hfull⟩ := ((Assembler.phaseB_loOvf_iff d).1 hafter).resolve_left (by simp [hbefore])
  rw [Assembler.phaseB_spill hspill, Assembler.spillByte_overflows (by omega)]

/-- Settles O48: phase B alone sets the bit, on a byte that finds `lo` full in SPILL. -/
theorem overflowFlagIsStickyAndExact : Obligations.OverflowFlagIsStickyAndExact := by
  intro i s t hi h
  have byte (e : Bool) (x : Byte) :
      ((s.fa.beat s.cfg e (some x)).loOvf = true ↔ s.fa.loOvf = true ∨
        ((s.fa.phaseA s.cfg).fsm = .spill ∧ s.cfg.loCap ≤ (s.fa.phaseA s.cfg).loLen)) ∧
      (s.fa.loOvf = false → (s.fa.beat s.cfg e (some x)).loOvf = true →
        (s.fa.beat s.cfg e (some x)).lo = (s.fa.phaseA s.cfg).lo ∧
        (s.fa.beat s.cfg e (some x)).loLen = (s.fa.phaseA s.cfg).loLen) := by
    rw [Assembler.beat_some, Assembler.phaseC_loOvf, Assembler.phaseC_lo, Assembler.phaseC_loLen]
    refine ⟨by rw [Assembler.phaseB_loOvf_iff, Assembler.phaseA_loOvf], fun hbefore hafter => ?_⟩
    rw [Assembler.phaseB_of_loOvf_rises ((Assembler.phaseA_loOvf _ _).trans hbefore) hafter]
    exact ⟨rfl, rfl⟩
  rcases exec_assembler_next hi h with ⟨rfl, rfl⟩ | ⟨rfl, -, rfl⟩ |
    ⟨e, d, ⟨x, rfl, rfl, rfl⟩ | ⟨rfl, rfl, rfl⟩ | ⟨x, rfl, rfl, rfl⟩, -, -, rfl⟩
  · exact ⟨fun _ => rfl, fun hne => absurd rfl hne, nofun⟩
  · exact ⟨nofun, fun _ => by simp, fun hbefore hafter => absurd hafter (by simp [hbefore])⟩
  · exact ⟨nofun, fun _ => by simpa using (byte false x).1, (byte false x).2⟩
  · refine ⟨nofun, fun _ => by simp [Assembler.beat_none], fun hbefore hafter => absurd hafter ?_⟩
    simp [Assembler.beat_none, hbefore]
  · exact ⟨nofun, fun _ => by simpa using (byte true x).1, (byte true x).2⟩

/-! ### The packet handed out -/

/-- A packet is handed out whole, at the moment the cursor returns to 0. -/
def Assembler.KeepsPacket (a b : Assembler) : Prop := b.pkt = a.pkt ∨ (b.pkt = b.buf ∧ b.w = 0)

theorem Assembler.phaseB_spill_keeps {c : Config} {a : Assembler} (hspill : a.fsm = .spill) (d : Byte) :
    (a.phaseB c d).pkt = a.pkt ∧ (a.phaseB c d).buf = a.buf ∧ (a.phaseB c d).w = a.w := by
  rw [Assembler.phaseB_spill hspill]
  by_cases hroom : a.loLen < c.loCap
  · rw [Assembler.spillByte_staged hroom]
    exact ⟨rfl, rfl, rfl⟩
  · rw [Assembler.spillByte_overflows hroom]
    exact ⟨rfl, rfl, rfl⟩

theorem Assembler.keepsPacket_phaseA {c : Config} {a : Assembler} (hw : a.w ≤ c.pkt) :
    a.KeepsPacket (a.phaseA c) := by
  by_cases hidle : a.fsm = .idle
  · by_cases henough : c.pkt ≤ a.w + a.loLen
    · rw [Assembler.phaseA_of_enough_staged hidle hw henough]
      exact .inr ⟨rfl, rfl⟩
    · rw [Assembler.phaseA_of_too_few_staged hidle (by omega)]
      exact .inl rfl
  · rw [Assembler.phaseA_of_ne_idle hidle]
    exact .inl rfl

theorem Assembler.keepsPacket_phaseB (c : Config) (a : Assembler) (d : Byte) : a.KeepsPacket (a.phaseB c d) := by
  cases hfsm : a.fsm with
  | idle => exact .inl (by simp only [Assembler.phaseB, hfsm])
  | fill =>
    rw [Assembler.phaseB_fill hfsm]
    by_cases hlast : a.w + 1 = c.pkt
    · rw [Assembler.fillByte_completes hlast]
      exact .inr ⟨rfl, rfl⟩
    · rw [Assembler.fillByte_continues hlast]
      exact .inl rfl
  | spill => exact .inl (Assembler.phaseB_spill_keeps hfsm d).1

theorem Assembler.keepsPacket_phaseB_phaseA {c : Config} {a : Assembler} (hw : a.w ≤ c.pkt) (d : Byte) :
    a.KeepsPacket ((a.phaseA c).phaseB c d) := by
  by_cases hspill : (a.phaseA c).fsm = .spill
  · obtain ⟨hpkt, hbuf, hcursor⟩ := Assembler.phaseB_spill_keeps (c := c) hspill d
    rw [Assembler.KeepsPacket, hpkt, hbuf, hcursor]
    exact Assembler.keepsPacket_phaseA hw
  · have hkept : (a.phaseA c).pkt = a.pkt := by
      by_cases hidle : a.fsm = .idle
      · by_cases henough : c.pkt ≤ a.w + a.loLen
        · rw [Assembler.phaseA_of_enough_staged hidle hw henough] at hspill
          exact absurd rfl hspill
        · rw [Assembler.phaseA_of_too_few_staged hidle (by omega)]
      · rw [Assembler.phaseA_of_ne_idle hidle]
    have hbyte := (a.phaseA c).keepsPacket_phaseB c d
    rwa [Assembler.KeepsPacket, hkept] at hbyte

/-- Settles O49: `pkt` is written by phase A or by the byte in FILL that completes a packet, never after it. -/
theorem packetIsHeldUntilTheNextCompletion : Obligations.PacketIsHeldUntilTheNextCompletion := by
  intro i s t _ hinv hi hne h
  have hw : s.fa.w ≤ s.cfg.pkt := hinv.widths.w_lt.le
  have byte (e : Bool) (x : Byte) : s.fa.KeepsPacket (s.fa.beat s.cfg e (some x)) ∧
      (s.fa.fsm = .spill → (s.fa.beat s.cfg e (some x)).pkt = s.fa.pkt) := by
    refine ⟨?_, fun hspill => ?_⟩
    · rw [Assembler.beat_some, Assembler.KeepsPacket, Assembler.phaseC_pkt, Assembler.phaseC_buf, Assembler.phaseC_w]
      exact Assembler.keepsPacket_phaseB_phaseA hw x
    · rw [Assembler.beat_some_of_ne_idle (by simp [hspill]), Assembler.phaseC_pkt]
      exact (Assembler.phaseB_spill_keeps hspill x).1
  rcases exec_assembler_next hi h with ⟨rfl, -⟩ | ⟨-, -, rfl⟩ |
    ⟨e, d, ⟨x, -, rfl, rfl⟩ | ⟨-, rfl, rfl⟩ | ⟨x, -, rfl, rfl⟩, -, -, rfl⟩
  · exact absurd rfl hne
  · exact ⟨.inl rfl, fun _ => rfl⟩
  · exact byte false x
  · refine ⟨Assembler.keepsPacket_phaseA hw, fun hspill => ?_⟩
    rw [State.afterBeat_fa, Assembler.beat_none, Assembler.phaseC_pkt, Assembler.phaseA_of_ne_idle (by simp [hspill])]
  · exact byte true x

/-! ### The packet bus -/

theorem busValue_lt : ∀ bs : List Byte, busValue bs < 2 ^ (8 * bs.length)
  | [] => Nat.one_pos
  | b :: bs => by
    have hb : b.toNat < 256 := b.isLt
    have hbs := busValue_lt bs
    rw [busValue_cons, List.length_cons, Nat.mul_succ, Nat.pow_add]
    omega

/-- Byte `i` of the bus is element `i`: each step down the list drops the lowest byte. -/
theorem busValue_byte : ∀ (bs : List Byte) (i : Nat) (hi : i < bs.length),
    busValue bs / 2 ^ (8 * i) % 2 ^ 8 = bs[i].toNat
  | b :: bs, 0, _ => by
    have hb : b.toNat < 256 := b.isLt
    rw [busValue_cons, Nat.mul_zero, Nat.pow_zero, Nat.div_one, List.getElem_cons_zero]
    omega
  | b :: bs, i + 1, hi => by
    have hb : b.toNat < 256 := b.isLt
    have htail : busValue (b :: bs) / 2 ^ 8 = busValue bs := by
      rw [busValue_cons]
      omega
    rw [List.getElem_cons_succ, Nat.mul_succ, Nat.add_comm, Nat.pow_add, ← Nat.div_div_eq_div_mul, htail]
    exact busValue_byte bs i _

theorem Assembler.pktBus_byte {c : Config} (a : Assembler) {i : Nat} (hi : i < c.pkt) :
    (a.pins c).pktBus / 2 ^ (8 * i) % 2 ^ 8 = (Memory.read a.pkt i).toNat := by
  rw [Assembler.pins_pktBus, busValue_byte _ i (by rwa [Memory.length_bytes]), Memory.getElem_bytes]

/-- Settles O59: the bus lists the packet's bytes from the lowest up, and the completing byte is the last of them. -/
theorem packetBusCarriesTheFirstByteLowest : Obligations.PacketBusCarriesTheFirstByteLowest := by
  refine ⟨fun c a _ => ⟨?_, fun i hi => a.pktBus_byte hi⟩, fun d s hreset h hunfaulted hfill hlast => ?_⟩
  · have hlt := busValue_lt (Memory.bytes a.pkt c.pkt)
    rwa [Memory.length_bytes] at hlt
  · obtain ⟨t, hexec, hsame, hbuf, -, -, hok, -, -, -, hdone, -, -⟩ :=
      faByteFillsThePacket d s hreset hunfaulted h hfill
    obtain ⟨hpkt, -, -⟩ := hdone hlast
    refine ⟨t, hexec, hok, fun i hi => ?_⟩
    rw [hsame.cfg, Assembler.pktBus_byte _ hi, hpkt, hbuf]

end Sys2Proof.Machine
end

section
/-! Proofs about the assembler along a run: its invariant and the stream of bytes through it (spec/10_state.md R62),
the sticky fault (spec/60_exceptions.md R216), and, with the FIFO's invariant, which lines are executed. -/

namespace Sys2Proof.Machine

/-! ### The invariant through the phases -/

/-- The invariant of R62 but for `lo_pend`, which phase C alone brings up to date. -/
structure Assembler.PhaseInv (c : Config) (a : Assembler) : Prop where
  widths : a.Widths c
  lo_blank : Memory.within a.loLen a.lo = true
  spill_w : a.fsm = .spill → a.w = 0
  fill_lo : a.fsm = .fill → a.loLen = 0
  one_empty : a.w = 0 ∨ a.loLen = 0

theorem Assembler.Inv.phaseInv {c : Config} {a : Assembler} (h : a.Inv c) : a.PhaseInv c :=
  ⟨h.widths, h.lo_blank, h.spill_w, h.fill_lo, h.one_empty⟩

theorem Assembler.PhaseInv.phaseA {c : Config} {a : Assembler} (h : a.PhaseInv c) : (a.phaseA c).PhaseInv c := by
  have hwidths := h.widths.phaseA
  by_cases hidle : a.fsm = .idle
  · by_cases henough : c.pkt ≤ a.w + a.loLen
    · rw [Assembler.phaseA_of_enough_staged hidle h.widths.w_lt.le henough] at hwidths ⊢
      exact ⟨hwidths, Memory.within_shiftDown _ h.lo_blank, fun _ => rfl, nofun, .inl rfl⟩
    · have hblank := Memory.within_shiftDown a.loLen h.lo_blank
      rw [Nat.sub_self] at hblank
      rw [Assembler.phaseA_of_too_few_staged hidle (by omega)] at hwidths ⊢
      exact ⟨hwidths, hblank, nofun, fun _ => rfl, .inr rfl⟩
  · rwa [Assembler.phaseA_of_ne_idle hidle]

theorem Assembler.PhaseInv.phaseB {c : Config} {a : Assembler} (h : a.PhaseInv c) (d : Byte) :
    (a.phaseB c d).PhaseInv c := by
  have hwidths := h.widths.phaseB d
  cases hfsm : a.fsm with
  | idle => simpa only [Assembler.phaseB, hfsm] using h
  | fill =>
    have hlo := h.fill_lo hfsm
    rw [Assembler.phaseB_fill hfsm] at hwidths ⊢
    by_cases hlast : a.w + 1 = c.pkt
    · rw [Assembler.fillByte_completes hlast] at hwidths ⊢
      exact ⟨hwidths, h.lo_blank, fun _ => rfl, nofun, .inl rfl⟩
    · rw [Assembler.fillByte_continues hlast] at hwidths ⊢
      exact ⟨hwidths, h.lo_blank, nofun, fun _ => hlo, .inr hlo⟩
  | spill =>
    have hw := h.spill_w hfsm
    rw [Assembler.phaseB_spill hfsm] at hwidths ⊢
    by_cases hroom : a.loLen < c.loCap
    · have hblank := Memory.within_write d (Nat.lt_succ_self a.loLen)
        (Memory.within_mono (Nat.le_succ a.loLen) h.lo_blank)
      rw [Assembler.spillByte_staged hroom] at hwidths ⊢
      exact ⟨hwidths, hblank, fun _ => hw, fun hfill => absurd (hfsm.symm.trans hfill) nofun, .inl hw⟩
    · rw [Assembler.spillByte_overflows hroom] at hwidths ⊢
      exact ⟨hwidths, h.lo_blank, fun _ => hw, fun hfill => absurd (hfsm.symm.trans hfill) nofun, .inl hw⟩

theorem Assembler.PhaseInv.phaseC {c : Config} {a : Assembler} (h : a.PhaseInv c) (inEnd : Bool) :
    (a.phaseC inEnd).Inv c := by
  cases inEnd with
  | false => exact ⟨h.widths.of_eq rfl rfl rfl rfl rfl, h.lo_blank, rfl, h.spill_w, h.fill_lo, h.one_empty⟩
  | true => exact ⟨h.widths.of_eq rfl rfl rfl rfl rfl, h.lo_blank, rfl, nofun, nofun, h.one_empty⟩

theorem Assembler.Inv.beat {c : Config} {a : Assembler} (h : a.Inv c) (inEnd : Bool) (inData : Option Byte) :
    (a.beat c inEnd inData).Inv c := by
  cases inData with
  | none => exact h.phaseInv.phaseA.phaseC inEnd
  | some d => exact (h.phaseInv.phaseA.phaseB d).phaseC inEnd

theorem Assembler.Inv.clear_resValid {c : Config} {a : Assembler} (h : a.Inv c) :
    ({ a with resValid := false } : Assembler).Inv c :=
  ⟨h.widths.of_eq rfl rfl rfl rfl rfl, h.lo_blank, h.pend_iff, h.spill_w, h.fill_lo, h.one_empty⟩

/-- Every move of the assembler keeps its invariant. -/
theorem State.FaMove.keeps_inv {s u : State} (h : s.FaMove u) (hs : s.faReset = true → s.fa.Inv s.cfg)
    (hu : u.faReset = true) : u.fa.Inv u.cfg := by
  cases h with
  | idle => exact hs hu
  | reset => exact Assembler.inv_zero s.cfg
  | nop hreset => exact (hs hreset).clear_resValid
  | beat hreset _ inEnd inData => exact (hs hreset).beat inEnd inData

/-- Settles O31: a step moves each block in one of its ways, and each of these keeps the block's invariant. -/
theorem everyStepKeepsTheInvariants : Obligations.EveryStepKeepsTheInvariants := by
  intro s t hinv h
  obtain ⟨⟨u, hu, hfifo⟩, v, hv, hfa⟩ := step_moves h
  refine ⟨fun ht => ?_, fun ht => ?_⟩
  · rw [hfifo.fifo, hfifo.cfg]
    exact hu.keeps_inv hinv.fifo (hfifo.fifoReset ▸ ht)
  · rw [hfa.fa, hfa.cfg]
    exact hv.keeps_inv hinv.fa (hfa.faReset ▸ ht)

/-! ### The stream through the phases -/

/-- The bytes that went into the assembler and are not lost: completed packets, then `buf`, then `lo` (R62). -/
def Assembler.stream (c : Config) (a : Assembler) (log : List FaEvent) : List Byte :=
  completedBytes c a log ++ Memory.bytes a.buf a.w ++ Memory.bytes a.lo a.loLen

theorem Assembler.streamKept_iff {c : Config} {a : Assembler} {log : List FaEvent} :
    a.StreamKept c log ↔ a.stream c log = fedBytes log := Iff.rfl

theorem completedBytes_of_spill {c : Config} {a : Assembler} (h : a.fsm = .spill) (log : List FaEvent) :
    completedBytes c a log = returnedBytes log ++ Memory.bytes a.pkt c.pkt := if_pos h

theorem completedBytes_of_ne_spill {c : Config} {a : Assembler} (h : a.fsm ≠ .spill) (log : List FaEvent) :
    completedBytes c a log = returnedBytes log := if_neg h

theorem Memory.bytes_append_shiftDown (m : Memory) (k n : Nat) :
    Memory.bytes m k ++ Memory.bytes (Memory.shiftDown k m) n = Memory.bytes m (k + n) := by
  induction n with
  | zero => simp
  | succ n ih =>
    rw [Memory.bytes_succ, ← List.append_assoc, ih, Memory.read_shiftDown, Nat.add_comm n k, ← Nat.add_assoc,
      Memory.bytes_succ]

/-- Phase A moves bytes along the stream. -/
theorem Assembler.PhaseInv.stream_phaseA {c : Config} {a : Assembler} (h : a.PhaseInv c) (log : List FaEvent) :
    (a.phaseA c).stream c log = a.stream c log := by
  have hw := h.widths.w_lt
  by_cases hidle : a.fsm = .idle
  · rw [Assembler.stream, Assembler.stream, completedBytes_of_ne_spill (a := a) (by simp [hidle])]
    by_cases henough : c.pkt ≤ a.w + a.loLen
    · have hcopy := Memory.bytes_copyFrom h.widths.buf_wf a.w a.lo (c.pkt - a.w)
      have hshift := Memory.bytes_append_shiftDown a.lo (c.pkt - a.w) (a.loLen - (c.pkt - a.w))
      rw [Nat.add_sub_cancel' hw.le] at hcopy
      rw [Nat.add_sub_cancel' (by omega)] at hshift
      rw [Assembler.phaseA_of_enough_staged hidle hw.le henough, completedBytes_of_spill rfl, hcopy,
        Memory.bytes_zero, List.append_nil, List.append_assoc, List.append_assoc, hshift, List.append_assoc]
    · have hcopy := Memory.bytes_copyFrom h.widths.buf_wf a.w a.lo a.loLen
      rw [Assembler.phaseA_of_too_few_staged hidle (by omega), completedBytes_of_ne_spill (by simp), hcopy,
        Memory.bytes_zero, List.append_nil, List.append_assoc]
  · rw [Assembler.phaseA_of_ne_idle hidle]

/-- Phase B puts its byte at the end of the stream, unless it is discarded. -/
theorem Assembler.PhaseInv.stream_phaseB {c : Config} {a : Assembler} (h : a.PhaseInv c) (hopen : a.fsm ≠ .idle)
    {d : Byte} (hunfaulted : (a.phaseB c d).loOvf = false) (log : List FaEvent) :
    (a.phaseB c d).stream c log = a.stream c log ++ [d] := by
  rw [Assembler.stream, Assembler.stream]
  cases hfsm : a.fsm with
  | idle => exact absurd hfsm hopen
  | fill =>
    have hend := Memory.bytes_write_end h.widths.buf_wf a.w d
    rw [Assembler.phaseB_fill hfsm, completedBytes_of_ne_spill (a := a) (by simp [hfsm])]
    by_cases hlast : a.w + 1 = c.pkt
    · rw [hlast] at hend
      rw [Assembler.fillByte_completes hlast, completedBytes_of_spill rfl, hend, h.fill_lo hfsm]
      simp
    · rw [Assembler.fillByte_continues hlast, completedBytes_of_ne_spill (by simp), hend, h.fill_lo hfsm]
      simp
  | spill =>
    have hroom : a.loLen < c.loCap := by
      by_contra hfull
      have hovf := (Assembler.phaseB_loOvf_iff (c := c) (a := a) d).2 (.inr ⟨hfsm, Nat.le_of_not_lt hfull⟩)
      rw [hunfaulted] at hovf
      cases hovf
    rw [Assembler.phaseB_spill hfsm, Assembler.spillByte_staged hroom, Memory.bytes_write_end h.widths.lo_wf,
      ← List.append_assoc]
    rfl

theorem Assembler.beatEvent_true (c : Config) (a : Assembler) (inData : Option Byte) :
    a.beatEvent c true inData = .beat true inData (some (a.resComplete, Memory.bytes a.pkt c.pkt)) := rfl

theorem returnedBytes_beat_some (e : Bool) (d : Option Byte) (complete : Bool) (p : List Byte) (log : List FaEvent) :
    returnedBytes (.beat e d (some (complete, p)) :: log) = returnedBytes log ++ if complete then p else [] := by
  cases complete with
  | false => exact (List.append_nil _).symm
  | true => rfl

theorem fedBytes_beat (e : Bool) (d : Option Byte) (r : Option (Bool × List Byte)) (log : List FaEvent) :
    fedBytes (.beat e d r :: log) = fedBytes log ++ d.toList := by
  cases d with
  | none => exact (List.append_nil _).symm
  | some d => rfl

/-- Phase C hands a completed packet from the register to the history. -/
theorem Assembler.stream_phaseC (c : Config) {a : Assembler} (hopen : a.fsm ≠ .idle) (inEnd : Bool)
    (inData : Option Byte) (log : List FaEvent) :
    (a.phaseC inEnd).stream c ((a.phaseC inEnd).beatEvent c inEnd inData :: log) = a.stream c log := by
  cases inEnd with
  | false => rfl
  | true =>
    rw [Assembler.stream, Assembler.stream, Assembler.beatEvent_true,
      completedBytes_of_ne_spill (a := a.phaseC true) nofun, returnedBytes_beat_some, Assembler.phaseC_buf,
      Assembler.phaseC_w, Assembler.phaseC_lo, Assembler.phaseC_loLen, Assembler.phaseC_pkt]
    cases hfsm : a.fsm with
    | idle => exact absurd hfsm hopen
    | fill =>
      have hincomplete : (a.phaseC true).resComplete = false := by simp [Assembler.phaseC_end, hfsm]
      rw [hincomplete, completedBytes_of_ne_spill (by simp [hfsm])]
      simp
    | spill => rw [(a.phaseC_true_resComplete_iff).2 hfsm, completedBytes_of_spill hfsm, if_pos rfl]

theorem Assembler.beat_loOvf_of_some (c : Config) (a : Assembler) (inEnd : Bool) (d : Byte) :
    (a.beat c inEnd (some d)).loOvf = ((a.phaseA c).phaseB c d).loOvf := Assembler.phaseC_loOvf _ _

/-- A beat without an overflow puts its byte, if it has one, at the end of the stream. -/
theorem Assembler.Inv.stream_beat {c : Config} {a : Assembler} (h : a.Inv c) {inEnd : Bool} {inData : Option Byte}
    (hunfaulted : (a.beat c inEnd inData).loOvf = false) (log : List FaEvent) :
    (a.beat c inEnd inData).stream c ((a.beat c inEnd inData).beatEvent c inEnd inData :: log) =
      a.stream c log ++ inData.toList := by
  have hopen := Assembler.phaseA_ne_idle c a
  cases inData with
  | none => rw [Assembler.beat_none, Assembler.stream_phaseC c hopen, h.phaseInv.stream_phaseA]; simp
  | some d =>
    rw [Assembler.beat_loOvf_of_some] at hunfaulted
    rw [Assembler.beat_some, Assembler.stream_phaseC c (Assembler.phaseB_ne_idle hopen d),
      h.phaseInv.phaseA.stream_phaseB hopen hunfaulted, h.phaseInv.stream_phaseA]
    rfl

theorem Assembler.loOvf_of_beat {c : Config} {a : Assembler} {inEnd : Bool} {inData : Option Byte}
    (hunfaulted : (a.beat c inEnd inData).loOvf = false) : a.loOvf = false := by
  by_contra hfault
  rw [Bool.not_eq_false] at hfault
  cases inData with
  | none => simp [Assembler.beat_none, hfault] at hunfaulted
  | some d =>
    rw [Assembler.beat_loOvf_of_some,
      (Assembler.phaseB_loOvf_iff d).2 (.inl ((Assembler.phaseA_loOvf c a).trans hfault))] at hunfaulted
    cases hunfaulted

/-- Settles O33: the stream and the bytes fed grow by the same byte in a beat, and in no other move. -/
theorem everyStepKeepsTheStream : Obligations.EveryStepKeepsTheStream := by
  intro s t hinv hkept h ht hunfaulted
  obtain ⟨-, u, hu, hsame⟩ := step_moves h
  rw [State.unfaulted, hsame.fa] at hunfaulted
  rw [hsame.fa, hsame.cfg, hsame.faLog, Assembler.streamKept_iff]
  rw [hsame.faReset] at ht
  cases hu with
  | idle => exact hkept ht hunfaulted
  | reset => rfl
  | nop hreset => exact hkept hreset hunfaulted
  | beat hreset _ inEnd inData =>
    have hbefore : s.fa.stream s.cfg s.faLog = fedBytes s.faLog :=
      hkept hreset (Assembler.loOvf_of_beat hunfaulted)
    rw [State.afterBeat_cfg, State.afterBeat_fa, State.afterBeat_faLog,
      (hinv.fa hreset).stream_beat hunfaulted, hbefore, Assembler.beatEvent, fedBytes_beat]

/-! ### The reset state -/

/-- Settles O8: the reset state's FIFO stands at positions 0 and its assembler is the zero one. -/
theorem resetStateIsAllZero : Obligations.ResetStateIsAllZero := by
  intro c
  obtain ⟨-, -, -, -, -, -, -, -, -, -, -, hfifo⟩ := jointResetClearsTheFifo
  obtain ⟨hfull, hempty, hdata, hcount, hwcount, hrcount, hhead, htail⟩ := hfifo c
  have hmore : Assembler.zero.more c = false := by
    have := c.pkt_pos
    simp [Assembler.more, Assembler.zero]
    omega
  exact ⟨rfl, rfl, rfl, rfl, rfl, rfl, rfl, rfl, fun _ => rfl, hhead, htail, hcount, hwcount, hrcount, hfull, hempty,
    hdata, rfl, rfl, rfl, rfl, rfl, rfl, rfl, rfl, hmore, fun _ => rfl, fun _ => rfl, fun _ => rfl⟩

/-- Settles O35: both zero blocks meet their invariants, and nothing was stored, delivered or fed. -/
theorem resetMeetsTheInvariants : Obligations.ResetMeetsTheInvariants := fun c =>
  ⟨⟨fun _ => (Fifo.at_zero c).inv, fun _ => Assembler.inv_zero c⟩, (Fifo.at_zero c).stored_eq.symm, rfl, rfl, rfl⟩

/-! ### Which lines are executed -/

theorem execFaNop_ne_fault (s : State) (e : Fault) : execFaNop s ≠ .fault e := by
  rw [execFaNop]
  split <;> simp

theorem State.beatStep_ne_fault {s : State} (hinv : s.faReset = true → s.fa.Inv s.cfg) (inEnd : Bool)
    (inData : Option Byte) (e : Fault) : s.beatStep inEnd inData ≠ .fault e := by
  by_cases hreset : s.faReset = true
  · rw [State.beatStep_eq hreset (hinv hreset).cursorsInRange]
    exact nofun
  · rw [State.beatStep_unreset (by simpa using hreset)]
    exact nofun

theorem exec_ne_fault {s : State} (hinv : s.Inv) (i : Instr) (e : Fault) : exec i s ≠ .fault e := by
  cases i with
  | wrst | wnop | enq | rrst | rnop | deq => exact s.fifoStep_ne_fault _ _ e
  | faReset => exact nofun
  | faNop => exact execFaNop_ne_fault s e
  | faByte | faEnd | faLast => exact State.beatStep_ne_fault hinv.fa _ _ e

/-- Settles O7: only a beat can fault, and not with the cursors in range. -/
theorem invariantStatesNeverFault : Obligations.InvariantStatesNeverFault := by
  intro s e hinv h
  unfold step at h
  split at h
  · cases h
  · split at h
    · cases h
    · exact exec_ne_fault hinv _ _ ‹_›
    · cases h

/-- Every operation of a reset assembler with its cursors in range is executed. -/
theorem exec_assembler_of_reset {i : Instr} (hi : i.port = .assembler) {s : State} (hreset : s.faReset = true)
    (hrange : s.fa.cursorsInRange s.cfg = true) : ∃ t, exec i s = .next t ∧ t.stimulus = s.stimulus := by
  cases i with
  | wrst | wnop | enq | rrst | rnop | deq => cases hi
  | faReset => exact ⟨_, exec_faReset s, rfl⟩
  | faNop => exact ⟨_, execFaNop_eq hreset, rfl⟩
  | faByte d => exact ⟨_, State.beatStep_eq hreset hrange false (some d), rfl⟩
  | faEnd => exact ⟨_, State.beatStep_eq hreset hrange true none, rfl⟩
  | faLast d => exact ⟨_, State.beatStep_eq hreset hrange true (some d), rfl⟩

theorem writeOpOf_decodeWrite_reset {cw : WriteWord} (h : cw.getLsbD 9 = false) :
    writeOpOf (decodeWrite cw) = some .reset := by
  obtain ⟨w, hw, hiff⟩ := writeOpOf_decodeWrite cw
  rw [hw, hiff.2 h]

theorem readOpOf_decodeRead_reset {cr : ReadWord} (h : cr.getLsbD 1 = false) :
    readOpOf (decodeRead cr) = some .reset := by
  obtain ⟨r, hr, hiff⟩ := readOpOf_decodeRead cr
  rw [hr, hiff.2 h]

/-- A line that resets both FIFO domains, or neither, is executed; a line of the assembler is. -/
theorem step_of_wellFormed {s : State} {line : Line} {rest : List Line} (hs : s.stimulus = line :: rest)
    (hinv : s.Inv) (hfifo : s.fifoReset = true) (hfa : s.faReset = true) (hline : line.wellFormed = true) :
    ∃ t, step s = .next t ∧ t.stimulus = rest := by
  have hrest : s.stimulus.tail = rest := by rw [hs]; rfl
  cases line with
  | w cw =>
    obtain ⟨q, hq⟩ := writeOpOf_decodeWrite_edge hline
    exact ⟨_, step_write_line hs hq hfifo, hrest⟩
  | r cr =>
    obtain ⟨b, hb⟩ := readOpOf_decodeRead_edge hline
    exact ⟨_, step_read_line hs hb hfifo, hrest⟩
  | wr cw cr =>
    have hbits : cw.getLsbD 9 = cr.getLsbD 1 := by simpa [Line.wellFormed] using hline
    cases hcr : cr.getLsbD 1 with
    | true =>
      obtain ⟨q, hq⟩ := writeOpOf_decodeWrite_edge (hbits.trans hcr)
      obtain ⟨b, hb⟩ := readOpOf_decodeRead_edge hcr
      exact ⟨_, step_coincident_line hs hq hb hfifo, hrest⟩
    | false =>
      have hread : s.coincidentRead = some .reset := by
        simp [State.coincidentRead, hs, readOpOf_decodeRead_reset hcr]
      have hexec : exec (decodeWrite cw) s = .next s.resetFifo := by
        rw [exec_of_writeOp (writeOpOf_decodeWrite_reset (hbits.trans hcr)), hread]
        rfl
      exact ⟨_, step_of_line hs hexec, hrest⟩
  | f c =>
    have hport : (decodeBeat c).port = .assembler := decode_port (.assembler c)
    obtain ⟨t, hexec, hstim⟩ := exec_assembler_of_reset hport hfa (hinv.fa hfa).cursorsInRange
    exact ⟨_, step_of_line hs hexec, by rw [State.consumeLine_stimulus, hstim, hrest]⟩

/-- A line that resets one FIFO domain only is refused. -/
theorem step_of_not_wellFormed {s : State} {line : Line} {rest : List Line} (hs : s.stimulus = line :: rest)
    (hline : line.wellFormed = false) : step s = .refused .partialReset := by
  refine step_of_line_refused hs ?_
  cases line with
  | w cw =>
    have hread : s.coincidentRead = none := by rw [State.coincidentRead, hs]
    rw [Line.instr, exec_of_writeOp (writeOpOf_decodeWrite_reset hline), hread]
    rfl
  | r cr =>
    have hwrite : s.coincidentWrite = none := by rw [State.coincidentWrite, hs]
    rw [Line.instr, exec_of_readOp (readOpOf_decodeRead_reset hline), hwrite]
    rfl
  | wr cw cr =>
    have hread : s.coincidentRead = readOpOf (decodeRead cr) := by rw [State.coincidentRead, hs]
    have hbits : cw.getLsbD 9 ≠ cr.getLsbD 1 := beq_eq_false_iff_ne.1 hline
    cases hcw : cw.getLsbD 9 with
    | true =>
      have hcr : cr.getLsbD 1 = false := Bool.eq_false_of_not_eq_true fun hcr => hbits (hcw.trans hcr.symm)
      obtain ⟨q, hq⟩ := writeOpOf_decodeWrite_edge hcw
      rw [Line.instr, exec_of_writeOp hq, hread, readOpOf_decodeRead_reset hcr]
      rfl
    | false =>
      have hcr : cr.getLsbD 1 = true := Bool.eq_true_of_not_eq_false fun hcr => hbits (hcw.trans hcr.symm)
      obtain ⟨b, hb⟩ := readOpOf_decodeRead_edge hcr
      rw [Line.instr, exec_of_writeOp (writeOpOf_decodeWrite_reset hcw), hread, hb]
      rfl
  | f c => cases hline

/-- Settles O6: a well-formed line is executed, one that is not well-formed is a partial reset. -/
theorem resetBlocksExecuteAllButAPartialReset : Obligations.ResetBlocksExecuteAllButAPartialReset :=
  fun _ _ _ hs => ⟨step_of_wellFormed hs, step_of_not_wellFormed hs⟩

/-! ### The sticky fault -/

theorem exec_stimulus {i : Instr} {s t : State} (h : exec i s = .next t) : t.stimulus = s.stimulus := by
  by_cases hi : i.port = .assembler
  · obtain ⟨-, -, -, -, hstim⟩ := blocksLeaveEachOtherAlone.2.1 i s t hi h
    exact hstim
  · obtain ⟨-, -, -, -, hstim⟩ := exec_fifoPort_frame hi h
    exact hstim

/-- No operation but FA_RESET clears the fault. -/
theorem exec_keeps_faulted {i : Instr} {s t : State} (hne : i ≠ .faReset) (hs : s.faulted) (h : exec i s = .next t) :
    t.faulted := by
  by_cases hi : i.port = .assembler
  · obtain ⟨-, hsticky, -⟩ := overflowFlagIsStickyAndExact i s t hi h
    exact (hsticky hne).2 (.inl hs)
  · obtain ⟨hfa, -⟩ := exec_fifoPort_frame hi h
    rw [State.faulted, hfa]
    exact hs

/-- A run goes on from the next state of its first step. -/
theorem run_succ_next {k : Nat} {s t : State} (h : Host.Core.run core (k + 1) s = .next t) :
    ∃ u, step s = .next u ∧ Host.Core.run core k u = .next t := by
  simp only [Host.Core.run] at h
  split at h
  · exact ⟨_, ‹_›, h⟩
  · cases h
  · cases h

theorem run_keeps_faulted {k : Nat} {s t : State} (hs : s.faulted) (h : Host.Core.run core k s = .next t)
    (hlines : ∀ line ∈ s.stimulus.take k, line.instr ≠ .faReset) : t.faulted := by
  induction k generalizing s with
  | zero => cases h; exact hs
  | succ k ih =>
    obtain ⟨u, hstep, hrun⟩ := run_succ_next h
    rcases step_next hstep with ⟨hnil, rfl⟩ | ⟨line, rest, v, hcons, hexec, rfl⟩
    · exact ih hs hrun (by simp [hnil])
    · rw [hcons, List.take_succ_cons] at hlines
      have hv : v.faulted := exec_keeps_faulted (hlines line (List.mem_cons_self ..)) hs hexec
      refine ih (s := v.consumeLine) hv hrun fun line' hline' => hlines line' (List.mem_cons_of_mem _ ?_)
      rwa [State.consumeLine_stimulus, exec_stimulus hexec, hcons] at hline'

/-- Settles O58: the fault outlives every line but FA_RESET, and a faulted state is not final. -/
theorem faultedStatesAreNeverFinal : Obligations.FaultedStatesAreNeverFinal := by
  refine ⟨fun k s t hs h hlines => ?_, fun s line rest hs hline => ?_⟩
  · have ht := run_keeps_faulted hs h hlines
    exact ⟨ht, State.not_final_of_faulted ht⟩
  · have hexec := exec_faReset s
    rw [← hline] at hexec
    refine ⟨_, step_of_line hs hexec, rfl, ?_⟩
    simp [State.final, State.unfaulted, hs, Assembler.zero]

/-! ### Faulted states run on alike -/

/-- The assembler with the fault bit set. -/
def Assembler.markFaulted (a : Assembler) : Assembler := { a with loOvf := true }

/-- An answer with the fault bit set in its next state. -/
def markFaultedResult : Result → Result
  | .next t => .next t.markFaulted
  | .fault e => .fault e
  | .refused e => .refused e

theorem Assembler.phaseA_markFaulted (c : Config) (a : Assembler) :
    a.markFaulted.phaseA c = (a.phaseA c).markFaulted := by
  by_cases hidle : a.fsm = .idle
  · by_cases hfull : a.w + min a.loLen (c.pkt - a.w) = c.pkt
    · rw [Assembler.phaseA_completes hidle hfull]
      exact Assembler.phaseA_completes hidle hfull
    · rw [Assembler.phaseA_starts hidle hfull]
      exact Assembler.phaseA_starts hidle hfull
  · rw [Assembler.phaseA_of_ne_idle hidle]
    exact Assembler.phaseA_of_ne_idle hidle

theorem Assembler.phaseB_markFaulted (c : Config) (a : Assembler) (d : Byte) :
    a.markFaulted.phaseB c d = (a.phaseB c d).markFaulted := by
  cases hfsm : a.fsm with
  | idle => simp only [Assembler.phaseB, Assembler.markFaulted, hfsm]
  | fill =>
    rw [Assembler.phaseB_fill hfsm, Assembler.phaseB_fill (a := a.markFaulted) hfsm]
    by_cases hlast : a.w + 1 = c.pkt
    · rw [Assembler.fillByte_completes hlast]
      exact Assembler.fillByte_completes (a := a.markFaulted) hlast d
    · rw [Assembler.fillByte_continues hlast]
      exact Assembler.fillByte_continues (a := a.markFaulted) hlast d
  | spill =>
    rw [Assembler.phaseB_spill hfsm, Assembler.phaseB_spill (a := a.markFaulted) hfsm]
    by_cases hroom : a.loLen < c.loCap
    · rw [Assembler.spillByte_staged hroom]
      exact Assembler.spillByte_staged (a := a.markFaulted) hroom d
    · rw [Assembler.spillByte_overflows hroom]
      exact Assembler.spillByte_overflows (a := a.markFaulted) hroom d

theorem Assembler.phaseC_markFaulted (a : Assembler) (inEnd : Bool) :
    a.markFaulted.phaseC inEnd = (a.phaseC inEnd).markFaulted := by cases inEnd <;> rfl

theorem Assembler.beat_markFaulted (c : Config) (a : Assembler) (inEnd : Bool) (inData : Option Byte) :
    a.markFaulted.beat c inEnd inData = (a.beat c inEnd inData).markFaulted := by
  cases inData with
  | none => rw [Assembler.beat_none, Assembler.phaseA_markFaulted, Assembler.phaseC_markFaulted, Assembler.beat_none]
  | some d =>
    rw [Assembler.beat_some, Assembler.phaseA_markFaulted, Assembler.phaseB_markFaulted,
      Assembler.phaseC_markFaulted, Assembler.beat_some]

theorem State.afterBeat_markFaulted (s : State) (inEnd : Bool) (inData : Option Byte) :
    s.markFaulted.afterBeat inEnd inData = (s.afterBeat inEnd inData).markFaulted := by
  have hbeat := Assembler.beat_markFaulted s.cfg s.fa inEnd inData
  rw [Assembler.markFaulted, Assembler.markFaulted] at hbeat
  simp only [State.afterBeat, State.markFaulted, hbeat]
  rfl

theorem State.beatStep_markFaulted (s : State) (inEnd : Bool) (inData : Option Byte) :
    s.markFaulted.beatStep inEnd inData = markFaultedResult (s.beatStep inEnd inData) := by
  have hrange : s.markFaulted.fa.cursorsInRange s.markFaulted.cfg = s.fa.cursorsInRange s.cfg := rfl
  rw [State.beatStep, State.beatStep, State.afterBeat_markFaulted, hrange, State.markFaulted_faReset]
  split_ifs <;> rfl

theorem State.fifoStep_markFaulted (s : State) (w : Option WriteOp) (r : Option ReadOp) :
    s.markFaulted.fifoStep w r = markFaultedResult (s.fifoStep w r) := by
  have guard (u : State) : (if s.fifoReset then .next u.markFaulted else .refused .noReset : Result) =
      markFaultedResult (if s.fifoReset then .next u else .refused .noReset) := by split_ifs <;> rfl
  rcases w with _ | _ | q <;> rcases r with _ | _ | b
  · rfl
  · rfl
  · exact guard (s.stepR b)
  · rfl
  · rfl
  · rfl
  · exact guard (s.stepW q)
  · rfl
  · exact guard (s.stepWR q b)

/-- Every operation but FA_RESET answers alike with the fault bit set. -/
theorem exec_markFaulted {i : Instr} (hne : i ≠ .faReset) (s : State) :
    exec i s.markFaulted = markFaultedResult (exec i s) := by
  cases i with
  | wrst | wnop | enq | rrst | rnop | deq => exact s.fifoStep_markFaulted _ _
  | faReset => exact absurd rfl hne
  | faNop =>
    by_cases hreset : s.faReset = true
    · simp [exec, execFaNop, hreset, markFaultedResult, State.markFaulted]
    · simp [exec, execFaNop, hreset, markFaultedResult]
  | faByte | faEnd | faLast => exact s.beatStep_markFaulted _ _

/-- Settles O60: no operation reads the fault bit, and FA_RESET overwrites it. -/
theorem faultedStatesRunOnAlike : Obligations.FaultedStatesRunOnAlike := by
  refine ⟨fun i s hne => ⟨fun t h => ?_, fun e h => ?_, fun e h => ?_⟩, fun s => rfl⟩ <;>
    rw [exec_markFaulted hne, h] <;> rfl

end Sys2Proof.Machine
end

section
/-! Proofs about whole calls and drained streams (spec/41_frame_assembler_ops.md R192, R193): what the operations of a
call add to the stream of bytes and to the results, and that a caller who drains is never overrun. -/

namespace Sys2Proof.Machine

/-! ### Results in the history -/

/-- The result of a call, by the registers it ends with (R185). -/
def Assembler.result (c : Config) (a : Assembler) : Option (List Byte) :=
  if a.resComplete then some (Memory.bytes a.pkt c.pkt) else none

theorem callResults_beatEvent_end (c : Config) (a : Assembler) (inData : Option Byte) (log : List FaEvent) :
    callResults (a.beatEvent c true inData :: log) = callResults log ++ [a.result c] := by
  rw [Assembler.beatEvent_true, Assembler.result]
  cases a.resComplete <;> rfl

/-- The bytes returned are those of the `Complete` results. -/
theorem returnedBytes_eq_flatten : ∀ log : List FaEvent,
    returnedBytes log = ((callResults log).filterMap id).flatten
  | [] => rfl
  | .reset :: _ => rfl
  | .beat _ _ none :: log => returnedBytes_eq_flatten log
  | .beat _ _ (some (false, _)) :: log => by
    simpa [returnedBytes, callResults] using returnedBytes_eq_flatten log
  | .beat _ _ (some (true, _)) :: log => by
    simp [returnedBytes, callResults, returnedBytes_eq_flatten log]

/-! ### Runs of the assembler -/

/-- `t` is reached from `s` by operations of the assembler that carry these bytes and end calls with these results. -/
structure State.Fed (s t : State) (bytes : List Byte) (results : List (Option (List Byte))) : Prop where
  same : s.SameButAssembler t
  inv : t.fa.Inv t.cfg
  results_eq : callResults t.faLog = callResults s.faLog ++ results
  length_eq : ∀ p, some p ∈ results → p.length = s.cfg.pkt
  unfaulted : t.unfaulted → s.unfaulted
  stream_eq : t.unfaulted → t.fa.stream t.cfg t.faLog = s.fa.stream s.cfg s.faLog ++ bytes

theorem State.SameButAssembler.refl (s : State) : s.SameButAssembler s := ⟨rfl, rfl, rfl, rfl, rfl, rfl⟩

theorem State.Fed.refl {s : State} (h : s.fa.Inv s.cfg) : s.Fed s [] [] :=
  ⟨.refl s, h, (List.append_nil _).symm, by simp, id, fun _ => (List.append_nil _).symm⟩

theorem State.Fed.trans {s t u : State} {ds es : List Byte} {rs qs : List (Option (List Byte))}
    (hst : s.Fed t ds rs) (htu : t.Fed u es qs) : s.Fed u (ds ++ es) (rs ++ qs) where
  same := hst.same.trans htu.same
  inv := htu.inv
  results_eq := by rw [htu.results_eq, hst.results_eq, List.append_assoc]
  length_eq := by
    intro p hp
    rcases List.mem_append.1 hp with hp | hp
    · exact hst.length_eq p hp
    · rw [htu.length_eq p hp, hst.same.cfg]
  unfaulted := fun hu => hst.unfaulted (htu.unfaulted hu)
  stream_eq := fun hu => by rw [htu.stream_eq hu, hst.stream_eq (htu.unfaulted hu), List.append_assoc]

theorem Assembler.length_of_result_eq {c : Config} {a : Assembler} {p : List Byte} (h : a.result c = some p) :
    p.length = c.pkt := by
  rw [Assembler.result] at h
  split at h
  · rw [← Option.some.inj h, Memory.length_bytes]
  · cases h

theorem State.fed_beat_continue {s : State} (h : s.fa.Inv s.cfg) (inData : Option Byte) :
    s.Fed (s.afterBeat false inData) inData.toList [] :=
  ⟨s.sameButAssembler_afterBeat _ _, h.beat _ _, (List.append_nil _).symm, by simp, Assembler.loOvf_of_beat,
    fun ht => h.stream_beat ht _⟩

theorem State.fed_beat_end {s : State} (h : s.fa.Inv s.cfg) (inData : Option Byte) :
    s.Fed (s.afterBeat true inData) inData.toList [(s.afterBeat true inData).fa.result s.cfg] :=
  ⟨s.sameButAssembler_afterBeat _ _, h.beat _ _, callResults_beatEvent_end _ _ _ _,
    fun _ hp => Assembler.length_of_result_eq (List.mem_singleton.1 hp).symm, Assembler.loOvf_of_beat,
    fun ht => h.stream_beat ht _⟩

theorem State.fed_nop {s : State} (h : s.fa.Inv s.cfg) :
    s.Fed { s with fa := { s.fa with resValid := false } } [] [] :=
  ⟨s.sameButAssembler_with_fa _, h.clear_resValid, (List.append_nil _).symm, by simp, id,
    fun _ => (List.append_nil _).symm⟩

/-- The operations of a call carry its bytes and end it with one result. -/
theorem CallOps.fed {chunk : List Byte} {ops : List Instr} (h : CallOps chunk ops) {s t : State}
    (hinv : s.fa.Inv s.cfg) (hrun : execAll ops s = .next t) : s.Fed t chunk [t.fa.result s.cfg] := by
  induction h generalizing s with
  | endOnly =>
    obtain ⟨u, hexec, hrest⟩ := execAll_cons_next hrun
    obtain ⟨-, -, rfl⟩ := State.beatStep_next hexec
    cases hrest
    exact State.fed_beat_end hinv none
  | last d =>
    obtain ⟨u, hexec, hrest⟩ := execAll_cons_next hrun
    obtain ⟨-, -, rfl⟩ := State.beatStep_next hexec
    cases hrest
    exact State.fed_beat_end hinv (some d)
  | byte d _ ih =>
    obtain ⟨u, hexec, hrest⟩ := execAll_cons_next hrun
    obtain ⟨-, -, rfl⟩ := State.beatStep_next hexec
    have hfirst := State.fed_beat_continue hinv (some d)
    exact hfirst.trans (ih hfirst.inv hrest)
  | nop _ ih =>
    obtain ⟨u, hexec, hrest⟩ := execAll_cons_next hrun
    obtain ⟨-, rfl⟩ := exec_faNop_next hexec
    have hfirst := State.fed_nop hinv
    exact hfirst.trans (ih hfirst.inv hrest)

/-- A call between calls runs, by the document's algorithm, and carries its bytes (R190, R191). -/
theorem execAll_feedOps {s : State} (hreset : s.faReset = true) (hinv : s.fa.Inv s.cfg) (hidle : s.fa.fsm = .idle)
    (chunk : List Byte) :
    ∃ t, execAll (feedOps chunk) s = .next t ∧ t.fa = s.fa.feedCall s.cfg chunk ∧
      s.Fed t chunk [t.fa.result s.cfg] := by
  have hcall := callOps_feedOps chunk
  obtain ⟨t, hrun, hfa, -⟩ := hcall.execAll_next hreset hinv.cursorsInRange
  exact ⟨t, hrun, hfa.trans (Assembler.callEnd_eq_feedCall hidle hinv.widths.w_lt.le chunk), hcall.fed hinv hrun⟩

/-! ### A call after a drain -/

/-- With less than a packet staged, the call starts by emptying `lo`. -/
theorem Assembler.Inv.callDrain_loLen {c : Config} {a : Assembler} (h : a.Inv c) (hmore : a.more c = false) :
    (a.callDrain c).loLen = 0 := by
  have hshort : a.loLen < c.pkt := by
    rw [← Nat.not_le, ← Assembler.more_iff (c := c), hmore]
    exact Bool.false_ne_true
  have := h.one_empty
  simp only [Assembler.callDrain]
  omega

/-- What does not fit the packet is staged without loss if `lo` was emptied and is long enough. -/
theorem Assembler.Inv.feedCall_loOvf {c : Config} {a : Assembler} (h : a.Inv c) (hmore : a.more c = false)
    {chunk : List Byte} (hlen : chunk.length ≤ c.loCap + (c.pkt - (a.callDrain c).w)) :
    (a.feedCall c chunk).loOvf = a.loOvf := by
  have hempty := h.callDrain_loLen hmore
  have hkept : (a.callDrain c).loOvf = a.loOvf := rfl
  rw [Assembler.feedCall]
  by_cases hshort : chunk.length < c.pkt - (a.callDrain c).w
  · rw [Assembler.callChunk_of_short hshort]
    exact hkept
  · rw [Assembler.callChunk_of_enough hshort]
    have hfits : ¬ min (chunk.drop (c.pkt - (a.callDrain c).w)).length (c.loCap - (a.callDrain c).loLen) <
        (chunk.drop (c.pkt - (a.callDrain c).w)).length := by
      rw [hempty, List.length_drop]
      omega
    simp only [Assembler.stage, decide_eq_false hfits, Bool.or_false]
    exact hkept

theorem Assembler.feedCall_fsm (c : Config) (a : Assembler) (chunk : List Byte) :
    (a.feedCall c chunk).fsm = .idle := rfl

/-- Settles O53: the drain of phase A leaves all of `lo` to the surplus, which is no longer than the chunk. -/
theorem drainedCallerNeverOverflows : Obligations.DrainedCallerNeverOverflows := by
  intro chunk s hreset hunfaulted hinv hidle hmore hlen
  obtain ⟨t, hrun, hfa, -⟩ := execAll_feedOps hreset hinv hidle chunk
  refine ⟨t, hrun, ?_⟩
  rw [State.unfaulted, hfa, hinv.feedCall_loOvf hmore (by omega)]
  exact hunfaulted

theorem Assembler.callDrain_of_empty {c : Config} {a : Assembler} (hlen : a.loLen = 0) : a.callDrain c = a := by
  simp only [Assembler.callDrain, hlen, Nat.zero_min, Memory.copyFrom_zero, Memory.shiftDown_zero, Nat.sub_zero,
    Nat.add_zero]
  rw [← hlen]

theorem Assembler.stream_of_idle {c : Config} {a : Assembler} (h : a.fsm = .idle) (log : List FaEvent) :
    a.stream c log = returnedBytes log ++ Memory.bytes a.buf a.w ++ Memory.bytes a.lo a.loLen := by
  rw [Assembler.stream, completedBytes_of_ne_spill (by simp [h])]

/-- Settles O52: the stream before the call is what was returned, and after it that, the packet and `lo`. -/
theorem surplusOfOneCallIsStaged : Obligations.SurplusOfOneCallIsStaged := by
  intro chunk s hreset hinv hidle hunfaulted hw hlo hlong hshort
  have hpkt : s.cfg.pkt ≤ s.cfg.loCap := s.cfg.pkt_le_loCap
  obtain ⟨t, hrun, hfa, hfed⟩ := execAll_feedOps hreset hinv hidle chunk
  have hdrain : s.fa.callDrain s.cfg = s.fa := Assembler.callDrain_of_empty hlo
  have henough : ¬ chunk.length < s.cfg.pkt - s.fa.w := by omega
  have hmore : s.fa.more s.cfg = false := by
    rw [← Bool.not_eq_true, Assembler.more_iff, hlo]
    exact Nat.not_le.2 s.cfg.pkt_pos
  have hunfaulted' : t.unfaulted := by
    rw [State.unfaulted, hfa, hinv.feedCall_loOvf hmore (by rw [hdrain]; omega)]
    exact hunfaulted
  have hcall := hfa
  rw [Assembler.feedCall, hdrain, Assembler.callChunk_of_enough henough] at hcall
  have hcomplete : t.fa.resComplete = true := by rw [hcall]; rfl
  have hcursor : t.fa.w = 0 := by rw [hcall]; rfl
  have hresult : t.fa.result s.cfg = some (Memory.bytes t.fa.pkt s.cfg.pkt) := if_pos hcomplete
  have hsplit : Memory.bytes t.fa.pkt s.cfg.pkt ++ Memory.bytes t.fa.lo t.fa.loLen = chunk := by
    have hstream := hfed.stream_eq hunfaulted'
    rw [Assembler.stream_of_idle hidle, Assembler.stream_of_idle (by rw [hfa, Assembler.feedCall_fsm]), hw, hlo, hcursor,
      returnedBytes_eq_flatten t.faLog, hfed.results_eq, hresult, List.filterMap_append, List.flatten_append,
      ← returnedBytes_eq_flatten] at hstream
    simpa using hstream
  have htake : Memory.bytes t.fa.pkt s.cfg.pkt = chunk.take s.cfg.pkt := by
    rw [← hsplit, List.take_left' (Memory.length_bytes _ _)]
  refine ⟨t, hrun, by rw [hfa]; rfl, hcomplete, ?_, ?_, hcursor, hunfaulted'⟩
  · rw [hfed.results_eq, hresult, htake]
  · rw [← hsplit, List.drop_left' (Memory.length_bytes _ _)]

/-! ### Draining -/

theorem drainCalls_of_not_more {s : State} (h : s.fa.more s.cfg = false) : ∀ fuel, drainCalls fuel s = .next s
  | 0 => rfl
  | fuel + 1 => by simp [drainCalls, h]

theorem drainCalls_of_more {s t : State} (h : s.fa.more s.cfg = true) (hexec : exec .faEnd s = .next t) (fuel : Nat) :
    drainCalls (fuel + 1) s = drainCalls fuel t := by
  simp [drainCalls, h, hexec]

/-- Draining ends with less than a packet staged; each of its calls takes `P` bytes off `lo`. -/
theorem drainCalls_next (fuel : Nat) {s : State} (hreset : s.faReset = true) (hinv : s.fa.Inv s.cfg)
    (hidle : s.fa.fsm = .idle) (hfuel : s.fa.loLen ≤ fuel) :
    ∃ t results, drainCalls fuel s = .next t ∧ s.Fed t [] results ∧ t.fa.fsm = .idle ∧
      t.fa.more t.cfg = false ∧ t.fa.loOvf = s.fa.loOvf := by
  have hpos := s.cfg.pkt_pos
  induction fuel generalizing s with
  | zero =>
    have hmore : s.fa.more s.cfg = false := by
      rw [← Bool.not_eq_true, Assembler.more_iff]
      omega
    exact ⟨s, [], rfl, .refl hinv, hidle, hmore, rfl⟩
  | succ fuel ih =>
    cases hmore : s.fa.more s.cfg with
    | false => exact ⟨s, [], drainCalls_of_not_more hmore _, .refl hinv, hidle, hmore, rfl⟩
    | true =>
      have hstaged := Assembler.more_iff.1 hmore
      have hw := hinv.w_eq_zero_of_more hmore
      have hexec : exec .faEnd s = .next (s.afterBeat true none) := exec_faEnd_eq hreset hinv.widths
      have hfirst := State.fed_beat_end hinv none
      have hbeat := Assembler.beat_end_of_enough_staged (c := s.cfg) hidle (by omega) (by omega)
      obtain ⟨t, results, hrun, hfed, hidle', hmore', hovf⟩ :=
        ih (s := s.afterBeat true none) hreset hfirst.inv rfl
          (by rw [State.afterBeat_fa, hbeat]; simp only; omega) hpos
      refine ⟨t, _, (drainCalls_of_more hmore hexec fuel).trans hrun, hfirst.trans hfed, hidle', hmore', ?_⟩
      rw [hovf, State.afterBeat_fa, hbeat]

/-! ### Drained streams -/

theorem feedDrained_cons {chunk : List Byte} {s t u : State} (hcall : execAll (feedOps chunk) s = .next t)
    (hdrain : drainCalls t.fa.loLen t = .next u) (chunks : List (List Byte)) :
    feedDrained (chunk :: chunks) s = feedDrained chunks u := by
  simp [feedDrained, hcall, hdrain]

/-- A drained stream runs, carries all its bytes, and overflows only on a chunk longer than `L`. -/
theorem feedDrained_next (chunks : List (List Byte)) {s : State} (hreset : s.faReset = true)
    (hinv : s.fa.Inv s.cfg) (hidle : s.fa.fsm = .idle) (hmore : s.fa.more s.cfg = false) :
    ∃ t results, feedDrained chunks s = .next t ∧ s.Fed t chunks.flatten results ∧ t.fa.fsm = .idle ∧
      t.fa.more t.cfg = false ∧
      ((∀ chunk ∈ chunks, chunk.length ≤ s.cfg.loCap) → t.fa.loOvf = s.fa.loOvf) := by
  induction chunks generalizing s with
  | nil => exact ⟨s, [], rfl, .refl hinv, hidle, hmore, fun _ => rfl⟩
  | cons chunk chunks ih =>
    obtain ⟨t, hcall, hfa, hfedCall⟩ := execAll_feedOps hreset hinv hidle chunk
    have hresetCall : t.faReset = true := hfedCall.same.faReset.trans hreset
    obtain ⟨u, _, hdrain, hfedDrain, hidleDrain, hmoreDrain, hovfDrain⟩ :=
      drainCalls_next t.fa.loLen hresetCall hfedCall.inv (by rw [hfa, Assembler.feedCall_fsm]) le_rfl
    have hfed := hfedCall.trans hfedDrain
    rw [List.append_nil] at hfed
    obtain ⟨v, _, hrun, hfedRest, hidleRest, hmoreRest, hovfRest⟩ :=
      ih (s := u) (hfedDrain.same.faReset.trans hresetCall) hfed.inv hidleDrain hmoreDrain
    refine ⟨v, _, (feedDrained_cons hcall hdrain chunks).trans hrun, hfed.trans hfedRest, hidleRest, hmoreRest,
      fun hlens => ?_⟩
    obtain ⟨hlen, hrest⟩ := List.forall_mem_cons.1 hlens
    rw [hovfRest (by rwa [hfed.same.cfg]), hovfDrain, hfa, hinv.feedCall_loOvf hmore (by omega)]

theorem length_flatten_of_length_eq {n : Nat} : ∀ {packets : List (List Byte)},
    (∀ p ∈ packets, p.length = n) → packets.flatten.length = packets.length * n
  | [], _ => (Nat.zero_mul n).symm
  | p :: packets, h => by
    obtain ⟨hp, hrest⟩ := List.forall_mem_cons.1 h
    rw [List.flatten_cons, List.length_append, hp, length_flatten_of_length_eq hrest, List.length_cons, Nat.succ_mul,
      Nat.add_comm]

/-- Whole packets and a rest shorter than one, together a whole number of packets: there is no rest. -/
theorem eq_and_eq_zero_of_mul_add_eq_mul {n r k size : Nat} (hr : r < size) (h : n * size + r = k * size) :
    n = k ∧ r = 0 := by
  have hzero : r = 0 := by
    have hmod := congrArg (· % size) h
    simpa [Nat.mul_add_mod_self_right, Nat.mod_eq_of_lt hr] using hmod
  refine ⟨Nat.eq_of_mul_eq_mul_right (by omega : 0 < size) ?_, hzero⟩
  omega

/-- Settles O54: the stream is the packets returned and less than one packet more, which its length leaves no room
for. -/
theorem drainedStreamIsFramedExactly : Obligations.DrainedStreamIsFramedExactly := by
  intro chunks k s hreset hzero hnone hlength
  have hinv : s.fa.Inv s.cfg := hzero ▸ Assembler.inv_zero s.cfg
  have hidle : s.fa.fsm = .idle := by rw [hzero]; rfl
  have hmore : s.fa.more s.cfg = false := by
    rw [← Bool.not_eq_true, Assembler.more_iff, hzero]
    exact Nat.not_le.2 s.cfg.pkt_pos
  obtain ⟨t, results, hrun, hfed, hidle', hmore', hovf⟩ := feedDrained_next chunks hreset hinv hidle hmore
  have hresults : callResults t.faLog = results := by rw [hfed.results_eq, hnone, List.nil_append]
  refine ⟨t, _, hrun, rfl, fun hunfaulted => ?_, fun hlens => ?_⟩
  · have hbefore : s.fa.stream s.cfg s.faLog = [] := by
      rw [Assembler.stream_of_idle hidle, returnedBytes_eq_flatten, hnone, hzero]
      rfl
    have hstream := hfed.stream_eq hunfaulted
    rw [hbefore, List.nil_append, Assembler.stream_of_idle hidle', returnedBytes_eq_flatten] at hstream
    have hpackets : ∀ p ∈ (callResults t.faLog).filterMap id, p.length = s.cfg.pkt := by
      intro p hp
      obtain ⟨r, hr, rfl⟩ : ∃ r ∈ results, r = some p := by simpa [hresults] using hp
      exact hfed.length_eq p hr
    have hrest : t.fa.w + t.fa.loLen < s.cfg.pkt := by
      have hw := hfed.inv.widths.w_lt
      have hone := hfed.inv.one_empty
      rw [← Bool.not_eq_true, Assembler.more_iff] at hmore'
      rw [hfed.same.cfg] at hw hmore'
      omega
    have hsum := congrArg List.length hstream
    rw [List.length_append, List.length_append, Memory.length_bytes, Memory.length_bytes,
      length_flatten_of_length_eq hpackets, Nat.add_assoc, hlength] at hsum
    obtain ⟨hcount, hnorest⟩ := eq_and_eq_zero_of_mul_add_eq_mul hrest hsum
    obtain ⟨hw, hlo⟩ := Nat.add_eq_zero_iff.1 hnorest
    rw [hw, hlo, Memory.bytes_zero, Memory.bytes_zero, List.append_nil, List.append_nil] at hstream
    exact ⟨hcount, hpackets, hstream, hw, hlo⟩
  · rw [hovf hlens, hzero]
    rfl

end Sys2Proof.Machine
end
